-- ==== Sys2Proof/Word.lean ====
section
/-! DEFINITION. The word types of CORE (spec/00_scope.md rules R4, R7; spec/30_encoding.md rule R80). -/

namespace Sys2Proof

/-- A 32-bit word: every integer register, the command argument and every result word (R4, `W = 32`).
A `u32` is read with `toNat`, an `s32` with `toInt` (two's complement, R7). -/
abbrev Word := BitVec 32

/-- A command word `cmd[39:0]` (R80). -/
abbrev CmdWord := BitVec 40

end Sys2Proof
end

