-- ==== Sys2Proof/Config.lean ====
section
/-! DEFINITION. The configuration record `cfg` of spec/00_scope.md rules R4 and R5, the OPEN parameters of this hardware, and the one free value of the model. -/

namespace Sys2Proof

/-- `FP`: the floating-point formats a configuration can name. The spec gives one
(R4; spec/41_pi_controller.md rule R131), whose arithmetic is `Machine/Fp.lean`. -/
inductive FpFormat where
  /-- IEEE 754 binary32 with round-to-nearest-even. -/
  | binary32
  deriving DecidableEq, Repr

/-- The fields of `cfg` (R4), as raw data. -/
structure Params where
  /-- `W`: the width in bits of registers, arguments and results; 32, the width of `Word`. -/
  w : Nat
  /-- `CW`: the width in bits of the tick counter. -/
  cw : Nat
  /-- `N`: the number of ring-buffer slots. -/
  n : Nat
  /-- `MIN_OUT`: the lower output bound. -/
  minOut : Nat
  /-- `MAX_OUT`: the upper output bound. -/
  maxOut : Nat
  /-- `F_REF`: the tick frequency in ticks per second. -/
  fRef : Nat
  /-- `KP`: the proportional gain, a binary32 pattern. -/
  kp : Word
  /-- `KI`: the integral gain, a binary32 pattern. -/
  ki : Word
  /-- `FP`: the floating-point arithmetic. -/
  fp : FpFormat
  deriving DecidableEq, Repr

/-- The binary32 pattern `g` is finite and `|g| <= 2^k`, for `k <= 127` (R5). Bits 30:0 of a pattern
order as the magnitudes do, and those of `2^k` are `(127 + k) * 2^23`
(spec/41_pi_controller.md rule R131). -/
def gainWithin (g : Word) (k : Nat) : Bool :=
  decide ((g.extractLsb' 0 31).toNat ≤ (127 + k) * 2 ^ 23)

/-- A configuration is well formed (R5). R4 gives `W` the one value 32 and, unlike `N` and `CW`, no
range; so another width is not well formed (DEDUCED, log 19; safe). -/
def Params.wf (p : Params) : Bool :=
  p.w == 32 && p.n % 2 == 1 && decide (p.n ≤ 15)
    && decide (p.minOut ≤ p.maxOut) && decide (p.maxOut < 2 ^ 24)
    && decide (1 ≤ p.fRef) && decide (p.fRef ≤ 2 ^ 32 - 1)
    && decide (1 ≤ p.cw) && decide (p.cw ≤ 32)
    && gainWithin p.kp 64 && gainWithin p.ki 32

/-- A well-formed configuration. "No rule of this spec gives a meaning to a configuration that is not
well formed; a model refuses it" (R5): such a configuration is no value of this type. -/
structure Config extends Params where
  ok : toParams.wf = true
  deriving DecidableEq, Repr

/-- FREE VALUE (log 2): bits that select `F_REF` of this hardware, which the spec leaves OPEN (R4). -/
opaque Config.freeFRef : Word

/-- FREE VALUE (log 2): bits that select `KP` of this hardware, which the spec leaves OPEN (R4). -/
opaque Config.freeKp : Word

/-- FREE VALUE (log 2): bits that select `KI` of this hardware, which the spec leaves OPEN (R4). -/
opaque Config.freeKi : Word

/-- FREE VALUE (log 14): the sign and fraction bits of the NaN that an invalid operation on two
operands gives. The spec says that it is a NaN, not which (spec/41_pi_controller.md rule R135).
No such operation arises under a well-formed configuration (rule R146). -/
opaque Config.freeNan : Word → Word → BitVec 24

/-- The parameters of this hardware (R4): `W = 32`, `FP` is binary32, `CW = 32`, `N = 9`, `MIN_OUT = 15`, `MAX_OUT = 199`. The OPEN
ones are free values kept inside the limits of R5: `F_REF` takes every value of `1 .. 2^32 - 1`,
`KP` and `KI` every pattern that R5 allows, as the free bits vary. -/
def Params.hardware : Params where
  w := 32
  cw := 32
  n := 9
  minOut := 15
  maxOut := 199
  fRef := if Config.freeFRef.toNat = 0 then 1 else Config.freeFRef.toNat
  kp := if gainWithin Config.freeKp 64 then Config.freeKp else 0
  ki := if gainWithin Config.freeKi 32 then Config.freeKi else 0
  fp := .binary32

theorem Params.hardware_wf : Params.hardware.wf = true := by
  have hf : 1 ≤ Params.hardware.fRef ∧ Params.hardware.fRef ≤ 2 ^ 32 - 1 := by
    have := Config.freeFRef.isLt
    simp only [Params.hardware]
    split <;> omega
  have hp : gainWithin Params.hardware.kp 64 = true := by
    simp only [Params.hardware]
    split
    · assumption
    · decide
  have hi : gainWithin Params.hardware.ki 32 = true := by
    simp only [Params.hardware]
    split
    · assumption
    · decide
  have hrest : Params.hardware.w = 32 ∧ Params.hardware.n = 9 ∧ Params.hardware.cw = 32 ∧ Params.hardware.minOut = 15
      ∧ Params.hardware.maxOut = 199 := ⟨rfl, rfl, rfl, rfl, rfl⟩
  obtain ⟨hw, hn, hc, hl, hu⟩ := hrest
  simp only [Params.wf, hf.1, hf.2, hp, hi, hw, hn, hc, hl, hu]
  decide

/-- The configuration of this hardware. -/
def Config.hardware : Config := { Params.hardware with ok := Params.hardware_wf }

end Sys2Proof
end

