-- ==== Sys2Proof/Syntax.lean ====
section
/-! DEFINITION. The six commands of CORE-CMD (spec/30_encoding.md rule R86) and the names of the read-only register view (rule R97). -/

namespace Sys2Proof

/-- The registers that `RD` can select, by their names (spec/30_encoding.md rule R97; the map is
spec/10_state.md rule R41). `rb i` is `RB<i>`, index `0x10 + i`. -/
inductive RegSel where
  | status
  | target
  | measured
  | elapsed
  | duty
  | output
  | errsum
  | lastmed
  | writepos
  | rb (i : BitVec 4)
  deriving DecidableEq, Repr

/-- The commands of spec/30_encoding.md rule R86, one constructor for each row of the opcode table. -/
inductive Instr where
  /-- `NOP`, opcode 0x00, format Z. -/
  | nop
  /-- `EDGE`, opcode 0x01, format Z. -/
  | edge
  /-- `TICK`, opcode 0x02, format Z. -/
  | tick
  /-- `SETTGT val`, opcode 0x03, format V. -/
  | settgt (val : Word)
  /-- `FILT val`, opcode 0x04, format V. -/
  | filt (val : Word)
  /-- `RD idx`, opcode 0x05, format X. -/
  | rd (reg : RegSel)
  deriving DecidableEq, Repr

end Sys2Proof
end

