-- ==== Sys2Proof/Machine/State.lean ====
section
/-! DEFINITION. The state of CORE as plain data, its reset values, its faults and the model's refusals (spec/10_state.md; spec/60_exceptions.md). -/

namespace Sys2Proof.Machine

/-- The ring buffer `RB` as a list of (slot index, word) pairs, by rising index, listing no slot that
holds 0. An unlisted slot holds 0, its reset value (spec/10_state.md rules R33, R47). The unit is the
32-bit word: CORE has no byte-wide access (spec/20_memory.md rules R60, R63; log 7). -/
abbrev Memory := List (Nat × Word)

/-- The output record of one command (spec/10_state.md rule R45). -/
structure OutRecord where
  /-- One `meas_ready` pulse. -/
  measReady : Bool
  /-- One "set compare value" call to the actuation sink. -/
  pwm : Option Word
  /-- The result word of `FILT` and `RD`. -/
  res : Option Word
  deriving DecidableEq, Repr

/-- `(false, none, none)`: the record of a command that emits nothing, and the record at reset
(spec/10_state.md rules R45, R47). -/
def OutRecord.none : OutRecord := ⟨false, Option.none, Option.none⟩

/-- What the environment presents to CORE (spec/10_state.md rule R44): a command word, or one
assertion and release of `rst` (spec/70_reset_and_hazards.md rule R235; log 10). -/
inductive Input where
  | command (w : CmdWord)
  | reset
  deriving DecidableEq, Repr

/-- The sites of `ArithOverflow` (spec/60_exceptions.md rule R209). -/
inductive OverflowSite where
  /-- `"ticks*2"`: `elapsedTicks * 2` is no `u32`. -/
  | ticksTwice
  /-- `"rate"`: `k * 60` is no `u32`. -/
  | rate
  /-- `"error"`: `targetRate - measuredRate` is no `s32`. -/
  | error
  /-- `"errorSum"`: `errorSum + error` is no `s32`. -/
  | errorSum
  /-- `"smooth"`: `4 * lastMedian + rawMedian` is no `u32`. -/
  | smooth
  deriving DecidableEq, Repr

/-- The five faults of spec/60_exceptions.md rules R206 to R210. Each ends the run, with no post-state
(R205). All are SAFE: the model stops where the spec gives no post-state (log 15). -/
inductive Fault where
  /-- Fault 1 (R206): raised by decode for a reserved word, and by `RD` for a reserved index. SAFE. -/
  | illegalCommand (cmd : CmdWord)
  /-- Fault 2 (R207): raised by a closing `EDGE` with `cnt_ovf = 1`. SAFE. -/
  | counterWrap
  /-- Fault 3 (R208): raised by a closing `EDGE` that captured 0. SAFE. -/
  | divideByZero
  /-- Fault 4 (R209): raised by a closing `EDGE` or by `FILT` when a named integer does not fit its
  type. SAFE. -/
  | arithOverflow (site : OverflowSite)
  /-- Fault 5 (R210): raised by a closing `EDGE` whose raw output is NaN. SAFE. -/
  | fpInvalid
  deriving DecidableEq, Repr

/-- Where the model refuses. No run from reset reaches one of them. -/
inductive Refusal where
  /-- Raised by an arm of `exec` that has no meaning yet; there is none. SAFE. -/
  | notModelled (mnemonic : String)
  /-- Raised by `MemRead` and `MemWrite` at an index of `N` or more, which spec/20_memory.md rule R61
  does not define (log 12). Unreachable: `writePos < N`. SAFE. -/
  | ringIndexUndefined
  /-- Raised by a closing `EDGE` when `f2u_trunc` is asked for a value outside `0 <= a < 2^32`, where
  spec/41_pi_controller.md rule R137 does not define it (log 13). Unreachable: the clamped output
  lies within the bounds. SAFE. -/
  | truncUndefined
  deriving DecidableEq, Repr

/-- The outcome of an operation of the machine that answers a value of type `α`. -/
abbrev Result (α : Type) := Host.Outcome α Fault Refusal

/-- The state: the twelve items of spec/10_state.md rule R20, the record of the last command (R45),
what the environment presents (R44), and the configuration (spec/00_scope.md rule R4), which no step
changes. -/
structure State where
  /-- `running` (R21): a measurement window is open. -/
  running : Bool
  /-- `cnt` (R24): the tick counter, of `CW` bits, held in a 32-bit word (log 11). -/
  cnt : Word
  /-- `cnt_ovf` (R25): `cnt` has wrapped since reset. -/
  cntOvf : Bool
  /-- `elapsedTicks` (R26): a `u32`. -/
  elapsedTicks : Word
  /-- `targetRate` (R27): a `u32`. -/
  targetRate : Word
  /-- `measuredRate` (R28): a `u32`. -/
  measuredRate : Word
  /-- `errorSum` (R29): an `s32` in two's complement. -/
  errorSum : Word
  /-- `output` (R30): a binary32 pattern. -/
  output : Word
  /-- `duty` (R31): a `u32`. -/
  duty : Word
  /-- `RB[0 .. N-1]` (R33). -/
  rb : Memory
  /-- `writePos` (R34): 4 bits. -/
  writePos : BitVec 4
  /-- `lastMedian` (R35): a `u32`. -/
  lastMedian : Word
  /-- The output record of the last command taken (R45; log 8). -/
  out : OutRecord
  /-- What the environment presents, the oldest first (R44; log 9). -/
  inputs : List Input
  /-- `cfg` (spec/00_scope.md rule R4), constant for the life of a run (log 1). -/
  cfg : Config
  deriving DecidableEq, Repr

/-- The machine right after reset (spec/10_state.md rule R47), with nothing presented yet (log 9). -/
def State.reset : State where
  running := false
  cnt := 0
  cntOvf := false
  elapsedTicks := 0
  targetRate := 0
  measuredRate := 0
  errorSum := 0
  output := 0x00000000
  duty := 0
  rb := []
  writePos := 0
  lastMedian := 0
  out := OutRecord.none
  inputs := []
  cfg := Config.hardware

end Sys2Proof.Machine
end

