-- ==== Sys2Proof/Machine/Ops.lean ====
section
/-! DEFINITION. The named operations over registers, the ring memory, the output record and the command port (spec/00_scope.md rule R9; spec/10_state.md; spec/20_memory.md; spec/70_reset_and_hazards.md). -/

namespace Sys2Proof.Machine

/-- Go on with the value of `o`, or stop as `o` stops: "nothing after it in the block happens" (R9). -/
def andThen {α β : Type} (o : Result α) (k : α → Result β) : Result β :=
  match o with
  | .next a => k a
  | .fault f => .fault f
  | .refused r => .refused r

/-! ## Writing a register: `name <- v` of R9 -/

/-- `running <- v`. -/
def State.setRunning (s : State) (v : Bool) : State := { s with running := v }
/-- `cnt <- v`. -/
def State.setCnt (s : State) (v : Word) : State := { s with cnt := v }
/-- `cnt_ovf <- v`. -/
def State.setCntOvf (s : State) (v : Bool) : State := { s with cntOvf := v }
/-- `elapsedTicks <- v`. -/
def State.setElapsedTicks (s : State) (v : Word) : State := { s with elapsedTicks := v }
/-- `targetRate <- v`. -/
def State.setTargetRate (s : State) (v : Word) : State := { s with targetRate := v }
/-- `measuredRate <- v`. -/
def State.setMeasuredRate (s : State) (v : Word) : State := { s with measuredRate := v }
/-- `errorSum <- v`. -/
def State.setErrorSum (s : State) (v : Word) : State := { s with errorSum := v }
/-- `output <- v`. -/
def State.setOutput (s : State) (v : Word) : State := { s with output := v }
/-- `duty <- v`. -/
def State.setDuty (s : State) (v : Word) : State := { s with duty := v }
/-- Write the whole ring. -/
def State.setRb (s : State) (v : Memory) : State := { s with rb := v }
/-- `writePos <- v`. -/
def State.setWritePos (s : State) (v : BitVec 4) : State := { s with writePos := v }
/-- `lastMedian <- v`. -/
def State.setLastMedian (s : State) (v : Word) : State := { s with lastMedian := v }
/-- Write the output record. -/
def State.setOut (s : State) (v : OutRecord) : State := { s with out := v }
/-- Set what the environment presents. -/
def State.setInputs (s : State) (v : List Input) : State := { s with inputs := v }

/-! ## The output record (spec/10_state.md rule R45) -/

/-- A command begins: its record is `(false, none, none)` until it emits. -/
def State.begin (s : State) : State := s.setOut OutRecord.none

/-- `emit meas_ready`. -/
def State.emitMeasReady (s : State) : State := s.setOut { s.out with measReady := true }

/-- `emit pwm(v)`. -/
def State.emitPwm (s : State) (v : Word) : State := s.setOut { s.out with pwm := some v }

/-- `emit res(v)`. -/
def State.emitRes (s : State) (v : Word) : State := s.setOut { s.out with res := some v }

/-! ## The ring memory (spec/20_memory.md rules R60, R61) -/

/-- The word in slot `i`; an unlisted slot holds 0. -/
def Memory.read : Memory → Nat → Word
  | [], _ => 0
  | (a, v) :: m, i => if a = i then v else Memory.read m i

/-- The ring with `v` in slot `i`, in canonical form: writing 0 takes the entry out. -/
def Memory.write : Memory → Nat → Word → Memory
  | [], i, v => if v = 0 then [] else [(i, v)]
  | (a, x) :: m, i, v =>
    if i < a then (if v = 0 then (a, x) :: m else (i, v) :: (a, x) :: m)
    else if i = a then (if v = 0 then m else (i, v) :: m)
    else (a, x) :: Memory.write m i v

/-- The canonical form: indices strictly rising, no entry equal to 0. -/
def Memory.wf : Memory → Bool
  | [] => true
  | (a, v) :: m => v != 0 && m.all (fun c => decide (a < c.1)) && Memory.wf m

/-- Every listed slot is one of the `n` of the ring. -/
def Memory.within (n : Nat) (m : Memory) : Bool := m.all (fun c => decide (c.1 < n))

/-- `MemRead(i, 1)` in a ring of `n` slots; not defined for `i >= n` (R61; log 12). -/
def memRead (n : Nat) (m : Memory) (i : Nat) : Result Word :=
  if i < n then .next (m.read i) else .refused .ringIndexUndefined

/-- `MemWrite(i, 1, v)` in a ring of `n` slots; not defined for `i >= n` (R61; log 12). -/
def memWrite (n : Nat) (m : Memory) (i : Nat) (v : Word) : Result Memory :=
  if i < n then .next (m.write i v) else .refused .ringIndexUndefined

/-- The sequence `RB[0], RB[1], ..., RB[n-1]`. -/
def Memory.slots (n : Nat) (m : Memory) : List Word := (List.range n).map m.read

/-! ## The command port and reset -/

/-- What CORE finds at its ports. -/
inductive Taken where
  /-- Nothing is presented. -/
  | idle
  /-- `rst` is asserted and released; the state carries what is presented after it. -/
  | reset (s : State)
  /-- A command word is taken; the state carries what is presented after it. -/
  | command (w : CmdWord) (s : State)

/-- Take what the environment presents first (spec/10_state.md rule R44): each command is taken once,
in the order presented (spec/20_memory.md rule R66). -/
def take (s : State) : Taken :=
  match s.inputs with
  | [] => .idle
  | .reset :: rest => .reset (s.setInputs rest)
  | .command w :: rest => .command w (s.setInputs rest)

/-- `rst`: every piece of state takes its reset value, whatever it held; `cfg` is not changed, nothing
is emitted, and what the environment goes on to present is its own (spec/10_state.md rule R46;
spec/70_reset_and_hazards.md rule R235). -/
def rst (s : State) : State := { State.reset with cfg := s.cfg, inputs := s.inputs }

/-- Present a word before everything presented so far. -/
def present (w : CmdWord) (s : State) : State := s.setInputs (.command w :: s.inputs)

/-! ## Faults (spec/60_exceptions.md) -/

/-- The number of a fault (R205 to R210). -/
def Fault.number : Fault → Nat
  | .illegalCommand _ => 1
  | .counterWrap => 2
  | .divideByZero => 3
  | .arithOverflow _ => 4
  | .fpInvalid => 5

/-- The name of an overflow site (R209). -/
def OverflowSite.label : OverflowSite → String
  | .ticksTwice => "ticks*2"
  | .rate => "rate"
  | .error => "error"
  | .errorSum => "errorSum"
  | .smooth => "smooth"

/-- `raise <Fault>(info)` (R9): the command ends with the fault; no write, no output and no state of
it is kept (R205). CORE has no trap entry and no return from one (R215, R216). -/
def raise {α : Type} (f : Fault) : Result α := .fault f

end Sys2Proof.Machine
end

