-- ==== Sys2Proof/Machine/Flags.lean ====
section
/-! DEFINITION. CORE has no condition codes and no arithmetic flags (spec/10_state.md rule R38). Here are its one status word, the names of the sequencer's two states, and the range checks of the integer law (spec/00_scope.md rule R8). -/

namespace Sys2Proof.Machine

/-- The two states of the sequencer (spec/42_fan_control_loop.md rule R160). -/
inductive SeqState where
  | idle
  | timing
  deriving DecidableEq, Repr

/-- `IDLE` is `running = 0` and `TIMING` is `running = 1` (spec/10_state.md rule R22). -/
def State.seqState (s : State) : SeqState := if s.running then .timing else .idle

/-- `STATUS`: bit 0 is `running`, bits 31:1 read as zero (spec/10_state.md rule R42). -/
def State.statusWord (s : State) : Word := if s.running then 1 else 0

/-- A natural number that a rule names as a `u32` must fit it (R8); else `ArithOverflow(site)`. -/
def checkU32 (site : OverflowSite) (k : Nat) : Result Word :=
  if k < 2 ^ 32 then .next (BitVec.ofNat 32 k) else raise (.arithOverflow site)

/-- An integer that a rule names as an `s32` must fit it (R8); else `ArithOverflow(site)`. The value
is its two's complement pattern (`to_s32_bits`, R7). -/
def checkS32 (site : OverflowSite) (k : Int) : Result Word :=
  if -2 ^ 31 ≤ k ∧ k < 2 ^ 31 then .next (BitVec.ofInt 32 k) else raise (.arithOverflow site)

end Sys2Proof.Machine
end

