-- ==== Sys2Proof/Machine/EdgeTimer.lean ====
section
/-! DEFINITION. Unit ET: the command TICK and the micro-operations et_open and et_close (spec/40_edge_timer.md). -/

namespace Sys2Proof.Machine

/-- Advance the tick counter by one: at `2^CW - 1` it wraps to 0 and sets `cnt_ovf` (R113). -/
def advance (s : State) : State :=
  if s.cnt.toNat = 2 ^ s.cfg.cw - 1 then (s.setCnt 0).setCntOvf true
  else s.setCnt (s.cnt + 1)

/-- `TICK` (R113): advance the tick counter if a window is open. -/
def execTick (s : State) : Result State :=
  .next (if s.running then advance s.begin else s.begin)

/-- `et_open` (R115). -/
def etOpen (s : State) : State := (s.setCnt 0).setRunning true

/-- `et_close` (R116). -/
def etClose (s : State) : Result State :=
  if s.cntOvf then raise .counterWrap
  else .next (((s.setElapsedTicks s.cnt).setCnt 0).setRunning false).emitMeasReady

end Sys2Proof.Machine
end

