-- ==== Sys2Proof/Machine/Fp.lean ====
section
/-! DEFINITION. The floating-point arithmetic `FP`: IEEE 754 binary32 with round to nearest, ties to even (spec/41_pi_controller.md rules R131 to R138). -/

namespace Sys2Proof.Fp

/-- Bit 31: the sign (R131). -/
def sign (a : Word) : Bool := a.msb

/-- Bits 30:23: the biased exponent (R131). -/
def expField (a : Word) : Nat := (a.extractLsb' 23 8).toNat

/-- Bits 22:0: the fraction (R131). -/
def fracField (a : Word) : Nat := (a.extractLsb' 0 23).toNat

/-- The NaN patterns (R131, R136). -/
def isNan (a : Word) : Bool := expField a == 255 && fracField a != 0

/-- The two infinities (R131). -/
def isInf (a : Word) : Bool := expField a == 255 && fracField a == 0

/-- A zero, a subnormal or a normal (R131). -/
def isFinite (a : Word) : Bool := expField a != 255

/-- The two zeros (R131). -/
def isZero (a : Word) : Bool := expField a == 0 && fracField a == 0

/-- The magnitude of a finite value in units of `2^-149`, of which every finite binary32 value is a
multiple: `f` for `e = 0` and `(2^23 + f) * 2^(e-1)` for `e` in `1 .. 254` (R131). On an infinity it
gives `2^277`, which is beyond every finite magnitude (log 3). -/
def mag (a : Word) : Nat :=
  if expField a = 0 then fracField a else (2 ^ 23 + fracField a) * 2 ^ (expField a - 1)

/-- The value of a finite pattern in units of `2^-149`; an infinity lies beyond every finite value. -/
def value (a : Word) : Int := if sign a then -(mag a : Int) else (mag a : Int)

/-- `n / d` rounded to the nearest integer, ties to the even one, for `d > 0` (R132). -/
def nearestEven (n d : Nat) : Nat :=
  if 2 * (n % d) < d then n / d
  else if d < 2 * (n % d) then n / d + 1
  else n / d + n / d % 2

/-- How far the spacing of the binary32 values around `n / d` exceeds the least one, `2^-149`, as a
power of 2: 0 for a subnormal or least normal magnitude. -/
def spacing (n d : Nat) : Nat := Nat.log2 (n * 2 ^ 149 / d) - 23

/-- Bits 30:0 of an infinity. -/
def infBits : Nat := 255 * 2 ^ 23

/-- Bits 30:0 of the binary32 value nearest to `n / d`, for `d > 0` (R132): the significand is rounded
once, to a multiple of the spacing, and a magnitude that rounds beyond the largest finite one is an
infinity (R135). A significand `r` of `2^23` or more, with its leading bit, adds 1 to the exponent
field as it stands, and one that rounds up to `2^24` carries into it. -/
def roundBits (n d : Nat) : Nat :=
  min (spacing n d * 2 ^ 23 + nearestEven (n * 2 ^ 149) (d * 2 ^ spacing n d)) infBits

/-- The pattern with the given sign and bits 30:0. -/
def pack (neg : Bool) (bits : Nat) : Word :=
  BitVec.ofNat 32 ((if neg then 2 ^ 31 else 0) + bits)

/-- The real number `n / d`, `d > 0`, with the given sign, rounded once to binary32 (R132). -/
def round (neg : Bool) (n d : Nat) : Word := pack neg (roundBits n d)

/-- The decimal number of the given sign whose digits, without the point, are `digits`, and which has
`places` of them behind the point, rounded to binary32 (R138). A negative zero is `-0.0` (log 5). -/
def ofDecimal (neg : Bool) (digits places : Nat) : Word := round neg digits (10 ^ places)

/-- The infinity of the given sign. -/
def inf (neg : Bool) : Word := pack neg infBits

/-- A NaN whose sign and fraction are free, for an invalid operation on `a` and `b` (R135; log 14). A
free fraction of 0, which would be an infinity's, stands for the fraction 1. -/
def nan (a b : Word) : Word :=
  let free := Config.freeNan a b
  let frac := (free.extractLsb' 0 23).toNat
  pack free.msb (infBits + if frac = 0 then 1 else frac)

/-- `i2f(v)`: the binary32 value nearest to the `s32` `v` (R133). -/
def i2f (v : Word) : Word := round (decide (v.toInt < 0)) v.toInt.natAbs 1

/-- `u2f(v)`: the binary32 value nearest to the `u32` `v` (R133). -/
def u2f (v : Word) : Word := round false v.toNat 1

/-- `f_of_int(k)`: the binary32 value equal to `k`, for `k < 2^24` (R134). -/
def fOfInt (k : Nat) : Word := round false k 1

/-- `fmul(a, b)` (R135; infinite operands, log 3). -/
def fmul (a b : Word) : Word :=
  if isNan a || isNan b then nan a b
  else if (isInf a && isZero b) || (isZero a && isInf b) then nan a b
  else if isInf a || isInf b then inf (sign a != sign b)
  else round (sign a != sign b) (mag a * mag b) (2 ^ 298)

/-- `fadd(a, b)` (R135). An exact sum of 0 is `+0.0`, but for two zeros of the same sign. -/
def fadd (a b : Word) : Word :=
  if isNan a || isNan b then nan a b
  else if isInf a && isInf b then (if sign a = sign b then a else nan a b)
  else if isInf a then a
  else if isInf b then b
  else
    let sum := value a + value b
    round (if sum = 0 then sign a && sign b else decide (sum < 0)) sum.natAbs (2 ^ 149)

/-- `fdiv(a, b)` (R135; infinite operands and a zero divisor, log 3). -/
def fdiv (a b : Word) : Word :=
  if isNan a || isNan b then nan a b
  else if (isInf a && isInf b) || (isZero a && isZero b) then nan a b
  else if isInf a || isZero b then inf (sign a != sign b)
  else if isInf b then pack (sign a != sign b) 0
  else round (sign a != sign b) (mag a) (mag b)

/-- `fgt(a, b)`: `a > b` as real numbers, false on a NaN (R136). -/
def fgt (a b : Word) : Bool := !isNan a && !isNan b && decide (value b < value a)

/-- `flt(a, b)`: `a < b` as real numbers, false on a NaN (R136). -/
def flt (a b : Word) : Bool := !isNan a && !isNan b && decide (value a < value b)

/-- `f2u_trunc(a)`: the integer part of a finite `a` with `0 <= a < 2^32`, and nothing for any other
`a`, where the spec does not define it (R137). -/
def f2uTrunc (a : Word) : Option Word :=
  if isFinite a ∧ 0 ≤ value a ∧ mag a < 2 ^ 32 * 2 ^ 149 then
    some (BitVec.ofNat 32 (mag a / 2 ^ 149))
  else none

end Sys2Proof.Fp
end

