-- ==== Sys2Proof/Machine/PiController.lean ====
section
/-! DEFINITION. Unit PI: the micro-operation pi_update (spec/41_pi_controller.md rules R140 to R143). -/

namespace Sys2Proof.Machine

/-- `error = targetRate - measuredRate`, an `s32` (R141). -/
def piError (s : State) : Result Word :=
  checkS32 .error ((s.targetRate.toNat : Int) - (s.measuredRate.toNat : Int))

/-- `sum1 = errorSum + error`, an `s32` (R141). -/
def piSum (error : Word) (s : State) : Result Word :=
  checkS32 .errorSum (s.errorSum.toInt + error.toInt)

/-- `raw = fadd(fmul(KP, i2f(error)), fmul(fmul(KI, i2f(sum1)), Ta))` (R141). -/
def rawOutput (cfg : Config) (error sum1 ta : Word) : Word :=
  let p := Fp.fmul cfg.kp (Fp.i2f error)
  let q := Fp.fmul (Fp.fmul cfg.ki (Fp.i2f sum1)) ta
  Fp.fadd p q

/-- The output after the clamp: `MAX_OUT` if the raw value lies above it, else `MIN_OUT` if it lies
below that, else the raw value (R143). Both comparisons are strict, the upper one is tested first. -/
def clampedOutput (cfg : Config) (raw : Word) : Word :=
  if Fp.fgt raw (Fp.fOfInt cfg.maxOut) then Fp.fOfInt cfg.maxOut
  else if Fp.flt raw (Fp.fOfInt cfg.minOut) then Fp.fOfInt cfg.minOut
  else raw

/-- The raw value is clamped (R143). -/
def clamps (cfg : Config) (raw : Word) : Bool :=
  Fp.fgt raw (Fp.fOfInt cfg.maxOut) || Fp.flt raw (Fp.fOfInt cfg.minOut)

/-- The accumulator after the clamp: a clamped call takes its error back out (R143). `sum1 - error` is
the `errorSum` before the call. -/
def rolledBackSum (cfg : Config) (error sum1 raw : Word) : Word :=
  if clamps cfg raw then sum1 - error else sum1

/-- Clamp, rollback and write-back (R143). -/
def clampWriteBack (error sum1 raw : Word) (s : State) : State :=
  (s.setOutput (clampedOutput s.cfg raw)).setErrorSum (rolledBackSum s.cfg error sum1 raw)

/-- `pi_update(Ta)`: R141, R142, R143 in that order (R140). -/
def piUpdate (ta : Word) (s : State) : Result State :=
  andThen (piError s) fun error =>
  andThen (piSum error s) fun sum1 =>
  if Fp.isNan (rawOutput s.cfg error sum1 ta) then raise .fpInvalid
  else .next (clampWriteBack error sum1 (rawOutput s.cfg error sum1 ta) s)

end Sys2Proof.Machine
end

