-- ==== Sys2Proof/Machine/FanControl.lean ====
section
/-! DEFINITION. The fan-control sequencer: the commands EDGE and SETTGT, the rate formula, the sampling period and the duty conversion (spec/42_fan_control_loop.md). -/

namespace Sys2Proof.Machine

/-- `rate(t)` (R163): the truncating division comes before the multiplication by 60. -/
def rate (cfg : Config) (t : Word) : Result Word :=
  if t = 0 then raise .divideByZero
  else
    andThen (checkU32 .ticksTwice (t.toNat * 2)) fun d =>
    checkU32 .rate (cfg.fRef / d.toNat * 60)

/-- `period(t)` (R165). -/
def period (cfg : Config) (t : Word) : Word :=
  Fp.fdiv (Fp.u2f t) (Fp.u2f (BitVec.ofNat 32 cfg.fRef))

/-- `duty <- f2u_trunc(output)`, then `emit pwm(duty)` (R167). -/
def forwardDuty (s : State) : Result State :=
  match Fp.f2uTrunc s.output with
  | some duty => .next ((s.setDuty duty).emitPwm duty)
  | none => .refused .truncUndefined

/-- The closing edge (R161), from the state in which the command has begun. -/
def closeWindow (s : State) : Result State :=
  andThen (etClose s) fun s1 =>
  andThen (rate s1.cfg s1.elapsedTicks) fun m =>
  andThen (piUpdate (period s1.cfg s1.elapsedTicks) (s1.setMeasuredRate m)) fun s2 =>
  forwardDuty s2

/-- `EDGE` (R161): an opening edge in `IDLE`, a closing edge in `TIMING`. -/
def execEdge (s : State) : Result State :=
  if s.running then closeWindow s.begin else .next (etOpen s.begin)

/-- `SETTGT val` (R171). -/
def execSettgt (val : Word) (s : State) : Result State := .next (s.begin.setTargetRate val)

end Sys2Proof.Machine
end

