-- ==== Sys2Proof/WellFormed.lean ====
section
/-! DEFINITION. Which commands have an encoding that is not reserved (spec/30_encoding.md rules R84, R87, R92). -/

namespace Sys2Proof

/-- The index is legal in a CORE of `n` ring slots: every named register is, and `RB<i>` for `i < n`
(spec/10_state.md rules R41, R43). -/
def RegSel.wellFormed (n : Nat) : RegSel → Bool
  | .rb i => decide (i.toNat < n)
  | _ => true

/-- The command has a legal encoding in a CORE of `n` ring slots. Formats Z and V admit every operand
(R82, R83); format X needs a legal index (R84). -/
def Instr.wellFormed (n : Nat) : Instr → Bool
  | .nop => true
  | .edge => true
  | .tick => true
  | .settgt _ => true
  | .filt _ => true
  | .rd reg => reg.wellFormed n

end Sys2Proof
end

