-- ==== Sys2Proof/Decode.lean ====
section
/-! DEFINITION. The decoder, a total function of the 40-bit command word, and the encoder (spec/30_encoding.md rules R80 to R88, R92). -/

namespace Sys2Proof

/-- Why a word is a reserved encoding (R92). -/
inductive Reserved where
  /-- `op` in 0x06 to 0xFF. -/
  | opcode
  /-- `NOP`, `EDGE` or `TICK` with `arg != 0`. -/
  | argument
  /-- `RD` with `arg[31:5] != 0`. -/
  | upperBits
  /-- `RD` with an `idx` that the map of spec/10_state.md rule R41 marks reserved. -/
  | index
  deriving DecidableEq, Repr

/-- `op = cmd[39:32]` (R80). -/
def opField (w : CmdWord) : BitVec 8 := w.extractLsb' 32 8

/-- `arg = cmd[31:0]` (R80). -/
def argField (w : CmdWord) : Word := w.extractLsb' 0 32

/-- `idx = arg[4:0]` (R84). -/
def idxField (arg : Word) : BitVec 5 := arg.extractLsb' 0 5

/-- `arg[31:5]` (R84). -/
def idxUpper (arg : Word) : BitVec 27 := arg.extractLsb' 5 27

/-- The register that `RD` index `idx` selects (spec/10_state.md rule R41): 0x00 to 0x08 by name,
`0x10 + i` the slot `RB[i]` for `i < n`, every other index reserved. -/
def decodeIndex (n : Nat) (idx : BitVec 5) : Except Reserved RegSel :=
  match idx.toNat with
  | 0x00 => .ok .status
  | 0x01 => .ok .target
  | 0x02 => .ok .measured
  | 0x03 => .ok .elapsed
  | 0x04 => .ok .duty
  | 0x05 => .ok .output
  | 0x06 => .ok .errsum
  | 0x07 => .ok .lastmed
  | 0x08 => .ok .writepos
  | k =>
    if 0x10 ≤ k ∧ k < 0x10 + n then .ok (.rb (BitVec.ofNat 4 (k - 0x10))) else .error .index

/-- A format Z command: its argument must be 0 (R82). -/
def decodeZ (i : Instr) (arg : Word) : Except Reserved Instr :=
  if arg = 0 then .ok i else .error .argument

/-- A format X command: `arg[31:5]` must be 0 and the index legal (R84). -/
def decodeX (n : Nat) (arg : Word) : Except Reserved Instr :=
  if idxUpper arg = 0 then (decodeIndex n (idxField arg)).map .rd else .error .upperBits

/-- Decoding in a CORE of `n` ring slots, in the order of R87. -/
def decode (n : Nat) (w : CmdWord) : Except Reserved Instr :=
  match (opField w).toNat with
  | 0x00 => decodeZ .nop (argField w)
  | 0x01 => decodeZ .edge (argField w)
  | 0x02 => decodeZ .tick (argField w)
  | 0x03 => .ok (.settgt (argField w))
  | 0x04 => .ok (.filt (argField w))
  | 0x05 => decodeX n (argField w)
  | _ => .error .opcode

/-- The `RD` index of a register (R97; spec/10_state.md rule R41). -/
def RegSel.index : RegSel → BitVec 5
  | .status => 0x00
  | .target => 0x01
  | .measured => 0x02
  | .elapsed => 0x03
  | .duty => 0x04
  | .output => 0x05
  | .errsum => 0x06
  | .lastmed => 0x07
  | .writepos => 0x08
  | .rb i => 1#1 ++ i

/-- The opcode of a command (R86). -/
def Instr.opcode : Instr → BitVec 8
  | .nop => 0x00
  | .edge => 0x01
  | .tick => 0x02
  | .settgt _ => 0x03
  | .filt _ => 0x04
  | .rd _ => 0x05

/-- The argument of a command by its format: Z is 0, V is the value, X the index in bits 4:0 (R81). -/
def Instr.argument : Instr → Word
  | .nop => 0
  | .edge => 0
  | .tick => 0
  | .settgt val => val
  | .filt val => val
  | .rd reg => 0#27 ++ reg.index

/-- The command word `{op, arg}` of a command (R80). -/
def encode (i : Instr) : CmdWord := i.opcode ++ i.argument

/-- The `match` column of R88 for the row of a command. -/
def Instr.rowMatch : Instr → CmdWord
  | .nop => 0x0000000000
  | .edge => 0x0100000000
  | .tick => 0x0200000000
  | .settgt _ => 0x0300000000
  | .filt _ => 0x0400000000
  | .rd _ => 0x0500000000

/-- The `mask` column of R88 for the row of a command. -/
def Instr.rowMask : Instr → CmdWord
  | .nop => 0xFFFFFFFFFF
  | .edge => 0xFFFFFFFFFF
  | .tick => 0xFFFFFFFFFF
  | .settgt _ => 0xFF00000000
  | .filt _ => 0xFF00000000
  | .rd _ => 0xFFFFFFFFE0

/-- The 40-bit word of an instruction that the opcode table gives as the number `w` of `nbits` bits:
bit 0 is bit 0 of the command word, and bits above `nbits` are 0 (log 17). -/
def tableWord (nbits w : Nat) : CmdWord := BitVec.ofNat 40 (w % 2 ^ nbits)

/-- The command that the decoder reads, on this hardware (`N = 9`), from the word of an opcode-table
row. A row of more than 40 bits is no command (R80, R94). -/
def decodeTableWord (nbits w : Nat) : Option Instr :=
  if nbits ≤ 40 then (decode Config.hardware.n (tableWord nbits w)).toOption else none

end Sys2Proof
end

