-- ==== Sys2Proof/Machine/Operands.lean ====
section
/-! DEFINITION. The one operand form that names a register: the read-only register view of spec/10_state.md rule R41. Formats Z and V carry no register operand (spec/30_encoding.md rule R81). -/

namespace Sys2Proof.Machine

/-- `x[idx]`: the 32-bit value of the register view (spec/10_state.md rules R41, R42). A ring slot
outside the ring is a reserved index and raises `IllegalCommand(cmd)` (R43); decode finds it first
(spec/30_encoding.md rule R87; log 6). -/
def regView (reg : RegSel) (s : State) : Result Word :=
  match reg with
  | .status => .next s.statusWord
  | .target => .next s.targetRate
  | .measured => .next s.measuredRate
  | .elapsed => .next s.elapsedTicks
  | .duty => .next s.duty
  | .output => .next s.output
  | .errsum => .next s.errorSum
  | .lastmed => .next s.lastMedian
  | .writepos => .next (s.writePos.setWidth 32)
  | .rb i =>
    if i.toNat < s.cfg.n then memRead s.cfg.n s.rb i.toNat
    else raise (.illegalCommand (encode (.rd (.rb i))))

end Sys2Proof.Machine
end

