-- ==== Sys2Proof/Machine/HostAccess.lean ====
section
/-! DEFINITION. Host access: the commands NOP and RD (spec/44_host_access.md). -/

namespace Sys2Proof.Machine

/-- `NOP` (R196): no change; the record is `(false, none, none)`. -/
def execNop (s : State) : Result State := .next s.begin

/-- `RD idx` (R197): emit the value of the register view; no register changes. -/
def execRd (reg : RegSel) (s : State) : Result State :=
  andThen (regView reg s) fun v => .next (s.begin.emitRes v)

end Sys2Proof.Machine
end

