-- ==== Sys2Proof/Machine/MedianFilter.lean ====
section
/-! DEFINITION. Unit MF: the command FILT (spec/43_median_filter.md). -/

namespace Sys2Proof.Machine

/-- `sort_asc(s)`: the sequence in non-decreasing order as unsigned numbers (R182). The method is free
(R183). -/
def sortAsc (l : List Word) : List Word := l.insertionSort (· ≤ ·)

/-- The raw median of a ring of `n` slots: the element at index `udiv(n, 2)` of the sorted copy (R182).
The index is below `n`, since `n` is odd. -/
def rawMedian (n : Nat) (m : Memory) : Word := (sortAsc (m.slots n)).getD (n / 2) 0

/-- Insertion (R181): `RB[writePos] <- val`, then `writePos <- (writePos + 1) mod N`. -/
def insertSample (val : Word) (s : State) : Result State :=
  andThen (memWrite s.cfg.n s.rb s.writePos.toNat val) fun rb =>
  .next ((s.setRb rb).setWritePos (BitVec.ofNat 4 ((s.writePos.toNat + 1) % s.cfg.n)))

/-- Smoothing (R184): `t = 4 * lastMedian + rawMedian` must be a `u32`; the value is `udiv(t, 5)`. -/
def smooth (last median : Word) : Result Word :=
  andThen (checkU32 .smooth (4 * last.toNat + median.toNat)) fun t => .next (t / 5)

/-- `FILT val` (R180). -/
def execFilt (val : Word) (s : State) : Result State :=
  andThen (insertSample val s.begin) fun s1 =>
  andThen (smooth s1.lastMedian (rawMedian s1.cfg.n s1.rb)) fun smoothed =>
  .next ((s1.setLastMedian smoothed).emitRes smoothed)

end Sys2Proof.Machine
end

