-- ==== Sys2Proof/Machine/Dispatch.lean ====
section
/-! DEFINITION. One arm for each command of CORE-CMD (spec/30_encoding.md rule R86). -/

namespace Sys2Proof.Machine

/-- Execute one command (spec/20_memory.md rule R66: atomic, with all its effects). -/
def exec (i : Instr) (s : State) : Host.Outcome State Fault Refusal :=
  match i with
  | .nop => Sys2Proof.Machine.execNop s
  | .edge => Sys2Proof.Machine.execEdge s
  | .tick => Sys2Proof.Machine.execTick s
  | .settgt val => Sys2Proof.Machine.execSettgt val s
  | .filt val => Sys2Proof.Machine.execFilt val s
  | .rd reg => Sys2Proof.Machine.execRd reg s

end Sys2Proof.Machine
end

