-- ==== Sys2Proof/Machine/Step.lean ====
section
/-! DEFINITION. One step: take what the environment presents first, decode it and execute it (spec/10_state.md rules R23, R44; spec/20_memory.md rule R66). -/

namespace Sys2Proof.Machine

/-- One step. With nothing presented CORE holds its state (spec/60_exceptions.md rule R229). `rst`
gives the reset state (spec/70_reset_and_hazards.md rule R235). A command word is decoded, before any
state is read (spec/60_exceptions.md rule R206), and executed. -/
def step (s : State) : Host.Outcome State Fault Refusal :=
  match take s with
  | .idle => .next s
  | .reset s' => .next (rst s')
  | .command w s' =>
    match decode s'.cfg.n w with
    | .ok i => exec i s'
    | .error _ => raise (.illegalCommand w)

/-- `s` with the word of an opcode-table row presented before everything else, so that the next step
takes it. CORE has no program counter and stores no commands (spec/10_state.md rule R23; log 9). -/
def State.withFetchWord (s : State) (nbits w : Nat) : State := present (tableWord nbits w) s

end Sys2Proof.Machine
end

