-- ==== Sys2Proof/Machine/Assembler.lean ====
section
/-! DEFINITION. Programs as the spec writes them: what a program line presents to CORE, and the text of a line (spec/30_encoding.md rules R95 to R97; spec/41_pi_controller.md rule R138; log 5, log 18, log 19). No step of the machine uses this file. -/

namespace Sys2Proof.Machine

/-- What a `.cfg` directive states: a field of `cfg` (spec/00_scope.md rule R4) and its value (R96). -/
inductive CfgSetting where
  | w (v : Nat)
  | cw (v : Nat)
  | n (v : Nat)
  | minOut (v : Nat)
  | maxOut (v : Nat)
  | fRef (v : Nat)
  | kp (g : Word)
  | ki (g : Word)
  | fp (f : FpFormat)
  deriving DecidableEq, Repr

/-- A line of a program (R95, R96). -/
inductive Line where
  | blank
  | command (i : Instr)
  /-- `TICKS <n>`. -/
  | ticks (n : Nat)
  /-- `WINDOW <n>`. -/
  | window (n : Nat)
  /-- `.word <w>`: the word as it is, legal or reserved. -/
  | word (w : CmdWord)
  /-- `.reset`. -/
  | reset
  /-- `.cfg <field> = <value>`. -/
  | cfg (c : CfgSetting)
  deriving DecidableEq, Repr

/-- The input that presents a command. -/
def issue (i : Instr) : Input := .command (encode i)

/-- `n` consecutive `TICK` commands (R96). -/
def ticksInputs (n : Nat) : List Input := List.replicate n (issue .tick)

/-- What a line presents to CORE: the expansions of R96. -/
def Line.inputs : Line → List Input
  | .blank => []
  | .command i => [issue i]
  | .ticks n => ticksInputs n
  | .window n => issue .edge :: (ticksInputs n ++ [issue .edge])
  | .word w => [.command w]
  | .reset => [.reset]
  | .cfg _ => []

/-- The line presents a command, so that commands have begun (R96). DEDUCED (log 18): `.reset` and
`TICKS 0` present none and do not begin them. Unsafe for a claim about such a text, safe for every run. -/
def Line.begins (l : Line) : Bool := l.inputs.any (fun x => x != .reset)

/-- State a field of `cfg`. -/
def CfgSetting.set (c : CfgSetting) (p : Params) : Params :=
  match c with
  | .w v => { p with w := v }
  | .cw v => { p with cw := v }
  | .n v => { p with n := v }
  | .minOut v => { p with minOut := v }
  | .maxOut v => { p with maxOut := v }
  | .fRef v => { p with fRef := v }
  | .kp g => { p with kp := g }
  | .ki g => { p with ki := g }
  | .fp f => { p with fp := f }

/-- A program read so far: its configuration, whether commands have begun, and what it presents. -/
structure Program where
  params : Params
  begun : Bool
  inputs : List Input
  deriving DecidableEq, Repr

/-- Add a line. A `.cfg` directive has no effect once commands have begun (R96). DESIGN CHOICE (log 18):
of two directives that state the same field before that, where R96 does not say which holds, the later
one overwrites the earlier. Unsafe for a claim about such a text, safe for every run. -/
def Program.add (p : Program) (l : Line) : Program where
  params :=
    match l with
    | .cfg c => if p.begun then p.params else c.set p.params
    | _ => p.params
  begun := p.begun || l.begins
  inputs := p.inputs ++ l.inputs

/-- The program of no line, over a configuration whose fields no directive has stated. -/
def Program.start (params : Params) : Program := { params := params, begun := false, inputs := [] }

/-- The configuration that a program states, if it is well formed: a model refuses any other
(spec/00_scope.md rule R5). -/
def Program.config (p : Program) : Option Config :=
  if h : p.params.wf = true then some { p.params with ok := h } else none

/-- The state in which a program starts: the reset state of a CORE with its configuration, the
program presented (R95: from its first line to its last, once). -/
def launch (cfg : Config) (inputs : List Input) : State :=
  { State.reset with cfg := cfg, inputs := inputs }

/-- The state in which a program with a well-formed configuration starts. -/
def Program.load (p : Program) : Option State :=
  p.config.map fun cfg => launch cfg p.inputs

/-! ## The text of a line -/

/-- The value of a digit below `base`. -/
def digit (base : Nat) (c : Char) : Option Nat :=
  let v :=
    if '0'.toNat ≤ c.toNat ∧ c.toNat ≤ '9'.toNat then c.toNat - '0'.toNat
    else if 'A'.toNat ≤ c.toNat ∧ c.toNat ≤ 'F'.toNat then c.toNat - 'A'.toNat + 10
    else if 'a'.toNat ≤ c.toNat ∧ c.toNat ≤ 'f'.toNat then c.toNat - 'a'.toNat + 10
    else base
  if v < base then some v else none

/-- The digits that are left, after a number `acc`. -/
def digits (base : Nat) : List Char → Nat → Option Nat
  | [], acc => some acc
  | c :: cs, acc => (digit base c).bind fun v => digits base cs (acc * base + v)

/-- A number: decimal, or hexadecimal after `0x` (R95). -/
def number (t : List Char) : Option Nat :=
  match t with
  | [] => none
  | '0' :: 'x' :: c :: cs => digits 16 (c :: cs) 0
  | cs => digits 10 cs 0

/-- A number below `2^bits`. -/
def numberWithin (bits : Nat) (t : List Char) : Option Nat :=
  (number t).bind fun v => if v < 2 ^ bits then some v else none

/-- Split at spaces and tabs; `cur` is the token being read, last character first. -/
def tokens : List Char → List Char → List (List Char)
  | [], cur => if cur.isEmpty then [] else [cur.reverse]
  | c :: cs, cur =>
    if c = ' ' ∨ c = '\t' then
      if cur.isEmpty then tokens cs [] else cur.reverse :: tokens cs []
    else tokens cs (c :: cur)

/-- The names of R97, but for the ring slots. -/
def registerNames : List (List Char × RegSel) :=
  [ (['S', 'T', 'A', 'T', 'U', 'S'], .status),
    (['T', 'A', 'R', 'G', 'E', 'T'], .target),
    (['M', 'E', 'A', 'S', 'U', 'R', 'E', 'D'], .measured),
    (['E', 'L', 'A', 'P', 'S', 'E', 'D'], .elapsed),
    (['D', 'U', 'T', 'Y'], .duty),
    (['O', 'U', 'T', 'P', 'U', 'T'], .output),
    (['E', 'R', 'R', 'S', 'U', 'M'], .errsum),
    (['L', 'A', 'S', 'T', 'M', 'E', 'D'], .lastmed),
    (['W', 'R', 'I', 'T', 'E', 'P', 'O', 'S'], .writepos) ]

/-- The operand of `RD` in a CORE of `n` ring slots: a name of R97, or a number in the legal index set
of R87 (R95). -/
def register (n : Nat) (t : List Char) : Option RegSel :=
  match registerNames.lookup t with
  | some r => some r
  | none =>
    match t with
    | 'R' :: 'B' :: c :: cs =>
      (digits 10 (c :: cs) 0).bind fun i =>
        if i < n ∧ (c ≠ '0' ∨ cs = []) then some (.rb (BitVec.ofNat 4 i)) else none
    | _ => (numberWithin 5 t).bind fun k => (decodeIndex n (BitVec.ofNat 5 k)).toOption

/-- The decimal number of the given sign that a text without the sign spells, rounded to binary32: digits,
or digits, a point and digits (log 5). -/
def unsignedDecimal (neg : Bool) (t : List Char) : Option Word :=
  let whole := t.takeWhile (· != '.')
  match whole, t.dropWhile (· != '.') with
  | [], _ => none
  | _, [] => (digits 10 whole 0).map fun k => Fp.ofDecimal neg k 0
  | _, [_] => none
  | _, _ :: frac => (digits 10 (whole ++ frac) 0).map fun k => Fp.ofDecimal neg k frac.length

/-- The pattern of a gain: written in hexadecimal it is the pattern itself (spec/30_encoding.md rule
R96), and written in decimal it is rounded to binary32 (spec/41_pi_controller.md rule R138). -/
def gain (t : List Char) : Option Word :=
  match t with
  | '0' :: 'x' :: cs => (numberWithin 32 ('0' :: 'x' :: cs)).map (BitVec.ofNat 32)
  | '-' :: cs => unsignedDecimal true cs
  | cs => unsignedDecimal false cs

/-- The name of a floating-point format (log 5). -/
def fpFormat (t : List Char) : Option FpFormat :=
  if t = ['b', 'i', 'n', 'a', 'r', 'y', '3', '2'] then some .binary32 else none

/-- How the value of each field of `cfg` is read, by the names of spec/00_scope.md rule R4. -/
def cfgFields : List (List Char × (List Char → Option CfgSetting)) :=
  [ (['W'], fun t => (numberWithin 32 t).map .w),
    (['C', 'W'], fun t => (numberWithin 32 t).map .cw),
    (['N'], fun t => (numberWithin 32 t).map .n),
    (['M', 'I', 'N', '_', 'O', 'U', 'T'], fun t => (numberWithin 32 t).map .minOut),
    (['M', 'A', 'X', '_', 'O', 'U', 'T'], fun t => (numberWithin 32 t).map .maxOut),
    (['F', '_', 'R', 'E', 'F'], fun t => (numberWithin 32 t).map .fRef),
    (['K', 'P'], fun t => (gain t).map .kp),
    (['K', 'I'], fun t => (gain t).map .ki),
    (['F', 'P'], fun t => (fpFormat t).map .fp) ]

/-- What a `.cfg` directive for the field named `f` states with the value `t`. -/
def cfgSetting (f t : List Char) : Option CfgSetting := (cfgFields.lookup f).bind fun read => read t

/-- A line of no operand. -/
def parseBare (m : List Char) : Option Line :=
  [ (['N', 'O', 'P'], Line.command .nop),
    (['E', 'D', 'G', 'E'], .command .edge),
    (['T', 'I', 'C', 'K'], .command .tick),
    (['.', 'r', 'e', 's', 'e', 't'], .reset) ].lookup m

/-- A line of one operand. -/
def parseUnary (n : Nat) (m t : List Char) : Option Line :=
  if m = ['S', 'E', 'T', 'T', 'G', 'T'] then
    (numberWithin 32 t).map fun v => .command (.settgt (BitVec.ofNat 32 v))
  else if m = ['F', 'I', 'L', 'T'] then
    (numberWithin 32 t).map fun v => .command (.filt (BitVec.ofNat 32 v))
  else if m = ['R', 'D'] then (register n t).map fun r => .command (.rd r)
  else if m = ['T', 'I', 'C', 'K', 'S'] then (number t).map .ticks
  else if m = ['W', 'I', 'N', 'D', 'O', 'W'] then (number t).map .window
  else if m = ['.', 'w', 'o', 'r', 'd'] then
    (numberWithin 40 t).map fun w => .word (BitVec.ofNat 40 w)
  else none

/-- The line that a sequence of tokens stands for, in a CORE of `n` ring slots. -/
def parseTokens (n : Nat) (ts : List (List Char)) : Option Line :=
  match ts with
  | [] => some .blank
  | [m] => parseBare m
  | [m, t] => parseUnary n m t
  | [m, f, e, v] =>
    if m = ['.', 'c', 'f', 'g'] ∧ e = ['='] then
      (cfgSetting f v).map .cfg
    else none
  | _ => none

/-- The line that a text stands for, in a CORE of `n` ring slots; a `;` starts a comment (R95). -/
def parseLine (n : Nat) (text : List Char) : Option Line :=
  parseTokens n (tokens (text.takeWhile (· != ';')) [])

/-- Read the lines of a program one after another; nothing if a line is none of R95 or R96. -/
def parseProgram : Program → List (List Char) → Option Program
  | p, [] => some p
  | p, l :: ls => (parseLine p.params.n l).bind fun x => parseProgram (p.add x) ls

/-- The state in which the program of a text starts, where `params` are the fields of `cfg` that the text
does not state (log 19): nothing if a line is none of R95 or R96, or `cfg` is not well formed. -/
def loadText (params : Params) (text : List (List Char)) : Option State :=
  (parseProgram (.start params) text).bind Program.load

end Sys2Proof.Machine
end

