-- ==== Sys2Proof/Safety.lean ====
section
/-! DEFINITION. The terms in which claims about CORE are made: command sequences, the invariants of spec/10_state.md rule R40, the faults of a closing edge in their order, and what it is to be the nearest binary32 value. -/

namespace Sys2Proof.Safety

open Sys2Proof.Machine

/-! ## Command sequences -/

/-- Execute commands one after another (spec/20_memory.md rule R66): the state they leave and the
output record of each, or where the first of them stops. The records are the observable behaviour of
the run (spec/10_state.md rule R45). -/
def runCommands : List Instr → State → Result (State × List OutRecord)
  | [], s => .next (s, [])
  | i :: is, s =>
    andThen (exec i s) fun s1 =>
    andThen (runCommands is s1) fun r => .next (r.1, s1.out :: r.2)

/-- The number of `EDGE` commands in a sequence. -/
def edges (is : List Instr) : Nat := is.count .edge

/-- The number of `TICK` commands in a sequence. -/
def ticks (is : List Instr) : Nat := is.count .tick

/-- The number of records with a `meas_ready` pulse. -/
def measurements (outs : List OutRecord) : Nat := outs.countP (fun o => o.measReady)

/-- The command is a `FILT`. -/
def isFilt : Instr → Bool
  | .filt _ => true
  | _ => false

/-! ## Reserved encodings -/

/-- The word is a reserved encoding, in the words of spec/30_encoding.md rule R92: a reserved opcode; `NOP`, `EDGE` or `TICK`
with a non-zero argument; `RD` with a bit above 4 or with a reserved index. -/
def IsReserved (n : Nat) (w : CmdWord) : Prop :=
  let op := w.toNat / 2 ^ 32
  let arg := w.toNat % 2 ^ 32
  0x06 ≤ op ∨ (op ≤ 0x02 ∧ arg ≠ 0) ∨ (op = 0x05 ∧ arg / 32 ≠ 0) ∨
    (op = 0x05 ∧ ((0x09 ≤ arg % 32 ∧ arg % 32 ≤ 0x0F) ∨ 0x10 + n ≤ arg % 32))

/-! ## The two halves of the state -/

/-- The state of unit MF is the same (spec/10_state.md rule R20). -/
def SameFilter (s t : State) : Prop :=
  s.rb = t.rb ∧ s.writePos = t.writePos ∧ s.lastMedian = t.lastMedian

/-- The state of units ET and PI is the same (spec/10_state.md rule R20). -/
def SameLoop (s t : State) : Prop :=
  s.running = t.running ∧ s.cnt = t.cnt ∧ s.cntOvf = t.cntOvf ∧ s.elapsedTicks = t.elapsedTicks ∧
  s.targetRate = t.targetRate ∧ s.measuredRate = t.measuredRate ∧ s.errorSum = t.errorSum ∧
  s.output = t.output ∧ s.duty = t.duty

/-! ## The invariants of R40 -/

/-- R40 (d): what holds before the first closing edge since reset. -/
structure Pristine (s : State) : Prop where
  output : s.output = 0x00000000
  duty : s.duty = 0
  errorSum : s.errorSum = 0
  measuredRate : s.measuredRate = 0
  elapsedTicks : s.elapsedTicks = 0

/-- The pattern `a` is finite and `lo <= a <= hi` (`Fp.value` is in units of `2^-149`). -/
def OutputWithin (lo hi : Nat) (a : Word) : Prop :=
  Fp.isFinite a = true ∧ (lo : Int) * 2 ^ 149 ≤ Fp.value a ∧ Fp.value a ≤ (hi : Int) * 2 ^ 149

/-- R40 (c): what holds after at least one closing edge since reset. -/
structure Controlled (s : State) : Prop where
  output : OutputWithin s.cfg.minOut s.cfg.maxOut s.output
  duty : Fp.f2uTrunc s.output = some s.duty
  dutyLower : s.cfg.minOut ≤ s.duty.toNat
  dutyUpper : s.duty.toNat ≤ s.cfg.maxOut

/-- The invariants of every reachable state (R40), and the canonical form of the ring memory. -/
structure Inv (s : State) : Prop where
  /-- The ring memory is in canonical form. -/
  canonical : s.rb.wf = true
  /-- Every listed slot is one of the ring. -/
  slots : s.rb.within s.cfg.n = true
  /-- (a). -/
  stopped : s.running = false → s.cnt = 0 ∧ s.cntOvf = false
  /-- (b). -/
  position : s.writePos.toNat < s.cfg.n
  /-- (c) or (d). -/
  controller : Pristine s ∨ Controlled s
  /-- (e). -/
  counter : s.cnt.toNat < 2 ^ s.cfg.cw

/-! ## The closing edge -/

/-- `error` of a closing edge, as an integer: the target less the rate `m` (spec/41_pi_controller.md
rule R141). -/
def closingError (s : State) (m : Nat) : Int := (s.targetRate.toNat : Int) - (m : Int)

/-- `sum1` of a closing edge, as an integer. -/
def closingSum (s : State) (m : Nat) : Int := s.errorSum.toInt + closingError s m

/-- The rate that a closing edge computes from a count `c`, as an integer
(spec/42_fan_control_loop.md rule R163). -/
def closingRate (cfg : Config) (c : Nat) : Nat := cfg.fRef / (c * 2) * 60

/-- The raw output of a closing edge (R141, R165). -/
def closingRaw (s : State) : Word :=
  rawOutput s.cfg (BitVec.ofInt 32 (closingError s (closingRate s.cfg s.cnt.toNat)))
    (BitVec.ofInt 32 (closingSum s (closingRate s.cfg s.cnt.toNat))) (period s.cfg s.cnt)

/-- The integer fits an `s32` (spec/00_scope.md rule R7). -/
abbrev FitsS32 (k : Int) : Prop := -2 ^ 31 ≤ k ∧ k < 2 ^ 31

/-- The conditions on which a closing edge completes: none of its faults but the unreachable `FpInvalid`
applies (spec/42_fan_control_loop.md rule R161; spec/60_exceptions.md rule R213). -/
abbrev ClosingFits (s : State) : Prop :=
  s.cntOvf = false ∧ s.cnt ≠ 0 ∧ s.cnt.toNat * 2 < 2 ^ 32 ∧
  closingRate s.cfg s.cnt.toNat < 2 ^ 32 ∧
  FitsS32 (closingError s (closingRate s.cfg s.cnt.toNat)) ∧
  FitsS32 (closingSum s (closingRate s.cfg s.cnt.toNat))

/-- The output of a closing edge: the raw output, or the bound it lies beyond (R143). -/
def closingOutput (s : State) : Word :=
  if Fp.fgt (closingRaw s) (Fp.fOfInt s.cfg.maxOut) then Fp.fOfInt s.cfg.maxOut
  else if Fp.flt (closingRaw s) (Fp.fOfInt s.cfg.minOut) then Fp.fOfInt s.cfg.minOut
  else closingRaw s

/-- The `errorSum` that a closing edge leaves: the accumulated one, or the old one after a clamp
(R143, R144). -/
def closingErrorSum (s : State) : Word :=
  if clamps s.cfg (closingRaw s) then s.errorSum
  else BitVec.ofInt 32 (closingSum s (closingRate s.cfg s.cnt.toNat))

/-- The first fault of a closing edge that applies, in the order of spec/60_exceptions.md rule R213. -/
def firstFault (s : State) : Option Fault :=
  if s.cntOvf then some .counterWrap
  else if s.cnt = 0 then some .divideByZero
  else if ¬ s.cnt.toNat * 2 < 2 ^ 32 then some (.arithOverflow .ticksTwice)
  else if ¬ closingRate s.cfg s.cnt.toNat < 2 ^ 32 then some (.arithOverflow .rate)
  else if ¬ FitsS32 (closingError s (closingRate s.cfg s.cnt.toNat)) then
    some (.arithOverflow .error)
  else if ¬ FitsS32 (closingSum s (closingRate s.cfg s.cnt.toNat)) then
    some (.arithOverflow .errorSum)
  else if Fp.isNan (closingRaw s) then some .fpInvalid
  else none

/-! ## Rounding -/

/-- `r` is the binary32 value nearest to the real number `num / den` (both in units of `2^-149`), ties
to the value whose fraction's last bit is 0 (spec/41_pi_controller.md rule R132): no finite value is
nearer, and where another is as near the fraction of `r` is even. An infinity stands for the real numbers
at or beyond the midpoint between the largest finite value and `2^128`, and for no other (R135). -/
def IsNearest (r : Word) (num : Int) (den : Nat) : Prop :=
  (Fp.isFinite r = true ∧ |num| < (den : Int) * (2 ^ 277 - 2 ^ 252) ∧
    ∀ x : Word, Fp.isFinite x = true →
    |num - den * Fp.value r| ≤ |num - den * Fp.value x| ∧
    (|num - den * Fp.value r| = |num - den * Fp.value x| →
      Fp.value x = Fp.value r ∨ Fp.fracField r % 2 = 0)) ∨
  (Fp.isInf r = true ∧ (Fp.sign r = true ↔ num < 0) ∧ (den : Int) * (2 ^ 277 - 2 ^ 252) ≤ |num|)

end Sys2Proof.Safety
end

