-- ==== Sys2Proof/Certificates/Slice0/Obligations.lean ====
section
/-! DEFINITION. The statements about CORE that the provers settle. Each says which rule of spec/ it formalises; what rests on a choice of the model names its log entry. -/

open Sys2Proof Sys2Proof.Machine Sys2Proof.Safety

/-! ## Encoding (spec/30_encoding.md) -/

/-- Words written out from the encoding tables (spec/95_test_vectors.md V-ENC) decode to the commands
they stand for, one of each row, and one word of each kind of reserved encoding is refused. -/
def Obligations.SpecWordsDecode : Prop :=
  decode 9 0x0000000000 = .ok .nop ∧
  decode 9 0x0100000000 = .ok .edge ∧
  decode 9 0x0200000000 = .ok .tick ∧
  decode 9 0x0300000DAC = .ok (.settgt 3500) ∧
  decode 9 0x0400000064 = .ok (.filt 100) ∧
  decode 9 0x0500000000 = .ok (.rd .status) ∧
  decode 9 0x0500000008 = .ok (.rd .writepos) ∧
  decode 9 0x0500000018 = .ok (.rd (.rb 8)) ∧
  decode 9 0x0280000000 = .error .argument ∧
  decode 9 0x0500000020 = .error .upperBits ∧
  decode 9 0x0500000019 = .error .index ∧
  decode 9 0x0600000000 = .error .opcode

/-- Decoding the word of a well-formed command gives that command back, in a CORE of any number of
ring slots: no bit of an encoding is dropped (R80 to R85). -/
def Obligations.DecodeOfEncode : Prop :=
  ∀ (n : Nat) (i : Instr), i.wellFormed n = true → decode n (encode i) = .ok i

/-- A word that decodes to a command is the word of that command, and the command is well formed: no
two commands share a word and no command has two words (R87). -/
def Obligations.EncodeOfDecode : Prop :=
  ∀ (n : Nat) (w : CmdWord) (i : Instr), decode n w = .ok i → encode i = w ∧ i.wellFormed n = true

/-- R88: a word is the command of a row when `(w AND mask) = match` and, for `RD`, the index condition
of R87 step 5 holds; the value of `SETTGT` and `FILT` and the index of `RD` are the bits that the
row's pattern marks. -/
def Obligations.MatchAndMaskSelectTheRow : Prop :=
  ∀ (n : Nat) (w : CmdWord),
    (decode n w = .ok .nop ↔ w &&& 0xFFFFFFFFFF = 0x0000000000) ∧
    (decode n w = .ok .edge ↔ w &&& 0xFFFFFFFFFF = 0x0100000000) ∧
    (decode n w = .ok .tick ↔ w &&& 0xFFFFFFFFFF = 0x0200000000) ∧
    (∀ val, decode n w = .ok (.settgt val) ↔
      w &&& 0xFF00000000 = 0x0300000000 ∧ val = w.extractLsb' 0 32) ∧
    (∀ val, decode n w = .ok (.filt val) ↔
      w &&& 0xFF00000000 = 0x0400000000 ∧ val = w.extractLsb' 0 32) ∧
    ((∃ reg, decode n w = .ok (.rd reg)) ↔
      w &&& 0xFFFFFFFFE0 = 0x0500000000 ∧
        (w.toNat % 32 ≤ 0x08 ∨ (0x10 ≤ w.toNat % 32 ∧ w.toNat % 32 < 0x10 + n))) ∧
    ∀ reg, decode n w = .ok (.rd reg) → reg.index = w.extractLsb' 0 5

/-- R92: executing a reserved encoding raises `IllegalCommand(cmd)`, from any state; every other word
decodes to a command. -/
def Obligations.ReservedWordsRaiseIllegalCommand : Prop :=
  ∀ (s : State) (w : CmdWord) (rest : List Input), s.inputs = .command w :: rest →
    (IsReserved s.cfg.n w → step s = .fault (.illegalCommand w)) ∧
    (¬ IsReserved s.cfg.n w → ∃ i, decode s.cfg.n w = .ok i)

/-- R97: the names that `RD` accepts stand for the indices of the register map; in a CORE of `n` ring
slots `RB<i>` is `0x10 + i` for `i < n`, and no name for another `i`. -/
def Obligations.RegisterNamesAndIndices : Prop :=
  (∀ e ∈ [("STATUS", 0x00), ("TARGET", 0x01), ("MEASURED", 0x02), ("ELAPSED", 0x03), ("DUTY", 0x04),
      ("OUTPUT", 0x05), ("ERRSUM", 0x06), ("LASTMED", 0x07), ("WRITEPOS", 0x08), ("RB0", 0x10),
      ("RB1", 0x11), ("RB2", 0x12), ("RB3", 0x13), ("RB4", 0x14), ("RB5", 0x15), ("RB6", 0x16),
      ("RB7", 0x17), ("RB8", 0x18)],
    (register 9 e.1.toList).map (fun r => r.index.toNat) = some e.2) ∧
  ∀ n i : Nat, n ≤ 15 →
    (register n ('R' :: 'B' :: Nat.toDigits 10 i)).map (fun r => r.index.toNat) =
      if i < n then some (0x10 + i) else none

/-! ## Steps, ports and reset (spec/10_state.md, spec/20_memory.md, spec/70_reset_and_hazards.md) -/

/-- A step takes the word presented first and runs the command it decodes to, on the state from which
that word is taken. -/
def Obligations.StepRunsTheDecodedCommand : Prop :=
  ∀ (s : State) (w : CmdWord) (rest : List Input) (i : Instr),
    s.inputs = .command w :: rest → decode s.cfg.n w = .ok i →
    step s = exec i { s with inputs := rest }

/-- Presenting the word of a well-formed command makes the next step run that command: the step is
`exec` of it. (How a program comes to run is the model's choice, log 9.) -/
def Obligations.PresentedCommandRuns : Prop :=
  ∀ (i : Instr) (s : State), i.wellFormed s.cfg.n = true →
    step (s.withFetchWord 40 (encode i).toNat) = exec i s

/-- With nothing presented CORE holds its state (spec/60_exceptions.md, "Between commands it simply
holds its state"; that a step without a command exists is the model's choice, log 9). -/
def Obligations.NothingPresentedHoldsTheState : Prop :=
  ∀ s : State, s.inputs = [] → step s = .next s

/-- `rst` gives every piece of state its reset value, whatever it held before, leaves `cfg` alone and
emits nothing; what is presented after it stays presented (log 10). -/
def Obligations.ResetInputGivesTheResetState : Prop :=
  ∀ (s : State) (rest : List Input), s.inputs = .reset :: rest →
    step s = .next (launch s.cfg rest)

/-- R47: the reset value of every piece of state, for every configuration. -/
def Obligations.ResetValues : Prop :=
  ∀ s : State, (s = State.reset ∨ ∃ cfg inputs, s = launch cfg inputs) →
    s.running = false ∧ s.cnt = 0 ∧ s.cntOvf = false ∧ s.elapsedTicks = 0 ∧ s.targetRate = 0 ∧
    s.measuredRate = 0 ∧ s.errorSum = 0 ∧ s.output = 0x00000000 ∧ s.duty = 0 ∧
    (∀ i, s.rb.read i = 0) ∧ s.writePos = 0 ∧ s.lastMedian = 0 ∧
    s.out = ⟨false, none, none⟩

/-- No step changes the configuration, and a step takes at most what is presented first (R4, "no
command writes them, and reset does not change them"). -/
def Obligations.StepKeepsTheConfiguration : Prop :=
  ∀ s t : State, step s = .next t → t.cfg = s.cfg ∧ t.inputs = s.inputs.tail

/-! ## NOP, TICK, SETTGT -/

/-- R196: from any state `NOP` changes nothing; its record is `(false, none, none)`. Its word is
`0x0000000000`, and `op = 0x00` with a non-zero `arg` is reserved. -/
def Obligations.NopChangesNothing : Prop :=
  ∀ s : State, exec .nop s = .next { s with out := ⟨false, none, none⟩ } ∧
    decode s.cfg.n 0x0000000000 = .ok .nop ∧
    ∀ arg : Word, arg ≠ 0 → decode s.cfg.n (0x00#8 ++ arg) = .error .argument

/-- R113: `TICK`, the word `0x0200000000`, advances the tick counter by one while a window is open,
wrapping at `2^CW - 1` and setting `cnt_ovf`; with no window open it changes nothing. It never faults. -/
def Obligations.TickAdvancesTheCounter : Prop :=
  ∀ s : State, decode s.cfg.n 0x0200000000 = .ok .tick ∧ exec .tick s = .next
    (if s.running = true then
      if s.cnt.toNat = 2 ^ s.cfg.cw - 1 then
        { s with cnt := 0, cntOvf := true, out := ⟨false, none, none⟩ }
      else { s with cnt := s.cnt + 1, out := ⟨false, none, none⟩ }
    else { s with out := ⟨false, none, none⟩ })

/-- `k` ticks after an opening edge leave the counter at `k mod 2^CW`, and `cnt_ovf` set exactly if it
has wrapped, any number of times (R25, R113): none of them faults. -/
def Obligations.TicksCountModuloTheWidth : Prop :=
  ∀ (s : State) (k : Nat), s.running = true → s.cnt = 0 → s.cntOvf = false →
    ∃ t, runCommands (List.replicate k .tick) s = .next (t, List.replicate k ⟨false, none, none⟩) ∧
      t.cnt.toNat = k % 2 ^ s.cfg.cw ∧ (t.cntOvf = true ↔ 2 ^ s.cfg.cw ≤ k)

/-- R171: `SETTGT val`, the byte `0x03` and the eight digits of `val`, sets the target rate, to any
32-bit value, and changes nothing else. A `val` of `2^31` or more makes the error of the next closing
edge no `s32`, unless the measured rate is large too. -/
def Obligations.SettgtSetsTheTarget : Prop :=
  ∀ (s : State) (val : Word),
    decode s.cfg.n (0x03#8 ++ val) = .ok (.settgt val) ∧
    exec (.settgt val) s = .next { s with targetRate := val, out := ⟨false, none, none⟩ } ∧
    ∀ m : Nat, m + 2 ^ 31 ≤ val.toNat → ¬ FitsS32 (closingError { s with targetRate := val } m)

/-! ## EDGE (spec/40_edge_timer.md, spec/42_fan_control_loop.md) -/

/-- R115: an `EDGE` with `running = 0` sets the counter to zero and opens a window. It emits nothing
and raises no fault. -/
def Obligations.OpeningEdgeStartsTheWindow : Prop :=
  ∀ s : State, s.running = false →
    exec .edge s = .next { s with cnt := 0, running := true, out := ⟨false, none, none⟩ }

/-- A closing edge completes exactly when no fault of R161's list applies, and then: the count is
captured, the counter stopped at zero, the rate, the clamped output, the accumulator and the duty are
those of R163, R141, R143 and R167, and `meas_ready` and `pwm` are emitted. -/
def Obligations.ClosingEdgeResult : Prop :=
  ∀ s : State, s.running = true →
    (ClosingFits s → ∃ d : Word, Fp.f2uTrunc (closingOutput s) = some d ∧
      exec .edge s = .next
        { s with
          running := false
          cnt := 0
          elapsedTicks := s.cnt
          measuredRate := BitVec.ofNat 32 (closingRate s.cfg s.cnt.toNat)
          output := closingOutput s
          errorSum := closingErrorSum s
          duty := d
          out := ⟨true, some d, none⟩ }) ∧
    ∀ t, exec .edge s = .next t → ClosingFits s

/-- R213: of the faults of a command the first in the order of evaluation is raised. `IllegalCommand`
comes before everything; a closing edge raises the first of its seven that applies, and completes if
none does. -/
def Obligations.FaultPriority : Prop :=
  (∀ (s : State) (w : CmdWord) (rest : List Input), s.inputs = .command w :: rest →
    IsReserved s.cfg.n w → step s = .fault (.illegalCommand w)) ∧
  ∀ s : State, s.running = true →
    (∀ f, firstFault s = some f → exec .edge s = .fault f) ∧
    (firstFault s = none → ∃ t, exec .edge s = .next t)

/-- R163: the rate formula, with its truncating division before the multiplication, and its three
faults. The rate is a multiple of 60, up to 59 below the rate with the multiplication first, and 0 if
`2 t > F_REF`. -/
def Obligations.RateFormula : Prop :=
  ∀ (cfg : Config) (t : Word),
    (t = 0 → rate cfg t = .fault .divideByZero) ∧
    (t ≠ 0 → 2 ^ 32 ≤ t.toNat * 2 → rate cfg t = .fault (.arithOverflow .ticksTwice)) ∧
    (t ≠ 0 → t.toNat * 2 < 2 ^ 32 → 2 ^ 32 ≤ cfg.fRef / (t.toNat * 2) * 60 →
      rate cfg t = .fault (.arithOverflow .rate)) ∧
    (t ≠ 0 → t.toNat * 2 < 2 ^ 32 → cfg.fRef / (t.toNat * 2) * 60 < 2 ^ 32 →
      rate cfg t = .next (BitVec.ofNat 32 (cfg.fRef / (t.toNat * 2) * 60))) ∧
    (∀ m, rate cfg t = .next m →
      m.toNat % 60 = 0 ∧ (cfg.fRef < t.toNat * 2 → m = 0) ∧
      m.toNat ≤ 60 * cfg.fRef / (t.toNat * 2) ∧ 60 * cfg.fRef / (t.toNat * 2) ≤ m.toNat + 59) ∧
    (cfg.fRef = 10000 → rate cfg 130 = .next 2280) ∧
    (rate cfg t = .fault (.arithOverflow .ticksTwice) ↔ 2 ^ 31 ≤ t.toNat) ∧
    (rate cfg t = .fault (.arithOverflow .rate) →
      71582789 ≤ cfg.fRef / (t.toNat * 2) ∧ 143165578 ≤ cfg.fRef)

/-- R164: with a reference frequency of 10000 and 100 elapsed ticks the measured rate is 3000. -/
def Obligations.RateWorkedValue : Prop :=
  ∀ cfg : Config, cfg.fRef = 10000 → rate cfg 100 = .next 3000

/-- The sampling period is the interval divided by the reference frequency, each converted to binary32
first, and is finite and positive, at least `2^-32` and at most `2^32`, for every interval
that is not 0 (R165): it meets the precondition of `pi_update` (R140). -/
def Obligations.SamplingPeriodBounds : Prop :=
  ∀ (cfg : Config) (t : Word), t ≠ 0 →
    period cfg t = Fp.fdiv (Fp.u2f t) (Fp.u2f (BitVec.ofNat 32 cfg.fRef)) ∧
    Fp.isFinite (period cfg t) = true ∧ 2 ^ 117 ≤ Fp.value (period cfg t) ∧
      Fp.value (period cfg t) ≤ 2 ^ 181

/-- Over a whole window, from an opening to a closing edge with any other commands between, the value
captured is the number of `TICK` commands since the opening edge, and there were fewer than `2^CW` of
them (R116); with `2^CW` or more the closing edge raises `CounterWrap`. -/
def Obligations.WindowMeasuresItsTicks : Prop :=
  ∀ (s s1 : State) (is : List Instr) (outs : List OutRecord),
    s.running = false → s.cntOvf = false → Instr.edge ∉ is →
    runCommands (.edge :: is) s = .next (s1, outs) →
    (∀ t, exec .edge s1 = .next t →
      t.elapsedTicks.toNat = ticks is ∧ ticks is < 2 ^ s.cfg.cw) ∧
    (2 ^ s.cfg.cw ≤ ticks is → exec .edge s1 = .fault .counterWrap)

/-- R117: starting with no window open, a sequence with `k` edges that does not fault emits `meas_ready`
exactly `floor(k / 2)` times and leaves `running = k mod 2`. (Of every prefix too, so on the 2nd, 4th,
... edge.) -/
def Obligations.PairingOfEdges : Prop :=
  ∀ (is : List Instr) (s t : State) (outs : List OutRecord),
    s.running = false → runCommands is s = .next (t, outs) →
    measurements outs = edges is / 2 ∧ (t.running = true ↔ edges is % 2 = 1) ∧
    ∀ j, measurements (outs.take j) = edges (is.take j) / 2

/-- The sequencer has two transitions, both taken by `EDGE` and by nothing else (R160). -/
def Obligations.OnlyEdgeMovesTheSequencer : Prop :=
  ∀ (i : Instr) (s t : State), exec i s = .next t →
    (i = .edge → t.seqState = if s.seqState = .idle then .timing else .idle) ∧
    (i ≠ .edge → t.seqState = s.seqState)

/-- The stalled fan (R173): with no `EDGE` CORE stays where it is in the sequence, the measurement, the
accumulator, the output and the duty keep their last values and the sink is not written; and ticks,
targets, legal reads and `NOP` never fault, however many there are. -/
def Obligations.StalledFanHoldsItsState : Prop :=
  (∀ (is : List Instr) (s t : State) (outs : List OutRecord),
    Instr.edge ∉ is → runCommands is s = .next (t, outs) →
    t.running = s.running ∧ t.measuredRate = s.measuredRate ∧ t.elapsedTicks = s.elapsedTicks ∧
    t.errorSum = s.errorSum ∧ t.output = s.output ∧ t.duty = s.duty ∧
    ∀ o ∈ outs, o.measReady = false ∧ o.pwm = none) ∧
  ∀ (is : List Instr) (s : State),
    (∀ i ∈ is, i.wellFormed s.cfg.n = true ∧ i ≠ .edge ∧ isFilt i = false) →
    ∃ r, runCommands is s = .next r

/-! ## The controller (spec/41_pi_controller.md) -/

/-- R143: the clamp is strict at both bounds, so that a raw value equal to a bound is not clamped; the
two branches cannot both apply; a clamped call takes its error back out of the accumulator, which is
then the one before the call. -/
def Obligations.ClampAndRollback : Prop :=
  ∀ (error sum1 raw old : Word) (s : State), sum1.toInt = old.toInt + error.toInt →
    let t := clampWriteBack error sum1 raw s
    (Fp.fgt raw (Fp.fOfInt s.cfg.maxOut) = true →
      t = { s with output := Fp.fOfInt s.cfg.maxOut, errorSum := old }) ∧
    (Fp.fgt raw (Fp.fOfInt s.cfg.maxOut) = false → Fp.flt raw (Fp.fOfInt s.cfg.minOut) = true →
      t = { s with output := Fp.fOfInt s.cfg.minOut, errorSum := old }) ∧
    (Fp.fgt raw (Fp.fOfInt s.cfg.maxOut) = false → Fp.flt raw (Fp.fOfInt s.cfg.minOut) = false →
      t = { s with output := raw, errorSum := sum1 }) ∧
    (Fp.fgt raw (Fp.fOfInt s.cfg.maxOut) = true → Fp.flt raw (Fp.fOfInt s.cfg.minOut) = false) ∧
    (raw = Fp.fOfInt s.cfg.maxOut ∨ raw = Fp.fOfInt s.cfg.minOut →
      t = { s with output := raw, errorSum := sum1 })

/-- R144: after `pi_update` the output is finite and within the bounds; a call that clamped left
`errorSum` as it was, one that did not added its error. The error, the sum and the raw output are those
of R141: `raw = fadd(fmul(KP, i2f(error)), fmul(fmul(KI, i2f(sum1)), Ta))`. -/
def Obligations.ControllerGuarantees : Prop :=
  ∀ (ta : Word) (s t : State), piUpdate ta s = .next t →
    OutputWithin s.cfg.minOut s.cfg.maxOut t.output ∧
    ∃ error sum1 : Word, error.toInt = (s.targetRate.toNat : Int) - s.measuredRate.toNat ∧
      sum1.toInt = s.errorSum.toInt + error.toInt ∧
      let raw := Fp.fadd (Fp.fmul s.cfg.kp (Fp.i2f error))
        (Fp.fmul (Fp.fmul s.cfg.ki (Fp.i2f sum1)) ta)
      (clamps s.cfg raw = true → t.errorSum = s.errorSum) ∧
      (clamps s.cfg raw = false →
        t.errorSum.toInt = s.errorSum.toInt + error.toInt ∧ t.output = raw)

/-- R146: under a well-formed configuration no floating-point exception is reachable. For every error,
sum and period with `0 <= Ta <= 2^32` the operands are within their bounds, the products at most `2^95`
and their sum, the raw output, at most `2^96` in magnitude, all finite; so no command raises
`FpInvalid`, from any state. (`Fp.value` is in units of `2^-149`: `2^95` is `2^244` of them.) -/
def Obligations.NoFloatingPointException : Prop :=
  (∀ (cfg : Config) (error sum1 ta : Word), Fp.isFinite ta = true → 0 ≤ Fp.value ta →
    Fp.value ta ≤ 2 ^ 181 →
    Fp.isFinite (Fp.i2f error) = true ∧ |Fp.value (Fp.i2f error)| ≤ 2 ^ 180 ∧
    Fp.isFinite (Fp.i2f sum1) = true ∧ |Fp.value (Fp.i2f sum1)| ≤ 2 ^ 180 ∧
    Fp.isFinite cfg.kp = true ∧ |Fp.value cfg.kp| ≤ 2 ^ 213 ∧
    Fp.isFinite cfg.ki = true ∧ |Fp.value cfg.ki| ≤ 2 ^ 181 ∧
    let p := Fp.fmul cfg.kp (Fp.i2f error)
    let r := Fp.fmul cfg.ki (Fp.i2f sum1)
    let q := Fp.fmul r ta
    let raw := Fp.fadd p q
    rawOutput cfg error sum1 ta = raw ∧
    Fp.isFinite p = true ∧ |Fp.value p| ≤ 2 ^ 244 ∧
    Fp.isFinite r = true ∧ |Fp.value r| ≤ 2 ^ 212 ∧
    Fp.isFinite q = true ∧ |Fp.value q| ≤ 2 ^ 244 ∧
    Fp.isFinite raw = true ∧ |Fp.value raw| ≤ 2 ^ 245) ∧
  ∀ (i : Instr) (s : State), exec i s ≠ .fault .fpInvalid

/-- R134: an integer below `2^24` is converted exactly; the patterns of 15 and 199. -/
def Obligations.BoundsConvertExactly : Prop :=
  (∀ k : Nat, k < 2 ^ 24 →
    Fp.isFinite (Fp.fOfInt k) = true ∧ Fp.value (Fp.fOfInt k) = (k : Int) * 2 ^ 149) ∧
  Fp.fOfInt 15 = 0x41700000 ∧ Fp.fOfInt 199 = 0x43470000

/-- R133: the conversions from integer give the nearest value, ties to even; exact up to `2^24` in
magnitude, within 128 always, `+0.0` for 0, and finite. -/
def Obligations.IntegerConversions : Prop :=
  (∀ v : Word, IsNearest (Fp.i2f v) (v.toInt * 2 ^ 149) 1 ∧
    IsNearest (Fp.u2f v) ((v.toNat : Int) * 2 ^ 149) 1 ∧
    Fp.isFinite (Fp.i2f v) = true ∧ Fp.isFinite (Fp.u2f v) = true ∧
    (|v.toInt| ≤ 2 ^ 24 → Fp.value (Fp.i2f v) = v.toInt * 2 ^ 149) ∧
    (v.toNat ≤ 2 ^ 24 → Fp.value (Fp.u2f v) = (v.toNat : Int) * 2 ^ 149) ∧
    |(v.toInt * 2 ^ 149 : Int) - Fp.value (Fp.i2f v)| ≤ 128 * 2 ^ 149 ∧
    |((v.toNat : Int) * 2 ^ 149) - Fp.value (Fp.u2f v)| ≤ 128 * 2 ^ 149) ∧
  Fp.i2f 0 = 0x00000000 ∧ Fp.u2f 0 = 0x00000000

/-- R135: multiplication, addition and division of finite values are the exact results rounded once to
nearest, ties to even, with an infinity beyond the largest finite value; the signs of zeros; what
infinite and NaN operands give. Values are in units of `2^-149`, so the exact product is
`va * vb / 2^149` of them and the exact quotient `va * 2^149 / vb`. -/
def Obligations.ArithmeticRoundsOnce : Prop :=
  ∀ a b : Word,
    (Fp.isFinite a = true → Fp.isFinite b = true →
      IsNearest (Fp.fmul a b) (Fp.value a * Fp.value b) (2 ^ 149) ∧
      IsNearest (Fp.fadd a b) (Fp.value a + Fp.value b) 1 ∧
      (Fp.value b ≠ 0 →
        IsNearest (Fp.fdiv a b) (Fp.value a * 2 ^ 149 * (Fp.value b).sign) (Fp.value b).natAbs) ∧
      Fp.sign (Fp.fmul a b) = (Fp.sign a != Fp.sign b) ∧
      (Fp.value b ≠ 0 → Fp.sign (Fp.fdiv a b) = (Fp.sign a != Fp.sign b)) ∧
      (Fp.value a + Fp.value b = 0 → Fp.sign a ≠ Fp.sign b → Fp.fadd a b = 0x00000000)) ∧
    (Fp.isNan a = true ∨ Fp.isNan b = true →
      Fp.isNan (Fp.fmul a b) = true ∧ Fp.isNan (Fp.fadd a b) = true ∧
        Fp.isNan (Fp.fdiv a b) = true) ∧
    (Fp.isInf a = true → Fp.isInf b = true →
      (Fp.sign a ≠ Fp.sign b → Fp.isNan (Fp.fadd a b) = true) ∧ Fp.isNan (Fp.fdiv a b) = true) ∧
    (Fp.isZero a = true → Fp.isInf b = true →
      Fp.isNan (Fp.fmul a b) = true ∧ Fp.isNan (Fp.fmul b a) = true) ∧
    (Fp.isZero a = true → Fp.isZero b = true → Fp.isNan (Fp.fdiv a b) = true) ∧
    (Fp.isInf a = true → Fp.isFinite b = true →
      Fp.fadd a b = a ∧ Fp.fadd b a = a ∧
      Fp.fdiv a b = Fp.inf (Fp.sign a != Fp.sign b) ∧
      Fp.isZero (Fp.fdiv b a) = true ∧ Fp.sign (Fp.fdiv b a) = (Fp.sign a != Fp.sign b)) ∧
    (Fp.isInf a = true → Fp.isNan b = false → Fp.isZero b = false →
      Fp.fmul a b = Fp.inf (Fp.sign a != Fp.sign b) ∧
      Fp.fmul b a = Fp.inf (Fp.sign a != Fp.sign b)) ∧
    (Fp.isInf a = true → Fp.isInf b = true → Fp.sign a = Fp.sign b → Fp.fadd a b = a)

/-- R136: the comparisons are those of the real numbers; the two zeros compare equal; an infinity
compares beyond every finite value; with a NaN both are false. -/
def Obligations.ComparisonsOfRealNumbers : Prop :=
  ∀ a b : Word,
    (Fp.isFinite a = true → Fp.isFinite b = true →
      (Fp.fgt a b = true ↔ Fp.value b < Fp.value a) ∧
      (Fp.flt a b = true ↔ Fp.value a < Fp.value b)) ∧
    (Fp.isZero a = true → Fp.isZero b = true → Fp.fgt a b = false ∧ Fp.flt a b = false) ∧
    (Fp.isInf a = true → Fp.isFinite b = true →
      Fp.fgt a b = (!Fp.sign a) ∧ Fp.flt a b = Fp.sign a ∧
      Fp.fgt b a = Fp.sign a ∧ Fp.flt b a = (!Fp.sign a)) ∧
    (Fp.isInf a = true → Fp.isInf b = true →
      Fp.fgt a b = (!Fp.sign a && Fp.sign b) ∧ Fp.flt a b = (Fp.sign a && !Fp.sign b)) ∧
    (Fp.isNan a = true ∨ Fp.isNan b = true → Fp.fgt a b = false ∧ Fp.flt a b = false) ∧
    (Fp.isNan a = true ↔ Fp.expField a = 255 ∧ Fp.fracField a ≠ 0)

/-- R137: `f2u_trunc` of a finite value with `0 <= a < 2^32` is its integer part, the largest integer
not exceeding it, and `f2u_trunc(-0.0) = 0`. Every output that a `pi_update` leaves is such an operand. -/
def Obligations.TruncationIsTheIntegerPart : Prop :=
  (∀ a : Word, Fp.isFinite a = true → 0 ≤ Fp.value a → Fp.value a < 2 ^ 32 * 2 ^ 149 →
    ∃ v : Word, Fp.f2uTrunc a = some v ∧ (v.toNat : Int) * 2 ^ 149 ≤ Fp.value a ∧
      Fp.value a < ((v.toNat : Int) + 1) * 2 ^ 149) ∧
  (∀ (ta : Word) (s t : State), piUpdate ta s = .next t →
    Fp.isFinite t.output = true ∧ 0 ≤ Fp.value t.output ∧
      Fp.value t.output < 2 ^ 32 * 2 ^ 149) ∧
  Fp.f2uTrunc 0x80000000 = some 0

/-! ## FILT (spec/43_median_filter.md) -/

/-- `FILT val` completes if the write position is a slot of the ring and the smoothing sum fits, and
then: the sample is in the slot, the position has advanced, the smoothed value of the median of the ring
after the write is the new `lastMedian` and is emitted (R180). -/
def Obligations.FiltResult : Prop :=
  ∀ (s : State) (val : Word), s.writePos.toNat < s.cfg.n →
    let ring := s.rb.write s.writePos.toNat val
    let sum := 4 * s.lastMedian.toNat + (rawMedian s.cfg.n ring).toNat
    sum < 2 ^ 32 →
    exec (.filt val) s = .next
      { s with
        rb := ring
        writePos := BitVec.ofNat 4 ((s.writePos.toNat + 1) % s.cfg.n)
        lastMedian := BitVec.ofNat 32 (sum / 5)
        out := ⟨false, none, some (BitVec.ofNat 32 (sum / 5))⟩ }

/-- R184: the smoothing sum must be a `u32`, else `ArithOverflow("smooth")`; the smoothed value is the
truncated quotient by 5, becomes `lastMedian` and is returned, and is at most the larger of `lastMedian`
and the raw median; no overflow is possible while all samples since reset are at most 858993459, and
then both are too. -/
def Obligations.SmoothingFormula : Prop :=
  (∀ (s : State) (val : Word), s.writePos.toNat < s.cfg.n →
    let m := (rawMedian s.cfg.n (s.rb.write s.writePos.toNat val)).toNat
    (2 ^ 32 ≤ 4 * s.lastMedian.toNat + m → exec (.filt val) s = .fault (.arithOverflow .smooth)) ∧
    (4 * s.lastMedian.toNat + m < 2 ^ 32 → ∃ t, exec (.filt val) s = .next t ∧
      t.lastMedian.toNat = (4 * s.lastMedian.toNat + m) / 5 ∧ t.out.res = some t.lastMedian ∧
      t.lastMedian.toNat ≤ max s.lastMedian.toNat m) ∧
    (s.lastMedian.toNat ≤ 858993459 → m ≤ 858993459 → ∃ t, exec (.filt val) s = .next t)) ∧
  ∀ (cfg : Config) (is : List Instr), (∀ val, .filt val ∈ is → val.toNat ≤ 858993459) →
    runCommands is (launch cfg []) ≠ .fault (.arithOverflow .smooth) ∧
    ∀ r, runCommands is (launch cfg []) = .next r →
      r.1.lastMedian.toNat ≤ 858993459 ∧ (rawMedian cfg.n r.1.rb).toNat ≤ 858993459

/-- R182: the raw median is the element at index `udiv(N, 2)` of any sorted rearrangement of the ring,
so it does not depend on the order of the slots; equivalently it is a value of the ring with at most
`udiv(N, 2)` slots less and at most `udiv(N, 2)` slots greater, and the only one. The ring itself is
not reordered by `FILT`: only the slot at `writePos` changes. -/
def Obligations.RawMedianIsTheMiddle : Prop :=
  (∀ (n : Nat) (m : Memory), n % 2 = 1 →
    (∀ l : List Word, l.Perm (m.slots n) → l.Pairwise (fun a b => a.toNat ≤ b.toNat) →
      l[n / 2]? = some (rawMedian n m)) ∧
    ∀ v : Word, v = rawMedian n m ↔ v ∈ m.slots n ∧
      (m.slots n).countP (fun x => decide (x.toNat < v.toNat)) ≤ n / 2 ∧
      (m.slots n).countP (fun x => decide (v.toNat < x.toNat)) ≤ n / 2) ∧
  ∀ (s t : State) (val : Word), s.rb.wf = true → exec (.filt val) s = .next t →
    t.out.res = some t.lastMedian ∧
    t.lastMedian.toNat = (4 * s.lastMedian.toNat + (rawMedian s.cfg.n t.rb).toNat) / 5 ∧
    ∀ j, t.rb.read j = if j = s.writePos.toNat then val else s.rb.read j

/-- R181: the sample overwrites the slot at `writePos` and `writePos` advances by one, wrapping from
`N - 1` to 0; after `N` calls every slot has been written once, the ring holds the `N` samples, and
`writePos` is back where it began; from reset the ring holds the `N` most recent samples, or zeros
where fewer have been given. -/
def Obligations.InsertionIntoTheRing : Prop :=
  (∀ (s t : State) (val : Word), s.rb.wf = true → exec (.filt val) s = .next t →
    t.rb.read s.writePos.toNat = val ∧
    (∀ j, j ≠ s.writePos.toNat → t.rb.read j = s.rb.read j) ∧
    t.writePos.toNat = if s.writePos.toNat = s.cfg.n - 1 then 0 else s.writePos.toNat + 1) ∧
  (∀ (s t : State) (vals : List Word) (outs : List OutRecord), s.rb.wf = true →
    vals.length = s.cfg.n → runCommands (vals.map .filt) s = .next (t, outs) →
    t.writePos = s.writePos ∧
    ∀ k (h : k < vals.length), t.rb.read ((s.writePos.toNat + k) % s.cfg.n) = vals[k]) ∧
  ∀ (cfg : Config) (t : State) (vals : List Word) (outs : List OutRecord),
    runCommands (vals.map .filt) (launch cfg []) = .next (t, outs) →
    ∀ j, j < cfg.n → t.rb.read ((vals.length + cfg.n - 1 - j) % cfg.n) = vals.reverse.getD j 0

/-- Outliers are rejected (R187): if more than half of the slots hold values between `lo` and `hi`, so
does the raw median, whatever the others hold. -/
def Obligations.OutlierRejection : Prop :=
  ∀ (n : Nat) (m : Memory) (lo hi : Nat),
    n / 2 < (m.slots n).countP (fun x => decide (lo ≤ x.toNat ∧ x.toNat ≤ hi)) →
    lo ≤ (rawMedian n m).toNat ∧ (rawMedian n m).toNat ≤ hi

/-- One smoothing step on a constant median `v` (R186): below `v - 4` the smoothed value rises strictly
and does not pass `v - 4`; the values `v - 4 .. v` are exactly the fixed points; above `v` it falls
strictly and does not pass `v`. -/
def Obligations.SmoothingFixedPoints : Prop :=
  ∀ last v : Word, last.toNat ≤ 858993459 → v.toNat ≤ 858993459 →
    ∃ after : Word, smooth last v = .next after ∧
      (last.toNat + 4 < v.toNat → last.toNat < after.toNat ∧ after.toNat + 4 ≤ v.toNat) ∧
      (after = last ↔ v.toNat ≤ last.toNat + 4 ∧ last.toNat ≤ v.toNat) ∧
      (v.toNat < last.toNat → v.toNat ≤ after.toNat ∧ after.toNat < last.toNat)

/-- Constant input from reset (R186): with every sample the same value `v` of at most 858993459 no
`FILT` ever faults, and the smoothed value settles at `v - 4`, or at 0 when `v < 5`. -/
def Obligations.ConstantInputSettles : Prop :=
  ∀ (cfg : Config) (v : Word), v.toNat ≤ 858993459 →
    ∃ k0 : Nat, ∀ k, k0 ≤ k → ∃ r : State × List OutRecord,
      runCommands (List.replicate k (.filt v)) (launch cfg []) = .next r ∧
      r.1.lastMedian.toNat = v.toNat - 4

/-! ## RD (spec/44_host_access.md, spec/10_state.md section 6) -/

/-- R41 and R197: the word of opcode 0x05 with upper bits `up` and index `idx` is an `RD` exactly if `up`
is 0 and the index is in the map; `RD` of it emits the value that the map gives and changes nothing
else; every other such word raises `IllegalCommand`. -/
def Obligations.RdReadsTheRegisterMap : Prop :=
  ∀ (s : State) (up : BitVec 27) (idx : BitVec 5),
    let w : CmdWord := 0x05#8 ++ (up ++ idx)
    (up = 0 ∧ (idx.toNat ≤ 0x08 ∨ (0x10 ≤ idx.toNat ∧ idx.toNat < 0x10 + s.cfg.n)) →
      ∃ reg, decode s.cfg.n w = .ok (.rd reg) ∧
        exec (.rd reg) s = .next { s with out := ⟨false, none, some
          (match idx.toNat with
          | 0x00 => if s.running then 1 else 0
          | 0x01 => s.targetRate
          | 0x02 => s.measuredRate
          | 0x03 => s.elapsedTicks
          | 0x04 => s.duty
          | 0x05 => s.output
          | 0x06 => s.errorSum
          | 0x07 => s.lastMedian
          | 0x08 => BitVec.ofNat 32 s.writePos.toNat
          | k => s.rb.read (k - 0x10))⟩ }) ∧
    (¬ (up = 0 ∧ (idx.toNat ≤ 0x08 ∨ (0x10 ≤ idx.toNat ∧ idx.toNat < 0x10 + s.cfg.n))) →
      ∀ rest, s.inputs = .command w :: rest → step s = .fault (.illegalCommand w))

/-- `RD` completes for every well-formed register, in every state, with no register changed; for a slot
outside the ring it raises `IllegalCommand`, and does not return zero (R43, R197; log 6). -/
def Obligations.RdCompletesOnLegalIndices : Prop :=
  ∀ (s : State) (reg : RegSel),
    (reg.wellFormed s.cfg.n = true →
      ∃ v, exec (.rd reg) s = .next { s with out := ⟨false, none, some v⟩ }) ∧
    (reg.wellFormed s.cfg.n = false →
      exec (.rd reg) s = .fault (.illegalCommand (encode (.rd reg))))

/-- A repeated `RD` returns the same value, with no other command between, and the second changes
nothing at all (R65, R197). -/
def Obligations.RepeatedReadsAgree : Prop :=
  ∀ (s t : State) (reg : RegSel), exec (.rd reg) s = .next t → exec (.rd reg) t = .next t

/-- `cnt` and `cnt_ovf` appear in no output (R39): in two states that differ in nothing else every
command but a closing edge does the same, up to `cnt` and `cnt_ovf`, and emits the same record. -/
def Obligations.CounterIsHidden : Prop :=
  ∀ (i : Instr) (s : State) (c : Word) (o : Bool), (i = .edge → s.running = false) →
    (∀ t, exec i s = .next t → ∃ c' o',
      exec i { s with cnt := c, cntOvf := o } = .next { t with cnt := c', cntOvf := o' }) ∧
    (∀ f, exec i s = .fault f → exec i { s with cnt := c, cntOvf := o } = .fault f)

/-! ## Frames and ownership -/

/-- What each command leaves unchanged (R21 to R35, the only writer of each register): `NOP` and `RD`
every register; `TICK` all but `cnt` and `cnt_ovf`; `SETTGT` all but `targetRate`; `FILT` all but the
ring, `writePos` and `lastMedian`; `EDGE` the ring, `writePos`, `lastMedian`, `targetRate` and `cnt_ovf`,
and when it opens a window everything but `running` and `cnt`. -/
def Obligations.FrameOfRegisters : Prop :=
  ∀ (i : Instr) (s t : State), exec i s = .next t →
    t.cfg = s.cfg ∧ t.inputs = s.inputs ∧
    ((i ≠ .edge) → t.running = s.running ∧ t.elapsedTicks = s.elapsedTicks ∧
      t.measuredRate = s.measuredRate ∧ t.errorSum = s.errorSum ∧ t.output = s.output ∧
      t.duty = s.duty) ∧
    (i = .edge → s.running = false → t.elapsedTicks = s.elapsedTicks ∧
      t.measuredRate = s.measuredRate ∧ t.errorSum = s.errorSum ∧ t.output = s.output ∧
      t.duty = s.duty) ∧
    (i ≠ .edge → i ≠ .tick → t.cnt = s.cnt) ∧
    (i ≠ .tick → t.cntOvf = s.cntOvf) ∧
    ((∀ val, i ≠ .settgt val) → t.targetRate = s.targetRate) ∧
    (isFilt i = false → t.rb = s.rb ∧ t.writePos = s.writePos ∧ t.lastMedian = s.lastMedian)

/-- What each command leaves unchanged in the ring memory (R62): `FILT` stores one word, at the slot
`writePos` holds when it starts, and every other slot reads as before; every other command leaves every
slot as it was. -/
def Obligations.FrameOfMemory : Prop :=
  ∀ (i : Instr) (s t : State), s.rb.wf = true → exec i s = .next t →
    (isFilt i = false → ∀ j, t.rb.read j = s.rb.read j) ∧
    (isFilt i = true → ∀ j, j ≠ s.writePos.toNat → t.rb.read j = s.rb.read j)

/-- R36: `EDGE` and `TICK` touch only ET and PI state; `SETTGT` touches only `targetRate`; `FILT`
touches only MF state; `RD` and `NOP` write nothing. No command moves a value between MF and the other
two units: what a command leaves in a unit, and whether it completes, depends on that unit alone, but
for `RD`, which writes neither. -/
def Obligations.UnitsDoNotInteract : Prop :=
  (∀ (i : Instr) (s t : State), exec i s = .next t →
    (i = .edge ∨ i = .tick → SameFilter s t) ∧
    (∀ val, i = .settgt val → t = { s with targetRate := val, out := t.out }) ∧
    (isFilt i = true → SameLoop s t) ∧
    ((i = .nop ∨ ∃ reg, i = .rd reg) → t = { s with out := t.out })) ∧
  (∀ (i : Instr) (s s' t : State), s.cfg = s'.cfg → SameLoop s s' → isFilt i = false →
    (∀ reg, i ≠ .rd reg) → exec i s = .next t →
    ∃ t', exec i s' = .next t' ∧ SameLoop t t' ∧ t.out = t'.out) ∧
  ∀ (val : Word) (s s' t : State), s.cfg = s'.cfg → SameFilter s s' → exec (.filt val) s = .next t →
    ∃ t', exec (.filt val) s' = .next t' ∧ SameFilter t t' ∧ t.out = t'.out

/-- Which commands emit what (R45). -/
def Obligations.RecordsByCommand : Prop :=
  ∀ (i : Instr) (s t : State), exec i s = .next t →
    (i = .edge → s.running = false → t.out = ⟨false, none, none⟩) ∧
    (i = .edge → s.running = true → t.out = ⟨true, some t.duty, none⟩) ∧
    (i = .tick ∨ i = .nop ∨ (∃ val, i = .settgt val) → t.out = ⟨false, none, none⟩) ∧
    ((∃ val, i = .filt val) ∨ (∃ reg, i = .rd reg) → ∃ v, t.out = ⟨false, none, some v⟩)

/-! ## Faults (spec/60_exceptions.md) -/

/-- R211: which command can raise what. -/
def Obligations.FaultsByCommand : Prop :=
  (∀ (i : Instr) (s : State) (f : Fault), exec i s = .fault f →
    match i with
    | .nop => False
    | .tick => False
    | .settgt _ => False
    | .rd _ => ∃ w, f = .illegalCommand w
    | .filt _ => f = .arithOverflow .smooth
    | .edge => s.running = true ∧ f ∈ [.counterWrap, .divideByZero, .arithOverflow .ticksTwice,
        .arithOverflow .rate, .arithOverflow .error, .arithOverflow .errorSum, .fpInvalid]) ∧
  ∀ (s : State) (w : CmdWord) (rest : List Input), s.inputs = .command w :: rest →
    (step s = .fault (.illegalCommand w) ↔ IsReserved s.cfg.n w)

/-- No command is ever refused: in every state that meets the invariant each command completes or
raises a fault of the spec (log 12, log 13). -/
def Obligations.NothingIsRefused : Prop :=
  (∀ (i : Instr) (s : State) (r : Refusal), s.writePos.toNat < s.cfg.n → exec i s ≠ .refused r) ∧
  ∀ (s : State) (r : Refusal), Inv s → step s ≠ .refused r

/-! ## Memory (spec/20_memory.md) -/

/-- `MemWrite(i, 1, v)` puts `v` in slot `i` and changes no other slot; `MemRead(i, 1)` reads it and
changes nothing (R61). Both keep the canonical form (log 7). -/
def Obligations.MemoryReadAfterWrite : Prop :=
  ∀ (n : Nat) (m : Memory) (i : Nat) (v : Word), m.wf = true → m.within n = true →
    i < n → ∃ m', memWrite n m i v = .next m' ∧ m'.wf = true ∧ m'.within n = true ∧
      memRead n m' i = .next v ∧
      ∀ j, j < n → j ≠ i → memRead n m' j = memRead n m j

/-- Where the spec does not define a primitive the model stops, which is its own choice: `f2u_trunc`
outside a finite `0 <= a < 2^32` has no value (log 13), and the memory primitives at an index of `N` or
more are refused (log 12). -/
def Obligations.UndefinedOperandsStop : Prop :=
  (∀ a : Word, ¬ (Fp.isFinite a = true ∧ 0 ≤ Fp.value a ∧ Fp.value a < 2 ^ 32 * 2 ^ 149) →
    Fp.f2uTrunc a = none) ∧
  ∀ (n : Nat) (m : Memory) (i : Nat) (v : Word), n ≤ i →
    memWrite n m i v = .refused .ringIndexUndefined ∧
      memRead n m i = .refused .ringIndexUndefined

/-- Two rings in canonical form that hold the same word in every slot are the same data (log 7). -/
def Obligations.CanonicalMemoryIsUnique : Prop :=
  ∀ m m' : Memory, m.wf = true → m'.wf = true → (∀ i, m.read i = m'.read i) → m = m'

/-! ## Invariants (spec/10_state.md R40) -/

/-- The reset state meets the invariant, for every configuration and whatever is presented. -/
def Obligations.ResetMeetsTheInvariant : Prop :=
  Inv State.reset ∧ ∀ (cfg : Config) (inputs : List Input), Inv (launch cfg inputs)

/-- Every step keeps the invariant: from every state that meets it, reached or not, a step that gives a
next state gives one that meets it. -/
def Obligations.StepKeepsTheInvariant : Prop :=
  ∀ s t : State, Inv s → step s = .next t → Inv t

/-- R40, over every sequence of commands from reset that does not fault: (a) with no window open the
counter is 0 and has not wrapped; (b) `writePos < N`; (c) after a closing edge the output is within the
bounds and the duty is its truncation; (d) before the first one the controller is at its reset values;
(e) `cnt < 2^CW`. -/
def Obligations.InvariantsOfReachableStates : Prop :=
  ∀ (cfg : Config) (is : List Instr) (t : State) (outs : List OutRecord),
    runCommands is (launch cfg []) = .next (t, outs) →
    (t.running = false → t.cnt = 0 ∧ t.cntOvf = false) ∧
    t.writePos.toNat < cfg.n ∧
    (2 ≤ edges is → OutputWithin cfg.minOut cfg.maxOut t.output ∧
      Fp.f2uTrunc t.output = some t.duty ∧ cfg.minOut ≤ t.duty.toNat ∧ t.duty.toNat ≤ cfg.maxOut) ∧
    (edges is < 2 → t.output = 0x00000000 ∧ t.duty = 0 ∧ t.errorSum = 0 ∧ t.measuredRate = 0 ∧
      t.elapsedTicks = 0) ∧
    t.cnt.toNat < 2 ^ cfg.cw

/-- R237: after reset, a sequence without `EDGE` leaves the whole loop but `targetRate` at its reset
values (`cnt_ovf` too), and a sequence without `FILT` leaves the filter at its reset values. -/
def Obligations.IdleStateStaysIdle : Prop :=
  (∀ (cfg : Config) (is : List Instr) (t : State) (outs : List OutRecord),
    runCommands is (launch cfg []) = .next (t, outs) →
    (Instr.edge ∉ is → t.errorSum = 0 ∧ t.output = 0x00000000 ∧ t.duty = 0 ∧ t.measuredRate = 0 ∧
      t.elapsedTicks = 0 ∧ t.running = false ∧ t.cnt = 0 ∧ t.cntOvf = false) ∧
    ((∀ i ∈ is, isFilt i = false) → t.lastMedian = 0 ∧ t.writePos = 0 ∧ ∀ i, t.rb.read i = 0)) ∧
  (∀ (s : State) (val : Word),
    exec (.settgt val) s = .next { s with targetRate := val, out := ⟨false, none, none⟩ }) ∧
  ∀ s : State, s.running = false →
    exec .tick s = .next { s with out := ⟨false, none, none⟩ }

/-! ## Gains (spec/41_pi_controller.md R138) -/

/-- R138: a gain written in decimal is first rounded to binary32, to the nearest value with ties to even,
and a `.cfg` directive then states the rounded pattern; a gain given in hexadecimal as a 32-bit pattern
is that pattern. (How either is spelled is the model's choice, log 5.) -/
def Obligations.DecimalGainsAreRounded : Prop :=
  (∀ (neg : Bool) (k places : Nat),
    IsNearest (Fp.ofDecimal neg k places) ((if neg then -(k : Int) else k) * 2 ^ 149) (10 ^ places)) ∧
  (∀ (neg : Bool) (whole frac : List Char) (k : Nat), '.' ∉ whole → whole ≠ [] → frac ≠ [] →
    digits 10 (whole ++ frac) 0 = some k →
    gain ((if neg then ['-'] else []) ++ whole ++ '.' :: frac) =
      some (Fp.ofDecimal neg k frac.length)) ∧
  (∀ (neg : Bool) (whole : List Char) (k : Nat), whole ≠ [] → digits 10 whole 0 = some k →
    gain ((if neg then ['-'] else []) ++ whole) = some (Fp.ofDecimal neg k 0)) ∧
  (∀ (h : List Char) (k : Nat), h ≠ [] → digits 16 h 0 = some k → k < 2 ^ 32 →
    gain ('0' :: 'x' :: h) = some (BitVec.ofNat 32 k)) ∧
  (∀ (n : Nat) (t : List Char) (v : Word), gain t = some v →
    parseTokens n [".cfg".toList, "KP".toList, "=".toList, t] = some (.cfg (.kp v)) ∧
    parseTokens n [".cfg".toList, "KI".toList, "=".toList, t] = some (.cfg (.ki v))) ∧
  (∀ (p : Params) (v : Word), (CfgSetting.kp v).set p = { p with kp := v } ∧
    (CfgSetting.ki v).set p = { p with ki := v }) ∧
  gain "0.0625".toList = some 0x3D800000 ∧ gain "4".toList = some 0x40800000 ∧
  gain "0.05".toList = some 0x3D4CCCCD ∧ gain "0x3D4CCCCD".toList = some 0x3D4CCCCD

/-! ## Programs (spec/30_encoding.md R95, R96) -/

/-- R96: a program is read line by line, each with the `N` in force where it stands, from a start at which
no commands have begun; what the pseudo-commands and directives present; commands begin with the first
line that presents one; a `.cfg` directive states a field of `cfg` by its name until then and has no effect
afterwards, in whatever lines follow, and no other line changes `cfg`; a program starts in the reset state
of a CORE with the configuration it states, its lines presented in order, if that configuration is well
formed (R5), and else does not start. (The model's choices: how a line is spelled, log 5; that the later
of two directives holds and that `.reset` and `TICKS 0` begin no commands, log 18; that `W` is 32 in a
well-formed configuration and where unstated fields come from, log 19.) -/
def Obligations.ProgramsPresentTheirLines : Prop :=
  -- reading, line by line
  (∀ params : Params, (Program.start params).params = params ∧ (Program.start params).begun = false ∧
    (Program.start params).inputs = []) ∧
  (∀ p : Program, parseProgram p [] = some p) ∧
  (∀ (p : Program) (t : List Char) (ts : List (List Char)), parseProgram p (t :: ts) =
    (parseLine p.params.n t).bind fun l => parseProgram (p.add l) ts) ∧
  (∀ (p q : Program) (text : List (List Char)), parseProgram p text = some q →
    ∃ lines : List Line, lines.length = text.length ∧
      q.inputs = p.inputs ++ lines.flatMap Line.inputs ∧
      ∀ (i : Nat) (t : List Char), text[i]? = some t →
        ∃ (l : Line) (r : Program), lines[i]? = some l ∧ parseProgram p (text.take i) = some r ∧
          parseLine r.params.n t = some l) ∧
  -- what a line presents
  (∀ n : Nat, (Line.ticks n).inputs = List.replicate n (.command 0x0200000000) ∧
    (Line.window n).inputs = .command 0x0100000000 ::
      (List.replicate n (.command 0x0200000000) ++ [.command 0x0100000000])) ∧
  (∀ w : CmdWord, (Line.word w).inputs = [.command w]) ∧ Line.reset.inputs = [.reset] ∧
  (∀ i : Instr, (Line.command i).inputs = [.command (encode i)]) ∧ Line.blank.inputs = [] ∧
  (∀ c : CfgSetting, (Line.cfg c).inputs = []) ∧
  -- adding a line: what is presented, when commands begin, and the configuration
  (∀ (p : Program) (l : Line), (p.add l).inputs = p.inputs ++ l.inputs ∧
    ((p.add l).begun = true ↔ p.begun = true ∨ ∃ w, .command w ∈ l.inputs) ∧
    ((∀ c, l ≠ .cfg c) → (p.add l).params = p.params)) ∧
  (∀ p : Program, (p.add .reset).begun = p.begun ∧ (p.add (.ticks 0)).begun = p.begun ∧
    (p.add .blank).begun = p.begun ∧ (∀ n, (p.add (.ticks (n + 1))).begun = true) ∧
    (∀ n, (p.add (.window n)).begun = true) ∧ (∀ w, (p.add (.word w)).begun = true) ∧
    ∀ i, (p.add (.command i)).begun = true) ∧
  (∀ (p : Program) (c : CfgSetting), (p.add (.cfg c)).begun = p.begun ∧
    (p.add (.cfg c)).params = if p.begun = true then p.params else c.set p.params) ∧
  (∀ (p q : Program) (text : List (List Char)), parseProgram p text = some q → p.begun = true →
    q.params = p.params) ∧
  -- the names of the fields
  (∀ (n v : Nat) (t : List Char), numberWithin 32 t = some v →
    ∀ e ∈ [("W", CfgSetting.w v), ("CW", .cw v), ("N", .n v), ("MIN_OUT", .minOut v),
        ("MAX_OUT", .maxOut v), ("F_REF", .fRef v)],
      parseTokens n [".cfg".toList, e.1.toList, "=".toList, t] = some (.cfg e.2)) ∧
  (∀ n : Nat, parseTokens n [".cfg".toList, "FP".toList, "=".toList, "binary32".toList] =
    some (.cfg (.fp .binary32))) ∧
  (∀ (n : Nat) (t : List Char) (g : Word), gain t = some g →
    parseTokens n [".cfg".toList, "KP".toList, "=".toList, t] = some (.cfg (.kp g)) ∧
    parseTokens n [".cfg".toList, "KI".toList, "=".toList, t] = some (.cfg (.ki g))) ∧
  (∀ (p : Params) (v : Nat) (g : Word) (f : FpFormat), (CfgSetting.w v).set p = { p with w := v } ∧
    (CfgSetting.cw v).set p = { p with cw := v } ∧ (CfgSetting.n v).set p = { p with n := v } ∧
    (CfgSetting.minOut v).set p = { p with minOut := v } ∧
    (CfgSetting.maxOut v).set p = { p with maxOut := v } ∧
    (CfgSetting.fRef v).set p = { p with fRef := v } ∧
    (CfgSetting.kp g).set p = { p with kp := g } ∧ (CfgSetting.ki g).set p = { p with ki := g } ∧
    (CfgSetting.fp f).set p = { p with fp := f }) ∧
  -- the pseudo-commands and directives as text
  (∀ (n v : Nat) (t : List Char), number t = some v →
    parseTokens n ["TICKS".toList, t] = some (.ticks v) ∧
    parseTokens n ["WINDOW".toList, t] = some (.window v) ∧
    (v < 2 ^ 40 → parseTokens n [".word".toList, t] = some (.word (BitVec.ofNat 40 v)))) ∧
  (∀ n : Nat, parseTokens n [".reset".toList] = some .reset) ∧
  (∀ (n : Nat) (text : List Char),
    parseLine n text = parseTokens n (tokens (text.takeWhile (· != ';')) [])) ∧
  -- the state in which a program starts
  (∀ p : Program, (p.params.wf = false → p.load = none) ∧
    (p.params.wf = true → ∃ cfg : Config, cfg.toParams = p.params ∧ cfg.w = 32 ∧
      p.load = some { State.reset with cfg := cfg, inputs := p.inputs })) ∧
  ∀ (params : Params) (text : List (List Char)),
    loadText params text = (parseProgram (.start params) text).bind Program.load
end

