-- ==== Sys2Proof/Laws/Assembler.lean ====
section
/-! SUPPORT. Lemmas on a program's text: what loading a program can give, what a program becomes as its lines are read, and the numbers of a line: decimal digits are read back as the number they spell (spec/30_encoding.md rule R95), and a text of digits holds no other character. -/

namespace Sys2Proof.Machine

/-- Digits are read from the left: those of a suffix go on from the number of the prefix. -/
theorem digits_append (base : Nat) (t u : List Char) (acc : Nat) :
    digits base (t ++ u) acc = (digits base t acc).bind (digits base u) := by
  induction t generalizing acc with
  | nil => rfl
  | cons c t ih => cases h : digit base c <;> simp [digits, h, ih]

theorem digit_digitChar {v : Nat} (h : v < 10) : digit 10 v.digitChar = some v := by
  have : ∀ v : Fin 10, digit 10 (Nat.digitChar v) = some v.val := by decide
  exact this ⟨v, h⟩

/-- The decimal digits of a number stand for that number. -/
theorem digits_toDigits (k : Nat) : digits 10 (Nat.toDigits 10 k) 0 = some k := by
  induction k using Nat.strongRecOn with
  | _ k ih =>
    by_cases h : k < 10
    · simp [Nat.toDigits_of_lt_base h, digits, digit_digitChar h]
    · have hm : k % 10 < 10 := Nat.mod_lt k (by omega)
      rw [Nat.toDigits_of_base_le (by omega) (by omega), digits_append, ih _ (by omega)]
      simp only [Option.bind_some, digits, digit_digitChar hm]
      congr 1
      omega

/-- Every character of a text that is read as a number is a digit. -/
theorem digit_isSome_of_mem {base : Nat} {t : List Char} {acc k : Nat} (h : digits base t acc = some k)
    {c : Char} (hc : c ∈ t) : (digit base c).isSome = true := by
  induction t generalizing acc with
  | nil => cases hc
  | cons d t ih =>
    obtain ⟨v, hv, h⟩ := Option.bind_eq_some_iff.mp h
    rcases List.mem_cons.mp hc with rfl | hc
    · simp [hv]
    · exact ih h hc

@[simp] theorem Program.add_inputs (p : Program) (l : Line) : (p.add l).inputs = p.inputs ++ l.inputs := rfl

@[simp] theorem Program.add_begun (p : Program) (l : Line) : (p.add l).begun = (p.begun || l.begins) := rfl

/-- The lines with which commands begin are those that present one. -/
theorem Line.begins_iff {l : Line} : l.begins = true ↔ ∃ w, Input.command w ∈ l.inputs := by
  unfold Line.begins
  rw [List.any_eq_true]
  constructor
  · rintro ⟨x, hx, h⟩
    cases x with
    | command w => exact ⟨w, hx⟩
    | reset => simp at h
  · rintro ⟨w, h⟩
    exact ⟨_, h, by simp⟩

/-- Once commands have begun no line changes the configuration. -/
theorem Program.add_params_of_begun {p : Program} (h : p.begun = true) (l : Line) :
    (p.add l).params = p.params := by
  cases l <;> simp [Program.add, h]

/-- Loading gives the starting state of a CORE with the configuration of the program, and nothing else. -/
theorem Program.load_eq_some {p : Program} {s : State} :
    p.load = some s ↔ ∃ cfg : Config, cfg.toParams = p.params ∧ s = launch cfg p.inputs := by
  unfold Program.load Program.config
  constructor
  · intro h
    split at h
    · exact ⟨_, rfl, by simpa using h.symm⟩
    · cases h
  · rintro ⟨cfg, hp, rfl⟩
    rw [dif_pos (hp ▸ cfg.ok)]
    obtain ⟨q, hq⟩ := cfg
    cases hp
    rfl

/-- Reading a first line and the rest. -/
theorem parseProgram_cons {p q : Program} {t : List Char} {ts : List (List Char)} :
    parseProgram p (t :: ts) = some q ↔
      ∃ l, parseLine p.params.n t = some l ∧ parseProgram (p.add l) ts = some q :=
  Option.bind_eq_some_iff

end Sys2Proof.Machine
end

