-- ==== Sys2Proof/Laws/Fp.lean ====
section
/-! SUPPORT. What the fields of a packed pattern are, the magnitude that rounding gives, and its bounds (spec/41_pi_controller.md rules R131, R132, R134). -/

namespace Sys2Proof.Fp

/-! ## Fields -/

theorem expField_lt (a : Word) : expField a < 256 := by
  unfold expField
  exact BitVec.isLt _

theorem fracField_lt (a : Word) : fracField a < 2 ^ 23 := by
  unfold fracField
  exact BitVec.isLt _

theorem expField_eq (a : Word) : expField a = a.toNat / 2 ^ 23 % 256 := by
  simp [expField, BitVec.extractLsb'_toNat, Nat.shiftRight_eq_div_pow]

theorem fracField_eq (a : Word) : fracField a = a.toNat % 2 ^ 23 := by
  simp [fracField, BitVec.extractLsb'_toNat]

theorem sign_eq (a : Word) : sign a = decide (2 ^ 31 ≤ a.toNat) := by
  simp [sign, BitVec.msb_eq_decide]

theorem pack_toNat {bits : Nat} (h : bits < 2 ^ 31) (neg : Bool) :
    (pack neg bits).toNat = (if neg then 2 ^ 31 else 0) + bits := by
  simp only [pack, BitVec.toNat_ofNat]
  split <;> omega

@[simp] theorem sign_pack {bits : Nat} (h : bits < 2 ^ 31) (neg : Bool) :
    sign (pack neg bits) = neg := by
  rw [sign_eq, pack_toNat h]
  cases neg
  · simp only [Bool.false_eq_true, if_false, Nat.zero_add, decide_eq_false_iff_not]
    omega
  · simp only [if_true, decide_eq_true_eq]
    omega

@[simp] theorem expField_pack {bits : Nat} (h : bits < 2 ^ 31) (neg : Bool) :
    expField (pack neg bits) = bits / 2 ^ 23 := by
  rw [expField_eq, pack_toNat h]
  split <;> omega

@[simp] theorem fracField_pack {bits : Nat} (h : bits < 2 ^ 31) (neg : Bool) :
    fracField (pack neg bits) = bits % 2 ^ 23 := by
  rw [fracField_eq, pack_toNat h]
  split <;> omega

/-! ## Magnitudes -/

/-- The magnitude that bits 30:0 stand for. -/
def magOfBits (b : Nat) : Nat :=
  if b / 2 ^ 23 = 0 then b % 2 ^ 23 else (2 ^ 23 + b % 2 ^ 23) * 2 ^ (b / 2 ^ 23 - 1)

@[simp] theorem mag_pack {bits : Nat} (h : bits < 2 ^ 31) (neg : Bool) :
    mag (pack neg bits) = magOfBits bits := by
  simp only [mag, magOfBits, expField_pack h, fracField_pack h]

theorem value_pack {bits : Nat} (h : bits < 2 ^ 31) (neg : Bool) :
    value (pack neg bits) = if neg then -(magOfBits bits : Int) else (magOfBits bits : Int) := by
  simp only [value, sign_pack h, mag_pack h]

theorem natAbs_value (a : Word) : (value a).natAbs = mag a := by
  unfold value
  split <;> simp

theorem abs_value (a : Word) : |value a| = (mag a : Int) := by
  rw [← natAbs_value, Int.natCast_natAbs]

/-- A significand `r` with spacing `2^s` stands for the magnitude `r * 2^s`: a normal one has its
leading bit, and one of `2^24` has carried into the exponent. -/
theorem magOfBits_scaled {s r : Nat} (hr : r ≤ 2 ^ 24) (hs : s = 0 ∨ 2 ^ 23 ≤ r) :
    magOfBits (s * 2 ^ 23 + r) = r * 2 ^ s := by
  unfold magOfBits
  rcases Nat.lt_or_ge r (2 ^ 23) with h | h
  · obtain rfl : s = 0 := by omega
    rw [if_pos (by omega)]
    omega
  · rcases Nat.lt_or_eq_of_le hr with h' | rfl
    · have e : (s * 2 ^ 23 + r) / 2 ^ 23 = s + 1 := by omega
      have m : (s * 2 ^ 23 + r) % 2 ^ 23 = r - 2 ^ 23 := by omega
      rw [e, m, if_neg (by omega), Nat.add_sub_cancel' h, Nat.add_sub_cancel]
    · have e : (s * 2 ^ 23 + 2 ^ 24) / 2 ^ 23 = s + 2 := by omega
      have m : (s * 2 ^ 23 + 2 ^ 24) % 2 ^ 23 = 0 := by omega
      rw [e, m, if_neg (by omega), show s + 2 - 1 = s + 1 from rfl, pow_succ]
      ring

/-- A greater pattern of bits 30:0 is a greater magnitude. -/
theorem magOfBits_succ (b : Nat) : magOfBits b < magOfBits (b + 1) := by
  obtain ⟨s, r, hr, hs, rfl⟩ : ∃ s r, r < 2 ^ 24 ∧ (s = 0 ∨ 2 ^ 23 ≤ r) ∧ b = s * 2 ^ 23 + r := by
    by_cases h : b / 2 ^ 23 = 0
    · exact ⟨0, b, by omega, .inl rfl, by omega⟩
    · exact ⟨b / 2 ^ 23 - 1, 2 ^ 23 + b % 2 ^ 23, by omega, by omega, by omega⟩
  rw [magOfBits_scaled hr.le hs, Nat.add_assoc,
    magOfBits_scaled hr (hs.imp_right (by omega))]
  exact Nat.mul_lt_mul_of_pos_right (by omega) (Nat.two_pow_pos s)

theorem magOfBits_strictMono : StrictMono magOfBits := strictMono_nat_of_lt_succ magOfBits_succ

theorem magOfBits_infBits : magOfBits infBits = 2 ^ 277 := by
  decide +kernel

/-- The bits of `2^k`, in units of `2^-149`. -/
theorem magOfBits_two_pow (k : Nat) : magOfBits ((127 + k) * 2 ^ 23) = 2 ^ (k + 149) := by
  have h := magOfBits_scaled (s := 126 + k) (r := 2 ^ 23) (by omega) (by omega)
  rw [show (127 + k) * 2 ^ 23 = (126 + k) * 2 ^ 23 + 2 ^ 23 by ring, h, ← pow_add]
  congr 1
  omega

/-! ## Rounding -/

/-- `nearestEven` is within half a unit. -/
theorem nearestEven_near {n d : Nat} (hd : 0 < d) :
    2 * n ≤ 2 * (d * nearestEven n d) + d ∧ 2 * (d * nearestEven n d) ≤ 2 * n + d := by
  have h := Nat.div_add_mod n d
  have hm := Nat.mod_lt n hd
  unfold nearestEven
  split
  · omega
  · split
    · rw [Nat.mul_add, Nat.mul_one]
      omega
    · rcases Nat.mod_two_eq_zero_or_one (n / d) with e | e <;> rw [e]
      · simp only [Nat.add_zero]
        omega
      · rw [Nat.mul_add, Nat.mul_one]
        omega

/-- `nearestEven` keeps an upper bound. -/
theorem nearestEven_le {n d k : Nat} (hd : 0 < d) (h : n ≤ d * k) : nearestEven n d ≤ k := by
  by_contra hk
  have h1 := (nearestEven_near (n := n) hd).2
  have h2 : d * (k + 1) ≤ d * nearestEven n d := Nat.mul_le_mul_left d (by omega)
  have h3 := Nat.mul_add d k 1
  omega

/-- `nearestEven` keeps a lower bound. -/
theorem le_nearestEven {n d k : Nat} (hd : 0 < d) (h : d * k ≤ n) : k ≤ nearestEven n d := by
  by_contra hk
  have h1 := (nearestEven_near (n := n) hd).1
  have h2 : d * (nearestEven n d + 1) ≤ d * k := Nat.mul_le_mul_left d (by omega)
  have h3 := Nat.mul_add d (nearestEven n d) 1
  omega

/-- `nearestEven` of a multiple is exact. -/
theorem nearestEven_mul {d : Nat} (hd : 0 < d) (k : Nat) : nearestEven (d * k) d = k :=
  le_antisymm (nearestEven_le hd le_rfl) (le_nearestEven hd le_rfl)

/-- The magnitude lies below `2^24` units of the spacing. -/
theorem lt_spacing {n d : Nat} (hd : 0 < d) : n * 2 ^ 149 < d * 2 ^ spacing n d * 2 ^ 24 := by
  have h : n * 2 ^ 149 / d < 2 ^ (Nat.log2 (n * 2 ^ 149 / d) + 1) := Nat.lt_log2_self
  have h' : n * 2 ^ 149 / d < 2 ^ (spacing n d + 24) :=
    lt_of_lt_of_le h (Nat.pow_le_pow_right (by omega) (by unfold spacing; omega))
  rw [Nat.div_lt_iff_lt_mul hd, pow_add] at h'
  linarith [Nat.mul_comm d (2 ^ spacing n d)]

/-- A magnitude of a spacing above the least one has a leading bit. -/
theorem spacing_le {n d : Nat} (hd : 0 < d) (hs : spacing n d ≠ 0) :
    d * 2 ^ spacing n d * 2 ^ 23 ≤ n * 2 ^ 149 := by
  have ht : n * 2 ^ 149 / d ≠ 0 := by
    intro h
    exact hs (by rw [spacing, h]; rfl)
  have h := Nat.log2_self_le ht
  have e : Nat.log2 (n * 2 ^ 149 / d) = spacing n d + 23 := by
    unfold spacing at hs ⊢
    omega
  rw [e, Nat.le_div_iff_mul_le hd, pow_add] at h
  linarith [Nat.mul_comm d (2 ^ spacing n d)]

/-- The rounded significand. -/
def significand (n d : Nat) : Nat := nearestEven (n * 2 ^ 149) (d * 2 ^ spacing n d)

/-- A bound in units of the spacing bounds the significand. -/
theorem significand_le_of {n d k : Nat} (hd : 0 < d) (h : n * 2 ^ 149 ≤ d * 2 ^ spacing n d * k) :
    significand n d ≤ k := by
  unfold significand
  exact nearestEven_le (Nat.mul_pos hd (Nat.two_pow_pos _)) h

/-- A bound in units of the spacing bounds the significand. -/
theorem le_significand_of {n d k : Nat} (hd : 0 < d) (h : d * 2 ^ spacing n d * k ≤ n * 2 ^ 149) :
    k ≤ significand n d := by
  unfold significand
  exact le_nearestEven (Nat.mul_pos hd (Nat.two_pow_pos _)) h

theorem significand_le {n d : Nat} (hd : 0 < d) : significand n d ≤ 2 ^ 24 :=
  significand_le_of hd (lt_spacing hd).le

theorem le_significand {n d : Nat} (hd : 0 < d) (hs : spacing n d ≠ 0) :
    2 ^ 23 ≤ significand n d :=
  le_significand_of hd (spacing_le hd hs)

/-- The magnitude of the rounded significand, before the limit of the largest finite value. -/
theorem magOfBits_significand {n d : Nat} (hd : 0 < d) :
    magOfBits (spacing n d * 2 ^ 23 + significand n d) = significand n d * 2 ^ spacing n d :=
  magOfBits_scaled (significand_le hd) (by
    by_cases h : spacing n d = 0
    · exact .inl h
    · exact .inr (le_significand hd h))

theorem roundBits_eq (n d : Nat) :
    roundBits n d = min (spacing n d * 2 ^ 23 + significand n d) infBits := rfl

theorem roundBits_le (n d : Nat) : roundBits n d ≤ infBits := min_le_right _ _

theorem roundBits_lt (n d : Nat) : roundBits n d < 2 ^ 31 :=
  lt_of_le_of_lt (roundBits_le n d) (by decide)

/-- Rounding never gives a NaN. -/
@[simp] theorem isNan_round (neg : Bool) (n d : Nat) : isNan (round neg n d) = false := by
  have h := roundBits_le n d
  simp only [isNan, round, expField_pack (roundBits_lt n d), fracField_pack (roundBits_lt n d),
    Bool.and_eq_false_iff, beq_eq_false_iff_ne, bne_eq_false_iff_eq, infBits] at h ⊢
  omega

theorem sign_round (neg : Bool) (n d : Nat) : sign (round neg n d) = neg :=
  sign_pack (roundBits_lt n d) neg

theorem isFinite_round (neg : Bool) (n d : Nat) :
    isFinite (round neg n d) = decide (roundBits n d < infBits) := by
  have h := roundBits_le n d
  rw [isFinite, round, expField_pack (roundBits_lt n d), Bool.eq_iff_iff, bne_iff_ne,
    decide_eq_true_iff]
  unfold infBits at h ⊢
  omega

theorem mag_round (neg : Bool) (n d : Nat) : mag (round neg n d) = magOfBits (roundBits n d) :=
  mag_pack (roundBits_lt n d) neg

/-- The magnitude that rounding gives: the rounded significand times the spacing, or that of infinity. -/
theorem mag_round_eq (neg : Bool) {n d : Nat} (hd : 0 < d) :
    mag (round neg n d) = min (significand n d * 2 ^ spacing n d) (2 ^ 277) := by
  rw [mag_round, roundBits_eq, magOfBits_strictMono.monotone.map_min, magOfBits_significand hd,
    magOfBits_infBits]

/-- A rounded value is finite exactly if its magnitude is below that of infinity. -/
theorem isFinite_round_iff (neg : Bool) (n d : Nat) :
    isFinite (round neg n d) = true ↔ mag (round neg n d) < 2 ^ 277 := by
  rw [isFinite_round, decide_eq_true_eq, mag_round, ← magOfBits_infBits,
    magOfBits_strictMono.lt_iff_lt]

/-- Rounding keeps an upper bound that is a power of 2. -/
theorem mag_round_le (neg : Bool) {n d k : Nat} (hd : 0 < d) (h : n * 2 ^ 149 ≤ d * 2 ^ k) :
    mag (round neg n d) ≤ 2 ^ k := by
  rw [mag_round_eq neg hd]
  refine (min_le_left _ _).trans ?_
  by_cases hs : spacing n d = 0
  · rw [hs, pow_zero, Nat.mul_one]
    refine significand_le_of hd ?_
    rw [hs, pow_zero, Nat.mul_one]
    exact h
  · have h1 : d * 2 ^ spacing n d * 2 ^ 23 ≤ d * 2 ^ k := (spacing_le hd hs).trans h
    rw [Nat.mul_assoc, ← pow_add] at h1
    have h2 : spacing n d + 23 ≤ k :=
      (Nat.pow_le_pow_iff_right Nat.one_lt_two).mp (Nat.le_of_mul_le_mul_left h1 hd)
    replace h2 : spacing n d ≤ k := by omega
    obtain ⟨j, rfl⟩ := Nat.exists_eq_add_of_le h2
    have h3 : significand n d ≤ 2 ^ j := significand_le_of hd (by rw [Nat.mul_assoc, ← pow_add]; exact h)
    exact (Nat.mul_le_mul_right _ h3).trans_eq (by rw [← pow_add, Nat.add_comm])

/-- Rounding keeps a lower bound that is a power of 2. -/
theorem le_mag_round (neg : Bool) {n d k : Nat} (hd : 0 < d) (hk : k ≤ 277)
    (h : d * 2 ^ k ≤ n * 2 ^ 149) : 2 ^ k ≤ mag (round neg n d) := by
  rw [mag_round_eq neg hd]
  refine le_min ?_ (Nat.pow_le_pow_right (by omega) hk)
  rcases Nat.lt_or_ge k (spacing n d) with hlt | hge
  · have hs : spacing n d ≠ 0 := by omega
    calc 2 ^ k ≤ 2 ^ spacing n d := Nat.pow_le_pow_right (by omega) hlt.le
      _ ≤ significand n d * 2 ^ spacing n d :=
        Nat.le_mul_of_pos_left _ (lt_of_lt_of_le (by omega) (le_significand hd hs))
  · obtain ⟨j, rfl⟩ := Nat.exists_eq_add_of_le hge
    have h3 : 2 ^ j ≤ significand n d := le_significand_of hd (by rw [Nat.mul_assoc, ← pow_add]; exact h)
    exact (by rw [← pow_add, Nat.add_comm] : 2 ^ (spacing n d + j) = 2 ^ j * 2 ^ spacing n d).trans_le
      (Nat.mul_le_mul_right _ h3)

/-- A number that is a multiple of the spacing is rounded to itself. -/
theorem significand_exact {n d k : Nat} (hd : 0 < d)
    (h : n * 2 ^ 149 = d * 2 ^ spacing n d * k) : significand n d = k := by
  rw [significand, h]
  exact nearestEven_mul (Nat.mul_pos hd (Nat.two_pow_pos _)) k

/-- An integer below `2^24` is represented exactly (R131, R133, R134). -/
theorem mag_round_int (neg : Bool) {k : Nat} (hk : k < 2 ^ 24) :
    mag (round neg k 1) = k * 2 ^ 149 := by
  have hsp : spacing k 1 ≤ 149 := by
    by_contra hc
    have h1 := spacing_le (n := k) (d := 1) (by omega) (by omega)
    have h2 : (2 : Nat) ^ 150 ≤ 2 ^ spacing k 1 := Nat.pow_le_pow_right (by omega) (by omega)
    have h3 : k * 2 ^ 149 < 2 ^ 24 * 2 ^ 149 := Nat.mul_lt_mul_of_pos_right hk (Nat.two_pow_pos _)
    omega
  have e : k * 2 ^ 149 = 1 * 2 ^ spacing k 1 * (k * 2 ^ (149 - spacing k 1)) := by
    rw [Nat.one_mul, Nat.mul_left_comm, ← pow_add, Nat.add_sub_cancel' hsp]
  rw [mag_round_eq neg (by omega), significand_exact (by omega) e, Nat.mul_assoc, ← pow_add,
    Nat.sub_add_cancel hsp, min_eq_left]
  calc k * 2 ^ 149 ≤ 2 ^ 24 * 2 ^ 149 := Nat.mul_le_mul_right _ hk.le
    _ ≤ 2 ^ 277 := by decide +kernel

/-! ## Patterns -/

/-- A finite pattern's magnitude is below that of infinity. -/
theorem mag_lt {a : Word} (h : isFinite a = true) : mag a < 2 ^ 277 := by
  have h1 := expField_lt a
  have h2 := fracField_lt a
  simp only [isFinite, bne_iff_ne, ne_eq] at h
  unfold mag
  split
  · exact h2.trans (by decide +kernel)
  · calc (2 ^ 23 + fracField a) * 2 ^ (expField a - 1) < 2 ^ 24 * 2 ^ (expField a - 1) :=
          Nat.mul_lt_mul_of_pos_right (by omega) (Nat.two_pow_pos _)
      _ = 2 ^ (24 + (expField a - 1)) := (pow_add 2 24 _).symm
      _ ≤ 2 ^ 277 := Nat.pow_le_pow_right (by omega) (by omega)

/-- A finite value is neither an infinity nor a NaN. -/
theorem not_isNan_of_isFinite {a : Word} (h : isFinite a = true) : isNan a = false := by
  simp_all [isFinite, isNan]

theorem not_isInf_of_isFinite {a : Word} (h : isFinite a = true) : isInf a = false := by
  simp_all [isFinite, isInf]

/-- A pattern is finite, an infinity or a NaN. -/
theorem finite_or_inf_or_nan (a : Word) : isFinite a = true ∨ isInf a = true ∨ isNan a = true := by
  simp only [isFinite, isInf, isNan, bne_iff_ne, Bool.and_eq_true, beq_iff_eq]
  omega

/-- The zeros are the patterns of magnitude 0. -/
theorem isZero_iff (a : Word) : isZero a = true ↔ mag a = 0 := by
  have h2 := fracField_lt a
  simp only [isZero, Bool.and_eq_true, beq_iff_eq, mag]
  constructor
  · rintro ⟨h, h'⟩
    rw [if_pos h, h']
  · intro h
    split at h
    · exact ⟨‹_›, h⟩
    · exact absurd h (Nat.mul_ne_zero (by omega) (Nat.two_pow_pos _).ne')

/-! ## Operations on finite values -/

theorem fmul_finite {a b : Word} (ha : isFinite a = true) (hb : isFinite b = true) :
    fmul a b = round (sign a != sign b) (mag a * mag b) (2 ^ 298) := by
  simp [fmul, not_isNan_of_isFinite ha, not_isNan_of_isFinite hb, not_isInf_of_isFinite ha,
    not_isInf_of_isFinite hb]

theorem fadd_finite {a b : Word} (ha : isFinite a = true) (hb : isFinite b = true) :
    fadd a b = round (if value a + value b = 0 then sign a && sign b
      else decide (value a + value b < 0)) (value a + value b).natAbs (2 ^ 149) := by
  simp [fadd, not_isNan_of_isFinite ha, not_isNan_of_isFinite hb, not_isInf_of_isFinite ha,
    not_isInf_of_isFinite hb]

theorem fdiv_finite {a b : Word} (ha : isFinite a = true) (hb : isFinite b = true)
    (h0 : mag b ≠ 0) : fdiv a b = round (sign a != sign b) (mag a) (mag b) := by
  have hz : isZero b = false := by
    rw [Bool.eq_false_iff]
    exact fun h => h0 ((isZero_iff b).mp h)
  simp [fdiv, not_isNan_of_isFinite ha, not_isNan_of_isFinite hb, not_isInf_of_isFinite ha,
    not_isInf_of_isFinite hb, hz]

/-- A conversion from an integer is never a NaN and at most `2^32`. -/
theorem u2f_finite (v : Word) : isFinite (u2f v) = true ∧ mag (u2f v) ≤ 2 ^ 181 := by
  have h : mag (u2f v) ≤ 2 ^ 181 := mag_round_le false (by omega) (by
    rw [Nat.one_mul, show (2 : Nat) ^ 181 = 2 ^ 32 * 2 ^ 149 from (pow_add 2 32 149).symm ▸ rfl]
    exact Nat.mul_le_mul_right _ v.isLt.le)
  exact ⟨(isFinite_round_iff _ _ _).mpr (lt_of_le_of_lt h (by decide +kernel)), h⟩

/-- A conversion from a signed integer is never a NaN and at most `2^31` in magnitude. -/
theorem i2f_finite (v : Word) : isFinite (i2f v) = true ∧ mag (i2f v) ≤ 2 ^ 180 := by
  have hv : v.toInt.natAbs ≤ 2 ^ 31 := by
    have h1 := BitVec.le_toInt v
    have h2 := BitVec.toInt_lt (x := v)
    norm_num at h1 h2
    omega
  have h : mag (i2f v) ≤ 2 ^ 180 := mag_round_le _ (by omega) (by
    rw [Nat.one_mul, show (2 : Nat) ^ 180 = 2 ^ 31 * 2 ^ 149 from (pow_add 2 31 149).symm ▸ rfl]
    exact Nat.mul_le_mul_right _ hv)
  exact ⟨(isFinite_round_iff _ _ _).mpr (lt_of_le_of_lt h (by decide +kernel)), h⟩

/-- The bound on a gain, as a magnitude (spec/00_scope.md rule R5). -/
theorem gainWithin_iff {g : Word} {k : Nat} (hk : k ≤ 127) :
    gainWithin g k = true ↔ isFinite g = true ∧ mag g ≤ 2 ^ (k + 149) := by
  have hm : mag g = magOfBits (g.toNat % 2 ^ 31) := by
    simp only [mag, magOfBits, expField_eq, fracField_eq]
    rw [show g.toNat % 2 ^ 31 / 2 ^ 23 = g.toNat / 2 ^ 23 % 256 by omega,
      show g.toNat % 2 ^ 31 % 2 ^ 23 = g.toNat % 2 ^ 23 by omega]
  rw [hm, ← magOfBits_two_pow, magOfBits_strictMono.le_iff_le]
  simp only [gainWithin, decide_eq_true_eq, BitVec.extractLsb'_toNat, Nat.shiftRight_zero,
    isFinite, bne_iff_ne, ne_eq, expField_eq]
  omega

end Sys2Proof.Fp
end

