-- ==== Sys2Proof/Laws/State.lean ====
section
/-! SUPPORT. What each register write does to each field of the state, and the same for the operations on the output record. -/

namespace Sys2Proof.Machine

variable (s : State)

/-! ### `State.setRunning` -/

@[simp] theorem State.setRunning_running (v : Bool) : (s.setRunning v).running = v := rfl
@[simp] theorem State.setRunning_cnt (v : Bool) : (s.setRunning v).cnt = s.cnt := rfl
@[simp] theorem State.setRunning_cntOvf (v : Bool) : (s.setRunning v).cntOvf = s.cntOvf := rfl
@[simp] theorem State.setRunning_elapsedTicks (v : Bool) : (s.setRunning v).elapsedTicks = s.elapsedTicks := rfl
@[simp] theorem State.setRunning_targetRate (v : Bool) : (s.setRunning v).targetRate = s.targetRate := rfl
@[simp] theorem State.setRunning_measuredRate (v : Bool) : (s.setRunning v).measuredRate = s.measuredRate := rfl
@[simp] theorem State.setRunning_errorSum (v : Bool) : (s.setRunning v).errorSum = s.errorSum := rfl
@[simp] theorem State.setRunning_output (v : Bool) : (s.setRunning v).output = s.output := rfl
@[simp] theorem State.setRunning_duty (v : Bool) : (s.setRunning v).duty = s.duty := rfl
@[simp] theorem State.setRunning_rb (v : Bool) : (s.setRunning v).rb = s.rb := rfl
@[simp] theorem State.setRunning_writePos (v : Bool) : (s.setRunning v).writePos = s.writePos := rfl
@[simp] theorem State.setRunning_lastMedian (v : Bool) : (s.setRunning v).lastMedian = s.lastMedian := rfl
@[simp] theorem State.setRunning_out (v : Bool) : (s.setRunning v).out = s.out := rfl
@[simp] theorem State.setRunning_inputs (v : Bool) : (s.setRunning v).inputs = s.inputs := rfl
@[simp] theorem State.setRunning_cfg (v : Bool) : (s.setRunning v).cfg = s.cfg := rfl

/-! ### `State.setCnt` -/

@[simp] theorem State.setCnt_running (v : Word) : (s.setCnt v).running = s.running := rfl
@[simp] theorem State.setCnt_cnt (v : Word) : (s.setCnt v).cnt = v := rfl
@[simp] theorem State.setCnt_cntOvf (v : Word) : (s.setCnt v).cntOvf = s.cntOvf := rfl
@[simp] theorem State.setCnt_elapsedTicks (v : Word) : (s.setCnt v).elapsedTicks = s.elapsedTicks := rfl
@[simp] theorem State.setCnt_targetRate (v : Word) : (s.setCnt v).targetRate = s.targetRate := rfl
@[simp] theorem State.setCnt_measuredRate (v : Word) : (s.setCnt v).measuredRate = s.measuredRate := rfl
@[simp] theorem State.setCnt_errorSum (v : Word) : (s.setCnt v).errorSum = s.errorSum := rfl
@[simp] theorem State.setCnt_output (v : Word) : (s.setCnt v).output = s.output := rfl
@[simp] theorem State.setCnt_duty (v : Word) : (s.setCnt v).duty = s.duty := rfl
@[simp] theorem State.setCnt_rb (v : Word) : (s.setCnt v).rb = s.rb := rfl
@[simp] theorem State.setCnt_writePos (v : Word) : (s.setCnt v).writePos = s.writePos := rfl
@[simp] theorem State.setCnt_lastMedian (v : Word) : (s.setCnt v).lastMedian = s.lastMedian := rfl
@[simp] theorem State.setCnt_out (v : Word) : (s.setCnt v).out = s.out := rfl
@[simp] theorem State.setCnt_inputs (v : Word) : (s.setCnt v).inputs = s.inputs := rfl
@[simp] theorem State.setCnt_cfg (v : Word) : (s.setCnt v).cfg = s.cfg := rfl

/-! ### `State.setCntOvf` -/

@[simp] theorem State.setCntOvf_running (v : Bool) : (s.setCntOvf v).running = s.running := rfl
@[simp] theorem State.setCntOvf_cnt (v : Bool) : (s.setCntOvf v).cnt = s.cnt := rfl
@[simp] theorem State.setCntOvf_cntOvf (v : Bool) : (s.setCntOvf v).cntOvf = v := rfl
@[simp] theorem State.setCntOvf_elapsedTicks (v : Bool) : (s.setCntOvf v).elapsedTicks = s.elapsedTicks := rfl
@[simp] theorem State.setCntOvf_targetRate (v : Bool) : (s.setCntOvf v).targetRate = s.targetRate := rfl
@[simp] theorem State.setCntOvf_measuredRate (v : Bool) : (s.setCntOvf v).measuredRate = s.measuredRate := rfl
@[simp] theorem State.setCntOvf_errorSum (v : Bool) : (s.setCntOvf v).errorSum = s.errorSum := rfl
@[simp] theorem State.setCntOvf_output (v : Bool) : (s.setCntOvf v).output = s.output := rfl
@[simp] theorem State.setCntOvf_duty (v : Bool) : (s.setCntOvf v).duty = s.duty := rfl
@[simp] theorem State.setCntOvf_rb (v : Bool) : (s.setCntOvf v).rb = s.rb := rfl
@[simp] theorem State.setCntOvf_writePos (v : Bool) : (s.setCntOvf v).writePos = s.writePos := rfl
@[simp] theorem State.setCntOvf_lastMedian (v : Bool) : (s.setCntOvf v).lastMedian = s.lastMedian := rfl
@[simp] theorem State.setCntOvf_out (v : Bool) : (s.setCntOvf v).out = s.out := rfl
@[simp] theorem State.setCntOvf_inputs (v : Bool) : (s.setCntOvf v).inputs = s.inputs := rfl
@[simp] theorem State.setCntOvf_cfg (v : Bool) : (s.setCntOvf v).cfg = s.cfg := rfl

/-! ### `State.setElapsedTicks` -/

@[simp] theorem State.setElapsedTicks_running (v : Word) : (s.setElapsedTicks v).running = s.running := rfl
@[simp] theorem State.setElapsedTicks_cnt (v : Word) : (s.setElapsedTicks v).cnt = s.cnt := rfl
@[simp] theorem State.setElapsedTicks_cntOvf (v : Word) : (s.setElapsedTicks v).cntOvf = s.cntOvf := rfl
@[simp] theorem State.setElapsedTicks_elapsedTicks (v : Word) : (s.setElapsedTicks v).elapsedTicks = v := rfl
@[simp] theorem State.setElapsedTicks_targetRate (v : Word) : (s.setElapsedTicks v).targetRate = s.targetRate := rfl
@[simp] theorem State.setElapsedTicks_measuredRate (v : Word) : (s.setElapsedTicks v).measuredRate = s.measuredRate := rfl
@[simp] theorem State.setElapsedTicks_errorSum (v : Word) : (s.setElapsedTicks v).errorSum = s.errorSum := rfl
@[simp] theorem State.setElapsedTicks_output (v : Word) : (s.setElapsedTicks v).output = s.output := rfl
@[simp] theorem State.setElapsedTicks_duty (v : Word) : (s.setElapsedTicks v).duty = s.duty := rfl
@[simp] theorem State.setElapsedTicks_rb (v : Word) : (s.setElapsedTicks v).rb = s.rb := rfl
@[simp] theorem State.setElapsedTicks_writePos (v : Word) : (s.setElapsedTicks v).writePos = s.writePos := rfl
@[simp] theorem State.setElapsedTicks_lastMedian (v : Word) : (s.setElapsedTicks v).lastMedian = s.lastMedian := rfl
@[simp] theorem State.setElapsedTicks_out (v : Word) : (s.setElapsedTicks v).out = s.out := rfl
@[simp] theorem State.setElapsedTicks_inputs (v : Word) : (s.setElapsedTicks v).inputs = s.inputs := rfl
@[simp] theorem State.setElapsedTicks_cfg (v : Word) : (s.setElapsedTicks v).cfg = s.cfg := rfl

/-! ### `State.setTargetRate` -/

@[simp] theorem State.setTargetRate_running (v : Word) : (s.setTargetRate v).running = s.running := rfl
@[simp] theorem State.setTargetRate_cnt (v : Word) : (s.setTargetRate v).cnt = s.cnt := rfl
@[simp] theorem State.setTargetRate_cntOvf (v : Word) : (s.setTargetRate v).cntOvf = s.cntOvf := rfl
@[simp] theorem State.setTargetRate_elapsedTicks (v : Word) : (s.setTargetRate v).elapsedTicks = s.elapsedTicks := rfl
@[simp] theorem State.setTargetRate_targetRate (v : Word) : (s.setTargetRate v).targetRate = v := rfl
@[simp] theorem State.setTargetRate_measuredRate (v : Word) : (s.setTargetRate v).measuredRate = s.measuredRate := rfl
@[simp] theorem State.setTargetRate_errorSum (v : Word) : (s.setTargetRate v).errorSum = s.errorSum := rfl
@[simp] theorem State.setTargetRate_output (v : Word) : (s.setTargetRate v).output = s.output := rfl
@[simp] theorem State.setTargetRate_duty (v : Word) : (s.setTargetRate v).duty = s.duty := rfl
@[simp] theorem State.setTargetRate_rb (v : Word) : (s.setTargetRate v).rb = s.rb := rfl
@[simp] theorem State.setTargetRate_writePos (v : Word) : (s.setTargetRate v).writePos = s.writePos := rfl
@[simp] theorem State.setTargetRate_lastMedian (v : Word) : (s.setTargetRate v).lastMedian = s.lastMedian := rfl
@[simp] theorem State.setTargetRate_out (v : Word) : (s.setTargetRate v).out = s.out := rfl
@[simp] theorem State.setTargetRate_inputs (v : Word) : (s.setTargetRate v).inputs = s.inputs := rfl
@[simp] theorem State.setTargetRate_cfg (v : Word) : (s.setTargetRate v).cfg = s.cfg := rfl

/-! ### `State.setMeasuredRate` -/

@[simp] theorem State.setMeasuredRate_running (v : Word) : (s.setMeasuredRate v).running = s.running := rfl
@[simp] theorem State.setMeasuredRate_cnt (v : Word) : (s.setMeasuredRate v).cnt = s.cnt := rfl
@[simp] theorem State.setMeasuredRate_cntOvf (v : Word) : (s.setMeasuredRate v).cntOvf = s.cntOvf := rfl
@[simp] theorem State.setMeasuredRate_elapsedTicks (v : Word) : (s.setMeasuredRate v).elapsedTicks = s.elapsedTicks := rfl
@[simp] theorem State.setMeasuredRate_targetRate (v : Word) : (s.setMeasuredRate v).targetRate = s.targetRate := rfl
@[simp] theorem State.setMeasuredRate_measuredRate (v : Word) : (s.setMeasuredRate v).measuredRate = v := rfl
@[simp] theorem State.setMeasuredRate_errorSum (v : Word) : (s.setMeasuredRate v).errorSum = s.errorSum := rfl
@[simp] theorem State.setMeasuredRate_output (v : Word) : (s.setMeasuredRate v).output = s.output := rfl
@[simp] theorem State.setMeasuredRate_duty (v : Word) : (s.setMeasuredRate v).duty = s.duty := rfl
@[simp] theorem State.setMeasuredRate_rb (v : Word) : (s.setMeasuredRate v).rb = s.rb := rfl
@[simp] theorem State.setMeasuredRate_writePos (v : Word) : (s.setMeasuredRate v).writePos = s.writePos := rfl
@[simp] theorem State.setMeasuredRate_lastMedian (v : Word) : (s.setMeasuredRate v).lastMedian = s.lastMedian := rfl
@[simp] theorem State.setMeasuredRate_out (v : Word) : (s.setMeasuredRate v).out = s.out := rfl
@[simp] theorem State.setMeasuredRate_inputs (v : Word) : (s.setMeasuredRate v).inputs = s.inputs := rfl
@[simp] theorem State.setMeasuredRate_cfg (v : Word) : (s.setMeasuredRate v).cfg = s.cfg := rfl

/-! ### `State.setErrorSum` -/

@[simp] theorem State.setErrorSum_running (v : Word) : (s.setErrorSum v).running = s.running := rfl
@[simp] theorem State.setErrorSum_cnt (v : Word) : (s.setErrorSum v).cnt = s.cnt := rfl
@[simp] theorem State.setErrorSum_cntOvf (v : Word) : (s.setErrorSum v).cntOvf = s.cntOvf := rfl
@[simp] theorem State.setErrorSum_elapsedTicks (v : Word) : (s.setErrorSum v).elapsedTicks = s.elapsedTicks := rfl
@[simp] theorem State.setErrorSum_targetRate (v : Word) : (s.setErrorSum v).targetRate = s.targetRate := rfl
@[simp] theorem State.setErrorSum_measuredRate (v : Word) : (s.setErrorSum v).measuredRate = s.measuredRate := rfl
@[simp] theorem State.setErrorSum_errorSum (v : Word) : (s.setErrorSum v).errorSum = v := rfl
@[simp] theorem State.setErrorSum_output (v : Word) : (s.setErrorSum v).output = s.output := rfl
@[simp] theorem State.setErrorSum_duty (v : Word) : (s.setErrorSum v).duty = s.duty := rfl
@[simp] theorem State.setErrorSum_rb (v : Word) : (s.setErrorSum v).rb = s.rb := rfl
@[simp] theorem State.setErrorSum_writePos (v : Word) : (s.setErrorSum v).writePos = s.writePos := rfl
@[simp] theorem State.setErrorSum_lastMedian (v : Word) : (s.setErrorSum v).lastMedian = s.lastMedian := rfl
@[simp] theorem State.setErrorSum_out (v : Word) : (s.setErrorSum v).out = s.out := rfl
@[simp] theorem State.setErrorSum_inputs (v : Word) : (s.setErrorSum v).inputs = s.inputs := rfl
@[simp] theorem State.setErrorSum_cfg (v : Word) : (s.setErrorSum v).cfg = s.cfg := rfl

/-! ### `State.setOutput` -/

@[simp] theorem State.setOutput_running (v : Word) : (s.setOutput v).running = s.running := rfl
@[simp] theorem State.setOutput_cnt (v : Word) : (s.setOutput v).cnt = s.cnt := rfl
@[simp] theorem State.setOutput_cntOvf (v : Word) : (s.setOutput v).cntOvf = s.cntOvf := rfl
@[simp] theorem State.setOutput_elapsedTicks (v : Word) : (s.setOutput v).elapsedTicks = s.elapsedTicks := rfl
@[simp] theorem State.setOutput_targetRate (v : Word) : (s.setOutput v).targetRate = s.targetRate := rfl
@[simp] theorem State.setOutput_measuredRate (v : Word) : (s.setOutput v).measuredRate = s.measuredRate := rfl
@[simp] theorem State.setOutput_errorSum (v : Word) : (s.setOutput v).errorSum = s.errorSum := rfl
@[simp] theorem State.setOutput_output (v : Word) : (s.setOutput v).output = v := rfl
@[simp] theorem State.setOutput_duty (v : Word) : (s.setOutput v).duty = s.duty := rfl
@[simp] theorem State.setOutput_rb (v : Word) : (s.setOutput v).rb = s.rb := rfl
@[simp] theorem State.setOutput_writePos (v : Word) : (s.setOutput v).writePos = s.writePos := rfl
@[simp] theorem State.setOutput_lastMedian (v : Word) : (s.setOutput v).lastMedian = s.lastMedian := rfl
@[simp] theorem State.setOutput_out (v : Word) : (s.setOutput v).out = s.out := rfl
@[simp] theorem State.setOutput_inputs (v : Word) : (s.setOutput v).inputs = s.inputs := rfl
@[simp] theorem State.setOutput_cfg (v : Word) : (s.setOutput v).cfg = s.cfg := rfl

/-! ### `State.setDuty` -/

@[simp] theorem State.setDuty_running (v : Word) : (s.setDuty v).running = s.running := rfl
@[simp] theorem State.setDuty_cnt (v : Word) : (s.setDuty v).cnt = s.cnt := rfl
@[simp] theorem State.setDuty_cntOvf (v : Word) : (s.setDuty v).cntOvf = s.cntOvf := rfl
@[simp] theorem State.setDuty_elapsedTicks (v : Word) : (s.setDuty v).elapsedTicks = s.elapsedTicks := rfl
@[simp] theorem State.setDuty_targetRate (v : Word) : (s.setDuty v).targetRate = s.targetRate := rfl
@[simp] theorem State.setDuty_measuredRate (v : Word) : (s.setDuty v).measuredRate = s.measuredRate := rfl
@[simp] theorem State.setDuty_errorSum (v : Word) : (s.setDuty v).errorSum = s.errorSum := rfl
@[simp] theorem State.setDuty_output (v : Word) : (s.setDuty v).output = s.output := rfl
@[simp] theorem State.setDuty_duty (v : Word) : (s.setDuty v).duty = v := rfl
@[simp] theorem State.setDuty_rb (v : Word) : (s.setDuty v).rb = s.rb := rfl
@[simp] theorem State.setDuty_writePos (v : Word) : (s.setDuty v).writePos = s.writePos := rfl
@[simp] theorem State.setDuty_lastMedian (v : Word) : (s.setDuty v).lastMedian = s.lastMedian := rfl
@[simp] theorem State.setDuty_out (v : Word) : (s.setDuty v).out = s.out := rfl
@[simp] theorem State.setDuty_inputs (v : Word) : (s.setDuty v).inputs = s.inputs := rfl
@[simp] theorem State.setDuty_cfg (v : Word) : (s.setDuty v).cfg = s.cfg := rfl

/-! ### `State.setRb` -/

@[simp] theorem State.setRb_running (v : Memory) : (s.setRb v).running = s.running := rfl
@[simp] theorem State.setRb_cnt (v : Memory) : (s.setRb v).cnt = s.cnt := rfl
@[simp] theorem State.setRb_cntOvf (v : Memory) : (s.setRb v).cntOvf = s.cntOvf := rfl
@[simp] theorem State.setRb_elapsedTicks (v : Memory) : (s.setRb v).elapsedTicks = s.elapsedTicks := rfl
@[simp] theorem State.setRb_targetRate (v : Memory) : (s.setRb v).targetRate = s.targetRate := rfl
@[simp] theorem State.setRb_measuredRate (v : Memory) : (s.setRb v).measuredRate = s.measuredRate := rfl
@[simp] theorem State.setRb_errorSum (v : Memory) : (s.setRb v).errorSum = s.errorSum := rfl
@[simp] theorem State.setRb_output (v : Memory) : (s.setRb v).output = s.output := rfl
@[simp] theorem State.setRb_duty (v : Memory) : (s.setRb v).duty = s.duty := rfl
@[simp] theorem State.setRb_rb (v : Memory) : (s.setRb v).rb = v := rfl
@[simp] theorem State.setRb_writePos (v : Memory) : (s.setRb v).writePos = s.writePos := rfl
@[simp] theorem State.setRb_lastMedian (v : Memory) : (s.setRb v).lastMedian = s.lastMedian := rfl
@[simp] theorem State.setRb_out (v : Memory) : (s.setRb v).out = s.out := rfl
@[simp] theorem State.setRb_inputs (v : Memory) : (s.setRb v).inputs = s.inputs := rfl
@[simp] theorem State.setRb_cfg (v : Memory) : (s.setRb v).cfg = s.cfg := rfl

/-! ### `State.setWritePos` -/

@[simp] theorem State.setWritePos_running (v : BitVec 4) : (s.setWritePos v).running = s.running := rfl
@[simp] theorem State.setWritePos_cnt (v : BitVec 4) : (s.setWritePos v).cnt = s.cnt := rfl
@[simp] theorem State.setWritePos_cntOvf (v : BitVec 4) : (s.setWritePos v).cntOvf = s.cntOvf := rfl
@[simp] theorem State.setWritePos_elapsedTicks (v : BitVec 4) : (s.setWritePos v).elapsedTicks = s.elapsedTicks := rfl
@[simp] theorem State.setWritePos_targetRate (v : BitVec 4) : (s.setWritePos v).targetRate = s.targetRate := rfl
@[simp] theorem State.setWritePos_measuredRate (v : BitVec 4) : (s.setWritePos v).measuredRate = s.measuredRate := rfl
@[simp] theorem State.setWritePos_errorSum (v : BitVec 4) : (s.setWritePos v).errorSum = s.errorSum := rfl
@[simp] theorem State.setWritePos_output (v : BitVec 4) : (s.setWritePos v).output = s.output := rfl
@[simp] theorem State.setWritePos_duty (v : BitVec 4) : (s.setWritePos v).duty = s.duty := rfl
@[simp] theorem State.setWritePos_rb (v : BitVec 4) : (s.setWritePos v).rb = s.rb := rfl
@[simp] theorem State.setWritePos_writePos (v : BitVec 4) : (s.setWritePos v).writePos = v := rfl
@[simp] theorem State.setWritePos_lastMedian (v : BitVec 4) : (s.setWritePos v).lastMedian = s.lastMedian := rfl
@[simp] theorem State.setWritePos_out (v : BitVec 4) : (s.setWritePos v).out = s.out := rfl
@[simp] theorem State.setWritePos_inputs (v : BitVec 4) : (s.setWritePos v).inputs = s.inputs := rfl
@[simp] theorem State.setWritePos_cfg (v : BitVec 4) : (s.setWritePos v).cfg = s.cfg := rfl

/-! ### `State.setLastMedian` -/

@[simp] theorem State.setLastMedian_running (v : Word) : (s.setLastMedian v).running = s.running := rfl
@[simp] theorem State.setLastMedian_cnt (v : Word) : (s.setLastMedian v).cnt = s.cnt := rfl
@[simp] theorem State.setLastMedian_cntOvf (v : Word) : (s.setLastMedian v).cntOvf = s.cntOvf := rfl
@[simp] theorem State.setLastMedian_elapsedTicks (v : Word) : (s.setLastMedian v).elapsedTicks = s.elapsedTicks := rfl
@[simp] theorem State.setLastMedian_targetRate (v : Word) : (s.setLastMedian v).targetRate = s.targetRate := rfl
@[simp] theorem State.setLastMedian_measuredRate (v : Word) : (s.setLastMedian v).measuredRate = s.measuredRate := rfl
@[simp] theorem State.setLastMedian_errorSum (v : Word) : (s.setLastMedian v).errorSum = s.errorSum := rfl
@[simp] theorem State.setLastMedian_output (v : Word) : (s.setLastMedian v).output = s.output := rfl
@[simp] theorem State.setLastMedian_duty (v : Word) : (s.setLastMedian v).duty = s.duty := rfl
@[simp] theorem State.setLastMedian_rb (v : Word) : (s.setLastMedian v).rb = s.rb := rfl
@[simp] theorem State.setLastMedian_writePos (v : Word) : (s.setLastMedian v).writePos = s.writePos := rfl
@[simp] theorem State.setLastMedian_lastMedian (v : Word) : (s.setLastMedian v).lastMedian = v := rfl
@[simp] theorem State.setLastMedian_out (v : Word) : (s.setLastMedian v).out = s.out := rfl
@[simp] theorem State.setLastMedian_inputs (v : Word) : (s.setLastMedian v).inputs = s.inputs := rfl
@[simp] theorem State.setLastMedian_cfg (v : Word) : (s.setLastMedian v).cfg = s.cfg := rfl

/-! ### `State.setOut` -/

@[simp] theorem State.setOut_running (v : OutRecord) : (s.setOut v).running = s.running := rfl
@[simp] theorem State.setOut_cnt (v : OutRecord) : (s.setOut v).cnt = s.cnt := rfl
@[simp] theorem State.setOut_cntOvf (v : OutRecord) : (s.setOut v).cntOvf = s.cntOvf := rfl
@[simp] theorem State.setOut_elapsedTicks (v : OutRecord) : (s.setOut v).elapsedTicks = s.elapsedTicks := rfl
@[simp] theorem State.setOut_targetRate (v : OutRecord) : (s.setOut v).targetRate = s.targetRate := rfl
@[simp] theorem State.setOut_measuredRate (v : OutRecord) : (s.setOut v).measuredRate = s.measuredRate := rfl
@[simp] theorem State.setOut_errorSum (v : OutRecord) : (s.setOut v).errorSum = s.errorSum := rfl
@[simp] theorem State.setOut_output (v : OutRecord) : (s.setOut v).output = s.output := rfl
@[simp] theorem State.setOut_duty (v : OutRecord) : (s.setOut v).duty = s.duty := rfl
@[simp] theorem State.setOut_rb (v : OutRecord) : (s.setOut v).rb = s.rb := rfl
@[simp] theorem State.setOut_writePos (v : OutRecord) : (s.setOut v).writePos = s.writePos := rfl
@[simp] theorem State.setOut_lastMedian (v : OutRecord) : (s.setOut v).lastMedian = s.lastMedian := rfl
@[simp] theorem State.setOut_out (v : OutRecord) : (s.setOut v).out = v := rfl
@[simp] theorem State.setOut_inputs (v : OutRecord) : (s.setOut v).inputs = s.inputs := rfl
@[simp] theorem State.setOut_cfg (v : OutRecord) : (s.setOut v).cfg = s.cfg := rfl

/-! ### `State.setInputs` -/

@[simp] theorem State.setInputs_running (v : List Input) : (s.setInputs v).running = s.running := rfl
@[simp] theorem State.setInputs_cnt (v : List Input) : (s.setInputs v).cnt = s.cnt := rfl
@[simp] theorem State.setInputs_cntOvf (v : List Input) : (s.setInputs v).cntOvf = s.cntOvf := rfl
@[simp] theorem State.setInputs_elapsedTicks (v : List Input) : (s.setInputs v).elapsedTicks = s.elapsedTicks := rfl
@[simp] theorem State.setInputs_targetRate (v : List Input) : (s.setInputs v).targetRate = s.targetRate := rfl
@[simp] theorem State.setInputs_measuredRate (v : List Input) : (s.setInputs v).measuredRate = s.measuredRate := rfl
@[simp] theorem State.setInputs_errorSum (v : List Input) : (s.setInputs v).errorSum = s.errorSum := rfl
@[simp] theorem State.setInputs_output (v : List Input) : (s.setInputs v).output = s.output := rfl
@[simp] theorem State.setInputs_duty (v : List Input) : (s.setInputs v).duty = s.duty := rfl
@[simp] theorem State.setInputs_rb (v : List Input) : (s.setInputs v).rb = s.rb := rfl
@[simp] theorem State.setInputs_writePos (v : List Input) : (s.setInputs v).writePos = s.writePos := rfl
@[simp] theorem State.setInputs_lastMedian (v : List Input) : (s.setInputs v).lastMedian = s.lastMedian := rfl
@[simp] theorem State.setInputs_out (v : List Input) : (s.setInputs v).out = s.out := rfl
@[simp] theorem State.setInputs_inputs (v : List Input) : (s.setInputs v).inputs = v := rfl
@[simp] theorem State.setInputs_cfg (v : List Input) : (s.setInputs v).cfg = s.cfg := rfl

/-! ### `State.begin` -/

@[simp] theorem State.begin_running : (s.begin).running = s.running := rfl
@[simp] theorem State.begin_cnt : (s.begin).cnt = s.cnt := rfl
@[simp] theorem State.begin_cntOvf : (s.begin).cntOvf = s.cntOvf := rfl
@[simp] theorem State.begin_elapsedTicks : (s.begin).elapsedTicks = s.elapsedTicks := rfl
@[simp] theorem State.begin_targetRate : (s.begin).targetRate = s.targetRate := rfl
@[simp] theorem State.begin_measuredRate : (s.begin).measuredRate = s.measuredRate := rfl
@[simp] theorem State.begin_errorSum : (s.begin).errorSum = s.errorSum := rfl
@[simp] theorem State.begin_output : (s.begin).output = s.output := rfl
@[simp] theorem State.begin_duty : (s.begin).duty = s.duty := rfl
@[simp] theorem State.begin_rb : (s.begin).rb = s.rb := rfl
@[simp] theorem State.begin_writePos : (s.begin).writePos = s.writePos := rfl
@[simp] theorem State.begin_lastMedian : (s.begin).lastMedian = s.lastMedian := rfl
@[simp] theorem State.begin_out : (s.begin).out = OutRecord.none := rfl
@[simp] theorem State.begin_inputs : (s.begin).inputs = s.inputs := rfl
@[simp] theorem State.begin_cfg : (s.begin).cfg = s.cfg := rfl

/-! ### `State.emitMeasReady` -/

@[simp] theorem State.emitMeasReady_running : (s.emitMeasReady).running = s.running := rfl
@[simp] theorem State.emitMeasReady_cnt : (s.emitMeasReady).cnt = s.cnt := rfl
@[simp] theorem State.emitMeasReady_cntOvf : (s.emitMeasReady).cntOvf = s.cntOvf := rfl
@[simp] theorem State.emitMeasReady_elapsedTicks : (s.emitMeasReady).elapsedTicks = s.elapsedTicks := rfl
@[simp] theorem State.emitMeasReady_targetRate : (s.emitMeasReady).targetRate = s.targetRate := rfl
@[simp] theorem State.emitMeasReady_measuredRate : (s.emitMeasReady).measuredRate = s.measuredRate := rfl
@[simp] theorem State.emitMeasReady_errorSum : (s.emitMeasReady).errorSum = s.errorSum := rfl
@[simp] theorem State.emitMeasReady_output : (s.emitMeasReady).output = s.output := rfl
@[simp] theorem State.emitMeasReady_duty : (s.emitMeasReady).duty = s.duty := rfl
@[simp] theorem State.emitMeasReady_rb : (s.emitMeasReady).rb = s.rb := rfl
@[simp] theorem State.emitMeasReady_writePos : (s.emitMeasReady).writePos = s.writePos := rfl
@[simp] theorem State.emitMeasReady_lastMedian : (s.emitMeasReady).lastMedian = s.lastMedian := rfl
@[simp] theorem State.emitMeasReady_out : (s.emitMeasReady).out = { s.out with measReady := true } := rfl
@[simp] theorem State.emitMeasReady_inputs : (s.emitMeasReady).inputs = s.inputs := rfl
@[simp] theorem State.emitMeasReady_cfg : (s.emitMeasReady).cfg = s.cfg := rfl

/-! ### `State.emitPwm` -/

@[simp] theorem State.emitPwm_running (v : Word) : (s.emitPwm v).running = s.running := rfl
@[simp] theorem State.emitPwm_cnt (v : Word) : (s.emitPwm v).cnt = s.cnt := rfl
@[simp] theorem State.emitPwm_cntOvf (v : Word) : (s.emitPwm v).cntOvf = s.cntOvf := rfl
@[simp] theorem State.emitPwm_elapsedTicks (v : Word) : (s.emitPwm v).elapsedTicks = s.elapsedTicks := rfl
@[simp] theorem State.emitPwm_targetRate (v : Word) : (s.emitPwm v).targetRate = s.targetRate := rfl
@[simp] theorem State.emitPwm_measuredRate (v : Word) : (s.emitPwm v).measuredRate = s.measuredRate := rfl
@[simp] theorem State.emitPwm_errorSum (v : Word) : (s.emitPwm v).errorSum = s.errorSum := rfl
@[simp] theorem State.emitPwm_output (v : Word) : (s.emitPwm v).output = s.output := rfl
@[simp] theorem State.emitPwm_duty (v : Word) : (s.emitPwm v).duty = s.duty := rfl
@[simp] theorem State.emitPwm_rb (v : Word) : (s.emitPwm v).rb = s.rb := rfl
@[simp] theorem State.emitPwm_writePos (v : Word) : (s.emitPwm v).writePos = s.writePos := rfl
@[simp] theorem State.emitPwm_lastMedian (v : Word) : (s.emitPwm v).lastMedian = s.lastMedian := rfl
@[simp] theorem State.emitPwm_out (v : Word) : (s.emitPwm v).out = { s.out with pwm := some v } := rfl
@[simp] theorem State.emitPwm_inputs (v : Word) : (s.emitPwm v).inputs = s.inputs := rfl
@[simp] theorem State.emitPwm_cfg (v : Word) : (s.emitPwm v).cfg = s.cfg := rfl

/-! ### `State.emitRes` -/

@[simp] theorem State.emitRes_running (v : Word) : (s.emitRes v).running = s.running := rfl
@[simp] theorem State.emitRes_cnt (v : Word) : (s.emitRes v).cnt = s.cnt := rfl
@[simp] theorem State.emitRes_cntOvf (v : Word) : (s.emitRes v).cntOvf = s.cntOvf := rfl
@[simp] theorem State.emitRes_elapsedTicks (v : Word) : (s.emitRes v).elapsedTicks = s.elapsedTicks := rfl
@[simp] theorem State.emitRes_targetRate (v : Word) : (s.emitRes v).targetRate = s.targetRate := rfl
@[simp] theorem State.emitRes_measuredRate (v : Word) : (s.emitRes v).measuredRate = s.measuredRate := rfl
@[simp] theorem State.emitRes_errorSum (v : Word) : (s.emitRes v).errorSum = s.errorSum := rfl
@[simp] theorem State.emitRes_output (v : Word) : (s.emitRes v).output = s.output := rfl
@[simp] theorem State.emitRes_duty (v : Word) : (s.emitRes v).duty = s.duty := rfl
@[simp] theorem State.emitRes_rb (v : Word) : (s.emitRes v).rb = s.rb := rfl
@[simp] theorem State.emitRes_writePos (v : Word) : (s.emitRes v).writePos = s.writePos := rfl
@[simp] theorem State.emitRes_lastMedian (v : Word) : (s.emitRes v).lastMedian = s.lastMedian := rfl
@[simp] theorem State.emitRes_out (v : Word) : (s.emitRes v).out = { s.out with res := some v } := rfl
@[simp] theorem State.emitRes_inputs (v : Word) : (s.emitRes v).inputs = s.inputs := rfl
@[simp] theorem State.emitRes_cfg (v : Word) : (s.emitRes v).cfg = s.cfg := rfl

/-! ### `rst` -/

@[simp] theorem rst_running : (rst s).running = false := rfl
@[simp] theorem rst_cnt : (rst s).cnt = 0 := rfl
@[simp] theorem rst_cntOvf : (rst s).cntOvf = false := rfl
@[simp] theorem rst_elapsedTicks : (rst s).elapsedTicks = 0 := rfl
@[simp] theorem rst_targetRate : (rst s).targetRate = 0 := rfl
@[simp] theorem rst_measuredRate : (rst s).measuredRate = 0 := rfl
@[simp] theorem rst_errorSum : (rst s).errorSum = 0 := rfl
@[simp] theorem rst_output : (rst s).output = 0 := rfl
@[simp] theorem rst_duty : (rst s).duty = 0 := rfl
@[simp] theorem rst_rb : (rst s).rb = [] := rfl
@[simp] theorem rst_writePos : (rst s).writePos = 0 := rfl
@[simp] theorem rst_lastMedian : (rst s).lastMedian = 0 := rfl
@[simp] theorem rst_out : (rst s).out = OutRecord.none := rfl
@[simp] theorem rst_inputs : (rst s).inputs = s.inputs := rfl
@[simp] theorem rst_cfg : (rst s).cfg = s.cfg := rfl

end Sys2Proof.Machine
end

