-- ==== Sys2Proof/Laws/Memory.lean ====
section
/-! SUPPORT. The ring memory: reading after writing, and that every memory operation keeps the canonical form. -/

namespace Sys2Proof.Machine

/-- The canonical form of a list with a first entry. -/
theorem Memory.wf_cons {a : Nat} {v : Word} {m : Memory} :
    Memory.wf ((a, v) :: m) = true ↔ v ≠ 0 ∧ (∀ c ∈ m, a < c.1) ∧ m.wf = true := by
  simp [Memory.wf, and_assoc]

/-- A slot before every listed one holds 0. -/
theorem Memory.read_eq_zero_of_lt {m : Memory} {i : Nat} (h : ∀ c ∈ m, i < c.1) :
    m.read i = 0 := by
  induction m with
  | nil => rfl
  | cons c m ih =>
    obtain ⟨a, x⟩ := c
    have ha : i < a := h (a, x) (by simp)
    simp only [Memory.read]
    rw [if_neg (by omega)]
    exact ih fun c hc => h c (by simp [hc])

/-- Every entry after a write is the written one or an old one. -/
theorem Memory.mem_write {m : Memory} {i : Nat} {v : Word} {c : Nat × Word} (h : c ∈ m.write i v) :
    c.1 = i ∨ c ∈ m := by
  induction m with
  | nil =>
    simp only [Memory.write] at h
    split at h <;> simp_all
  | cons d m ih =>
    obtain ⟨a, x⟩ := d
    simp only [Memory.write] at h
    split_ifs at h with h1 h2 h3 h4
    · exact .inr h
    · rcases List.mem_cons.mp h with rfl | h
      · exact .inl rfl
      · exact .inr h
    · exact .inr (List.mem_cons_of_mem _ h)
    · rcases List.mem_cons.mp h with rfl | h
      · exact .inl rfl
      · exact .inr (List.mem_cons_of_mem _ h)
    · rcases List.mem_cons.mp h with rfl | h
      · exact .inr List.mem_cons_self
      · exact (ih h).imp_right (List.mem_cons_of_mem _)

/-- A write keeps the canonical form. -/
theorem Memory.write_wf {m : Memory} (hm : m.wf = true) (i : Nat) (v : Word) :
    (m.write i v).wf = true := by
  induction m with
  | nil =>
    simp only [Memory.write]
    split
    · rfl
    · simp_all [Memory.wf]
  | cons c m ih =>
    obtain ⟨a, x⟩ := c
    obtain ⟨hx, ha, hm'⟩ := Memory.wf_cons.mp hm
    simp only [Memory.write]
    split_ifs with h1 h2 h3 h4
    · exact hm
    · refine Memory.wf_cons.mpr ⟨h2, fun c hc => ?_, hm⟩
      rcases List.mem_cons.mp hc with rfl | hc
      · exact h1
      · exact h1.trans (ha c hc)
    · exact hm'
    · exact Memory.wf_cons.mpr ⟨h4, fun c hc => h3 ▸ ha c hc, hm'⟩
    · refine Memory.wf_cons.mpr ⟨hx, fun c hc => ?_, ih hm'⟩
      rcases Memory.mem_write hc with h | h
      · omega
      · exact ha c h

/-- A write to a slot of the ring lists only slots of the ring. -/
theorem Memory.write_within {n : Nat} {m : Memory} (hm : m.within n = true) {i : Nat} (hi : i < n)
    (v : Word) : (m.write i v).within n = true := by
  simp only [Memory.within, List.all_eq_true, decide_eq_true_eq] at *
  intro c hc
  rcases Memory.mem_write hc with h | h
  · omega
  · exact hm c h

/-- A read after a write gives the written word in the written slot and the old word in every other. -/
theorem Memory.read_write {m : Memory} (hm : m.wf = true) (i j : Nat) (v : Word) :
    (m.write i v).read j = if j = i then v else m.read j := by
  induction m with
  | nil =>
    by_cases hv : v = 0
    · simp [Memory.write, Memory.read, hv]
    · simp only [Memory.write, if_neg hv, Memory.read, eq_comm]
  | cons c m ih =>
    obtain ⟨a, x⟩ := c
    obtain ⟨-, ha, hm'⟩ := Memory.wf_cons.mp hm
    have early : ∀ k, k ≤ a → Memory.read m k = 0 := fun k hk =>
      Memory.read_eq_zero_of_lt fun c hc => lt_of_le_of_lt hk (ha c hc)
    rcases lt_trichotomy i a with h | rfl | h
    · by_cases hv : v = 0
      · simp only [Memory.write, h, hv, if_true, Memory.read]
        by_cases hj : j = i
        · rw [if_pos hj, if_neg (by omega), early j (by omega)]
        · rw [if_neg hj]
      · simp only [Memory.write, h, hv, if_true, if_false, Memory.read, eq_comm]
    · by_cases hv : v = 0
      · simp only [Memory.write, hv, lt_irrefl, if_true, if_false, Memory.read]
        by_cases hj : j = i
        · rw [if_pos hj, early j (by omega)]
        · rw [if_neg hj, if_neg (Ne.symm hj)]
      · simp only [Memory.write, hv, lt_irrefl, if_true, if_false, Memory.read]
        by_cases hj : j = i
        · rw [if_pos hj, if_pos hj.symm]
        · rw [if_neg hj, if_neg (Ne.symm hj), if_neg (Ne.symm hj)]
    · simp only [Memory.write, Memory.read, ih hm', if_neg (show ¬i < a by omega),
        if_neg (show ¬i = a by omega)]
      by_cases hj : j = i
      · rw [if_pos hj, if_pos hj, if_neg (by omega)]
      · rw [if_neg hj, if_neg hj]

/-- The reset memory lists nothing and is in canonical form. -/
theorem reset_rb_wf : State.reset.rb.wf = true := rfl

/-- What `MemRead` can do. -/
theorem memRead_eq_next {n : Nat} {m : Memory} {i : Nat} {v : Word} :
    memRead n m i = .next v ↔ i < n ∧ m.read i = v := by
  unfold memRead
  split <;> simp_all

/-- What `MemWrite` can do. -/
theorem memWrite_eq_next {n : Nat} {m m' : Memory} {i : Nat} {v : Word} :
    memWrite n m i v = .next m' ↔ i < n ∧ m.write i v = m' := by
  unfold memWrite
  split <;> simp_all

/-- The ring as a sequence has one word for each slot. -/
@[simp] theorem Memory.length_slots (n : Nat) (m : Memory) : (m.slots n).length = n := by
  simp [Memory.slots]

/-- A word is in the ring if a slot holds it. -/
theorem Memory.mem_slots {n : Nat} {m : Memory} {v : Word} :
    v ∈ m.slots n ↔ ∃ i < n, m.read i = v := by
  simp [Memory.slots]

end Sys2Proof.Machine
end

