-- ==== Sys2Proof/Laws/Ops.lean ====
section
/-! SUPPORT. What each shared operation can answer, once, so that no proof about a command unfolds it. -/

namespace Sys2Proof.Machine

/-! ## Going on and stopping -/

theorem andThen_eq_next {α β : Type} {o : Result α} {k : α → Result β} {b : β} :
    andThen o k = .next b ↔ ∃ a, o = .next a ∧ k a = .next b := by
  cases o <;> simp [andThen]

theorem andThen_eq_fault {α β : Type} {o : Result α} {k : α → Result β} {f : Fault} :
    andThen o k = .fault f ↔ o = .fault f ∨ ∃ a, o = .next a ∧ k a = .fault f := by
  cases o <;> simp [andThen]

theorem andThen_eq_refused {α β : Type} {o : Result α} {k : α → Result β} {r : Refusal} :
    andThen o k = .refused r ↔ o = .refused r ∨ ∃ a, o = .next a ∧ k a = .refused r := by
  cases o <;> simp [andThen]

@[simp] theorem andThen_next {α β : Type} (a : α) (k : α → Result β) :
    andThen (.next a) k = k a := rfl

@[simp] theorem andThen_fault {α β : Type} (f : Fault) (k : α → Result β) :
    andThen (.fault f) k = .fault f := rfl

/-! ## Range checks -/

theorem checkU32_of_lt {site : OverflowSite} {k : Nat} (h : k < 2 ^ 32) :
    checkU32 site k = .next (BitVec.ofNat 32 k) := if_pos h

theorem checkU32_of_not_lt {site : OverflowSite} {k : Nat} (h : ¬ k < 2 ^ 32) :
    checkU32 site k = .fault (.arithOverflow site) := if_neg h

theorem checkU32_eq_next {site : OverflowSite} {k : Nat} {v : Word} :
    checkU32 site k = .next v ↔ v.toNat = k := by
  unfold checkU32
  split
  · rename_i h
    simp only [Host.Outcome.next.injEq]
    constructor
    · rintro rfl
      exact BitVec.toNat_ofNat k 32 ▸ Nat.mod_eq_of_lt h
    · rintro rfl
      exact BitVec.ofNat_toNat 32 v ▸ BitVec.setWidth_eq v
  · rename_i h
    simp only [raise, reduceCtorEq, false_iff]
    exact fun e => h (e ▸ v.isLt)

theorem checkS32_of_fits {site : OverflowSite} {k : Int} (h : -2 ^ 31 ≤ k ∧ k < 2 ^ 31) :
    checkS32 site k = .next (BitVec.ofInt 32 k) := if_pos h

theorem checkS32_of_not_fits {site : OverflowSite} {k : Int} (h : ¬ (-2 ^ 31 ≤ k ∧ k < 2 ^ 31)) :
    checkS32 site k = .fault (.arithOverflow site) := if_neg h

theorem toInt_ofInt_of_fits {k : Int} (h : -2 ^ 31 ≤ k ∧ k < 2 ^ 31) :
    (BitVec.ofInt 32 k).toInt = k := by
  rw [BitVec.toInt_ofInt, Int.bmod_def]
  norm_num at h ⊢
  omega

theorem fits_toInt (v : Word) : -2 ^ 31 ≤ v.toInt ∧ v.toInt < 2 ^ 31 := by
  have h1 := BitVec.le_toInt v
  have h2 := BitVec.toInt_lt (x := v)
  norm_num at h1 h2 ⊢
  exact ⟨h1, h2⟩

theorem checkS32_eq_next {site : OverflowSite} {k : Int} {v : Word} :
    checkS32 site k = .next v ↔ v.toInt = k := by
  unfold checkS32
  split
  · rename_i h
    simp only [Host.Outcome.next.injEq]
    constructor
    · rintro rfl
      exact toInt_ofInt_of_fits h
    · rintro rfl
      exact BitVec.ofInt_toInt
  · rename_i h
    simp only [raise, reduceCtorEq, false_iff]
    exact fun e => h (e ▸ fits_toInt v)

/-- A range check never refuses. -/
theorem checkU32_ne_refused {site : OverflowSite} {k : Nat} {r : Refusal} :
    checkU32 site k ≠ .refused r := by
  unfold checkU32 raise
  split <;> simp

theorem checkS32_ne_refused {site : OverflowSite} {k : Int} {r : Refusal} :
    checkS32 site k ≠ .refused r := by
  unfold checkS32 raise
  split <;> simp

theorem checkU32_eq_fault {site : OverflowSite} {k : Nat} {f : Fault} :
    checkU32 site k = .fault f ↔ ¬ k < 2 ^ 32 ∧ f = .arithOverflow site := by
  unfold checkU32 raise
  split <;> simp_all [eq_comm]

theorem checkS32_eq_fault {site : OverflowSite} {k : Int} {f : Fault} :
    checkS32 site k = .fault f ↔ ¬ (-2 ^ 31 ≤ k ∧ k < 2 ^ 31) ∧ f = .arithOverflow site := by
  unfold checkS32 raise
  split
  · rename_i h
    simp only [reduceCtorEq, false_iff]
    exact fun e => e.1 h
  · rename_i h
    simp only [Host.Outcome.fault.injEq]
    exact ⟨fun e => ⟨h, e.symm⟩, fun e => e.2.symm⟩

/-! ## Micro-operations -/

theorem etClose_eq_next {s t : State} :
    etClose s = .next t ↔ s.cntOvf = false ∧
      t = (((s.setElapsedTicks s.cnt).setCnt 0).setRunning false).emitMeasReady := by
  unfold etClose raise
  cases s.cntOvf <;> simp [@eq_comm _ t]

theorem rate_eq_next {cfg : Config} {t m : Word} :
    rate cfg t = .next m ↔
      t ≠ 0 ∧ t.toNat * 2 < 2 ^ 32 ∧ m.toNat = cfg.fRef / (t.toNat * 2) * 60 := by
  unfold rate raise
  split
  · simp_all
  · rename_i h
    simp only [andThen_eq_next, checkU32_eq_next, ne_eq, h, not_false_eq_true, true_and]
    constructor
    · rintro ⟨d, hd, hm⟩
      exact ⟨hd ▸ d.isLt, by rw [← hd, hm]⟩
    · rintro ⟨h2, hm⟩
      refine ⟨BitVec.ofNat 32 (t.toNat * 2), ?_, ?_⟩
      · rw [BitVec.toNat_ofNat, Nat.mod_eq_of_lt h2]
      · rw [BitVec.toNat_ofNat, Nat.mod_eq_of_lt h2, hm]

/-- What `pi_update` can do when it completes. -/
theorem piUpdate_eq_next {ta : Word} {s t : State} :
    piUpdate ta s = .next t ↔ ∃ error sum1 : Word,
      error.toInt = (s.targetRate.toNat : Int) - s.measuredRate.toNat ∧
      sum1.toInt = s.errorSum.toInt + error.toInt ∧
      Fp.isNan (rawOutput s.cfg error sum1 ta) = false ∧
      t = clampWriteBack error sum1 (rawOutput s.cfg error sum1 ta) s := by
  unfold piUpdate piError piSum raise
  simp only [andThen_eq_next, checkS32_eq_next]
  constructor
  · rintro ⟨error, he, sum1, hs, h⟩
    refine ⟨error, sum1, he, hs, ?_⟩
    split at h <;> simp_all
  · rintro ⟨error, sum1, he, hs, hn, rfl⟩
    exact ⟨error, he, sum1, hs, by simp [hn]⟩

/-- What the rollback gives: the accumulator before the call (R143). -/
theorem rollback_eq {error sum1 old : Word} (h : sum1.toInt = old.toInt + error.toInt) :
    sum1 - error = old := by
  have e : sum1 = old + error := by
    rw [← BitVec.ofInt_toInt (x := sum1), h, BitVec.ofInt_add, BitVec.ofInt_toInt,
      BitVec.ofInt_toInt]
  rw [e, BitVec.add_sub_cancel]

/-! The write-back of `pi_update` writes `output` and `errorSum` and nothing else (R140). -/

section
variable (error sum1 raw : Word) (s : State)

@[simp] theorem clampWriteBack_running : (clampWriteBack error sum1 raw s).running = s.running := rfl

@[simp] theorem clampWriteBack_cnt : (clampWriteBack error sum1 raw s).cnt = s.cnt := rfl

@[simp] theorem clampWriteBack_cntOvf : (clampWriteBack error sum1 raw s).cntOvf = s.cntOvf := rfl

@[simp] theorem clampWriteBack_elapsedTicks : (clampWriteBack error sum1 raw s).elapsedTicks = s.elapsedTicks := rfl

@[simp] theorem clampWriteBack_targetRate : (clampWriteBack error sum1 raw s).targetRate = s.targetRate := rfl

@[simp] theorem clampWriteBack_measuredRate : (clampWriteBack error sum1 raw s).measuredRate = s.measuredRate := rfl

@[simp] theorem clampWriteBack_duty : (clampWriteBack error sum1 raw s).duty = s.duty := rfl

@[simp] theorem clampWriteBack_rb : (clampWriteBack error sum1 raw s).rb = s.rb := rfl

@[simp] theorem clampWriteBack_writePos : (clampWriteBack error sum1 raw s).writePos = s.writePos := rfl

@[simp] theorem clampWriteBack_lastMedian : (clampWriteBack error sum1 raw s).lastMedian = s.lastMedian := rfl

@[simp] theorem clampWriteBack_out : (clampWriteBack error sum1 raw s).out = s.out := rfl

@[simp] theorem clampWriteBack_inputs : (clampWriteBack error sum1 raw s).inputs = s.inputs := rfl

@[simp] theorem clampWriteBack_cfg : (clampWriteBack error sum1 raw s).cfg = s.cfg := rfl

@[simp] theorem clampWriteBack_output :
    (clampWriteBack error sum1 raw s).output = clampedOutput s.cfg raw := rfl

@[simp] theorem clampWriteBack_errorSum :
    (clampWriteBack error sum1 raw s).errorSum = rolledBackSum s.cfg error sum1 raw := rfl

end

theorem forwardDuty_eq_next {s t : State} :
    forwardDuty s = .next t ↔
      ∃ d, Fp.f2uTrunc s.output = some d ∧ t = (s.setDuty d).emitPwm d := by
  unfold forwardDuty
  cases Fp.f2uTrunc s.output <;> simp [eq_comm]

theorem smooth_eq_next {last median v : Word} :
    smooth last median = .next v ↔
      4 * last.toNat + median.toNat < 2 ^ 32 ∧
      v.toNat = (4 * last.toNat + median.toNat) / 5 := by
  unfold smooth
  simp only [andThen_eq_next, checkU32_eq_next, Host.Outcome.next.injEq]
  constructor
  · rintro ⟨t, ht, rfl⟩
    exact ⟨ht ▸ t.isLt, by rw [BitVec.toNat_udiv, ht]; rfl⟩
  · rintro ⟨h, hv⟩
    refine ⟨BitVec.ofNat 32 (4 * last.toNat + median.toNat), ?_, ?_⟩
    · rw [BitVec.toNat_ofNat, Nat.mod_eq_of_lt h]
    · apply BitVec.eq_of_toNat_eq
      rw [BitVec.toNat_udiv, BitVec.toNat_ofNat, Nat.mod_eq_of_lt h, hv]
      rfl

theorem insertSample_eq_next {val : Word} {s t : State} :
    insertSample val s = .next t ↔ s.writePos.toNat < s.cfg.n ∧
      t = (s.setRb (s.rb.write s.writePos.toNat val)).setWritePos
        (BitVec.ofNat 4 ((s.writePos.toNat + 1) % s.cfg.n)) := by
  unfold insertSample
  simp only [andThen_eq_next, memWrite_eq_next, Host.Outcome.next.injEq]
  constructor
  · rintro ⟨m, ⟨h, rfl⟩, rfl⟩
    exact ⟨h, rfl⟩
  · rintro ⟨h, rfl⟩
    exact ⟨_, ⟨h, rfl⟩, rfl⟩

/-! ## Commands -/

/-- What an opening edge does (R115). -/
theorem execEdge_of_idle {s : State} (h : s.running = false) :
    execEdge s = .next (etOpen s.begin) := by
  simp [execEdge, h]

/-- What a closing edge can do when it completes (R161). -/
theorem execEdge_eq_next_of_timing {s t : State} (h : s.running = true) :
    execEdge s = .next t ↔ s.cntOvf = false ∧ ∃ m : Word, rate s.cfg s.cnt = .next m ∧
      ∃ s2, piUpdate (period s.cfg s.cnt)
          (((((s.begin.setElapsedTicks s.cnt).setCnt 0).setRunning false).emitMeasReady).setMeasuredRate
            m) = .next s2 ∧
        ∃ d, Fp.f2uTrunc s2.output = some d ∧ t = (s2.setDuty d).emitPwm d := by
  simp only [execEdge, h, if_true, closeWindow, andThen_eq_next, etClose_eq_next, forwardDuty_eq_next]
  constructor
  · rintro ⟨s1, ⟨ho, rfl⟩, m, hm, s2, hs2, hd⟩
    exact ⟨ho, m, hm, s2, hs2, hd⟩
  · rintro ⟨ho, m, hm, s2, hs2, hd⟩
    exact ⟨_, ⟨ho, rfl⟩, m, hm, s2, hs2, hd⟩

/-- What `FILT` can do when it completes (R180). -/
theorem execFilt_eq_next {val : Word} {s t : State} :
    execFilt val s = .next t ↔ s.writePos.toNat < s.cfg.n ∧ ∃ v : Word,
      smooth s.lastMedian (rawMedian s.cfg.n (s.rb.write s.writePos.toNat val)) = .next v ∧
      t = (((s.begin.setRb (s.rb.write s.writePos.toNat val)).setWritePos
        (BitVec.ofNat 4 ((s.writePos.toNat + 1) % s.cfg.n))).setLastMedian v).emitRes v := by
  unfold execFilt
  simp only [andThen_eq_next, insertSample_eq_next, Host.Outcome.next.injEq]
  constructor
  · rintro ⟨s1, ⟨h, rfl⟩, v, hv, rfl⟩
    exact ⟨h, v, hv, rfl⟩
  · rintro ⟨h, v, hv, rfl⟩
    exact ⟨_, ⟨h, rfl⟩, v, hv, rfl⟩

/-- What `RD` can do when it completes (R197). -/
theorem execRd_eq_next {reg : RegSel} {s t : State} :
    execRd reg s = .next t ↔ ∃ v, regView reg s = .next v ∧ t = s.begin.emitRes v := by
  unfold execRd
  simp only [andThen_eq_next, Host.Outcome.next.injEq, @eq_comm _ _ t]

end Sys2Proof.Machine
end

