-- ==== Sys2Proof/Laws/PerInstr.lean ====
section
/-! SUPPORT. Statements about every command as syntax, one lemma for each constructor. -/

namespace Sys2Proof.Laws.MatchMask

/-- The word of a command, masked by its row of spec/30_encoding.md rule R88, is the row's match. -/
def Statement (i : Instr) : Prop := encode i &&& i.rowMask = i.rowMatch

/-- A masked word, by its opcode and its argument. -/
theorem statement_of_fields {i : Instr} {m : Word} (hmask : i.rowMask = 0xFF#8 ++ m)
    (hmatch : i.rowMatch = i.opcode ++ 0#32) (h : i.argument &&& m = 0) : Statement i := by
  rw [Statement, encode, hmask, hmatch, BitVec.and_append, h]
  congr 1
  exact BitVec.and_allOnes

theorem nop : Statement .nop := by
  unfold Statement
  decide

theorem edge : Statement .edge := by
  unfold Statement
  decide

theorem tick : Statement .tick := by
  unfold Statement
  decide

theorem settgt (val : Word) : Statement (.settgt val) :=
  statement_of_fields (m := 0) (show (0xFF00000000 : CmdWord) = _ by decide)
    (show (0x0300000000 : CmdWord) = 0x03#8 ++ 0#32 by decide) BitVec.and_zero

theorem filt (val : Word) : Statement (.filt val) :=
  statement_of_fields (m := 0) (show (0xFF00000000 : CmdWord) = _ by decide)
    (show (0x0400000000 : CmdWord) = 0x04#8 ++ 0#32 by decide) BitVec.and_zero

theorem rd (reg : RegSel) : Statement (.rd reg) := by
  refine statement_of_fields (m := 0xFFFFFFE0) (show (0xFFFFFFFFE0 : CmdWord) = _ by decide)
    (show (0x0500000000 : CmdWord) = 0x05#8 ++ 0#32 by decide) ?_
  have e : (0xFFFFFFE0 : Word) = BitVec.allOnes 27 ++ 0#5 := by decide
  rw [Instr.argument, e, BitVec.and_append, BitVec.and_zero]
  decide

end Sys2Proof.Laws.MatchMask
end

