-- ==== Sys2Proof/Tests/Slice0.lean ====
section
/-! SUPPORT. Tests: expected values from spec/95_test_vectors.md and the examples of the rules, and for every obligation that has hypotheses a concrete case that meets them. -/

namespace Sys2Proof.Tests

open Sys2Proof.Machine Sys2Proof.Safety

/-! ## Helpers -/

/-- Configuration T-A of spec/95_test_vectors.md: `F_REF = 10000`, `KP = 0.0625`, `KI = 0`. -/
def cfgA : Config where
  w := 32
  cw := 32
  n := 9
  minOut := 15
  maxOut := 199
  fRef := 10000
  kp := 0x3D800000
  ki := 0x00000000
  fp := .binary32
  ok := by decide

/-- Configuration T-A with `CW = 8`. -/
def cfgNarrow : Config where
  w := 32
  cw := 8
  n := 9
  minOut := 15
  maxOut := 199
  fRef := 10000
  kp := 0x3D800000
  ki := 0x00000000
  fp := .binary32
  ok := by decide

/-- Configuration T-A with the largest `F_REF`, one ring slot and a counter of one bit. -/
def cfgEdge : Config where
  w := 32
  cw := 1
  n := 1
  minOut := 15
  maxOut := 199
  fRef := 4294967295
  kp := 0x3D800000
  ki := 0x00000000
  fp := .binary32
  ok := by decide

/-- The reset state with nothing presented. -/
def fresh (cfg : Config) : State := launch cfg []

/-- A state in `TIMING` with the given count and target. -/
def timing (cfg : Config) (cnt target : Word) : State :=
  (((fresh cfg).setRunning true).setCnt cnt).setTargetRate target

/-- The state after an operation, if it completes. -/
def nextOf {α : Type} : Result α → Option α
  | .next a => some a
  | _ => none

/-- The fault of an operation, if it raises one. -/
def faultOf {α : Type} : Result α → Option Fault
  | .fault f => some f
  | _ => none

theorem exists_next {α : Type} {o : Result α} (h : (nextOf o).isSome = true) : ∃ a, o = .next a := by
  cases o with
  | next a => exact ⟨a, rfl⟩
  | fault f => simp [nextOf] at h
  | refused r => simp [nextOf] at h

/-! ## WellFormed: an ill-formed term for each check -/

/-- `RB9` is no slot of a ring of 9 (R43). -/
theorem test_rb9_ill_formed : (Instr.rd (.rb 9)).wellFormed 9 = false := by decide

theorem test_rb8_well_formed : (Instr.rd (.rb 8)).wellFormed 9 = true := by decide

/-- Each limit of R5 refuses a configuration just outside it: `N` even, `N` too large, the bounds in the
wrong order, `MAX_OUT` too large, `F_REF` zero and too large, `CW` zero and too large, `KP` and `KI`
just above their limits, infinite, and NaN. -/
theorem test_params_refused :
    ({ cfgA.toParams with w := 16 } : Params).wf = false ∧
    ({ cfgA.toParams with n := 8 } : Params).wf = false ∧
    ({ cfgA.toParams with n := 17 } : Params).wf = false ∧
    ({ cfgA.toParams with minOut := 200 } : Params).wf = false ∧
    ({ cfgA.toParams with maxOut := 16777216 } : Params).wf = false ∧
    ({ cfgA.toParams with fRef := 0 } : Params).wf = false ∧
    ({ cfgA.toParams with fRef := 4294967296 } : Params).wf = false ∧
    ({ cfgA.toParams with cw := 0 } : Params).wf = false ∧
    ({ cfgA.toParams with cw := 33 } : Params).wf = false ∧
    ({ cfgA.toParams with kp := 0x5F800001 } : Params).wf = false ∧
    ({ cfgA.toParams with ki := 0xCF800001 } : Params).wf = false ∧
    ({ cfgA.toParams with kp := 0x7F800000 } : Params).wf = false ∧
    ({ cfgA.toParams with ki := 0x7FC00000 } : Params).wf = false := by decide

/-- The limits themselves are well formed (`2^64`, `-2^32`). -/
theorem test_params_at_the_limits :
    ({ w := 32, cw := 1, n := 15, minOut := 16777215, maxOut := 16777215, fRef := 1, kp := 0x5F800000,
       ki := 0xCF800000, fp := .binary32 } : Params).wf = true := by decide

/-! ## Decode: words of V-ENC, written out bit by bit from R88 -/

theorem test_decode_nop :
    decode 9 0b00000000_00000000000000000000000000000000#40 = .ok .nop := by decide

theorem test_decode_edge :
    decode 9 0b00000001_00000000000000000000000000000000#40 = .ok .edge := by decide

theorem test_decode_tick :
    decode 9 0b00000010_00000000000000000000000000000000#40 = .ok .tick := by decide

/-- `SETTGT 3500`, V-ENC row 5. -/
theorem test_decode_settgt :
    decode 9 0b00000011_00000000000000000000110110101100#40 = .ok (.settgt 3500) := by decide

/-- `FILT 4294967295`, V-ENC row 8. -/
theorem test_decode_filt :
    decode 9 0b00000100_11111111111111111111111111111111#40 = .ok (.filt 4294967295) := by decide

/-- `RD WRITEPOS` and `RD RB0`, V-ENC rows 10 and 11. -/
theorem test_decode_rd :
    decode 9 0b00000101_00000000000000000000000000001000#40 = .ok (.rd .writepos) ∧
    decode 9 0b00000101_00000000000000000000000000010000#40 = .ok (.rd (.rb 0)) := by decide

/-- V-ENC rows 13 to 19. -/
theorem test_reserved_arguments_and_indices :
    decode 9 0x0000000001 = .error .argument ∧ decode 9 0x0100000001 = .error .argument ∧
    decode 9 0x0280000000 = .error .argument ∧ decode 9 0x0500000009 = .error .index ∧
    decode 9 0x050000000F = .error .index ∧ decode 9 0x0500000019 = .error .index ∧
    decode 9 0x050000001F = .error .index := by decide

/-- V-ENC rows 20 to 24. -/
theorem test_reserved_upper_bits_and_opcodes :
    decode 9 0x0500000020 = .error .upperBits ∧ decode 9 0x0500000100 = .error .upperBits ∧
    decode 9 0x0600000000 = .error .opcode ∧ decode 9 0xFF00000000 = .error .opcode ∧
    decode 9 0xFFFFFFFFFF = .error .opcode := by decide

/-- The encoder gives the words of V-ENC. -/
theorem test_encode :
    encode .nop = 0x0000000000 ∧ encode .edge = 0x0100000000 ∧ encode .tick = 0x0200000000 ∧
    encode (.settgt 3500) = 0x0300000DAC ∧ encode (.filt 100) = 0x0400000064 ∧
    encode (.rd (.rb 8)) = 0x0500000018 := by decide

theorem test_table_word : decodeTableWord 40 0x0300000DAC = some (.settgt 3500) := by decide

/-! ## Commands -/

/-- The example of R196, with a record left by an earlier command. -/
theorem test_nop_leaves_the_state :
    nextOf (exec .nop ((timing cfgA 99 3500).setOut ⟨true, some 31, none⟩)) =
      some (timing cfgA 99 3500) := by decide

/-- V-ET row 4. -/
theorem test_tick_counts :
    (nextOf (exec .tick (timing cfgA 99 0))).map (fun t => (t.cnt, t.cntOvf)) =
      some (100, false) := by decide

/-- V-ET row 8. -/
theorem test_tick_wraps :
    (nextOf (exec .tick (timing cfgA 0xFFFFFFFF 0))).map (fun t => (t.cnt, t.cntOvf)) =
      some (0, true) := by decide

/-- V-TGT row 4. -/
theorem test_settgt_in_a_window :
    nextOf (exec (.settgt 1000) (timing cfgA 7 3500)) = some (timing cfgA 7 1000) := by decide

/-- V-ET row 5 and the example of R161. -/
theorem test_edge_closes :
    (nextOf (exec .edge (timing cfgA 100 3500))).map (fun t =>
      (t.running, t.cnt, t.elapsedTicks, t.measuredRate)) = some (false, 0, 100, 3000) ∧
    (nextOf (exec .edge (timing cfgA 100 3500))).map (fun t => (t.errorSum, t.output, t.duty, t.out)) =
      some (500, 0x41FA0000, 31, ⟨true, some 31, none⟩) := by decide +kernel

/-- The window of 255 ticks at `CW = 8` (V-ET, the paragraph after the table). -/
theorem test_edge_closes_at_the_width :
    (nextOf (exec .edge (timing cfgNarrow 255 3500))).map (fun t => (t.measuredRate, t.output, t.duty)) =
      some (1140, 0x43138000, 147) := by decide +kernel

/-- The second call of V-MF row 1 from its end state: the ring after the write and the position. -/
theorem test_filt_inserts :
    (nextOf (exec (.filt 100) (((fresh cfgA).setRb [(0, 1)]).setWritePos 1))).map (fun t =>
      (t.rb, t.writePos, t.lastMedian, t.out)) =
      some ([(0, 1), (1, 100)], 2, 0, ⟨false, none, some 0⟩) := by decide

/-- The last call of V-MF row 7: raw median 7, and 2 returned; the position wraps. -/
theorem test_filt_median :
    (nextOf (exec (.filt 1) ((((fresh cfgA).setRb [(0, 7), (1, 7), (2, 3), (3, 3), (4, 3), (5, 9),
      (6, 9), (7, 7)]).setWritePos 8).setLastMedian 1))).map (fun t => (t.writePos, t.out.res)) =
      some (0, some 2) := by decide

/-- The example of R197: `RD STATUS` in `TIMING`. -/
theorem test_rd_status :
    (nextOf (exec (.rd .status) (timing cfgA 0 0))).map (fun t => t.out.res) = some (some 1) := by decide

/-- R197 (d): `errorSum = -2520` reads as `0xFFFFF628`. -/
theorem test_rd_errsum :
    (nextOf (exec (.rd .errsum) ((fresh cfgA).setErrorSum (BitVec.ofInt 32 (-2520))))).map
      (fun t => t.out) = some ⟨false, none, some 0xFFFFF628⟩ := by decide

/-! ## Floating point, rate and controller: rows of V-FP, V-RATE and V-PI -/

/-- Ties to even, the conversion of the extreme integers (V-FP). -/
theorem test_conversions :
    Fp.u2f 16777217 = 0x4B800000 ∧ Fp.u2f 16777219 = 0x4B800002 ∧ Fp.u2f 4294967167 = 0x4F7FFFFF ∧
    Fp.u2f 4294967168 = 0x4F800000 ∧ Fp.i2f (BitVec.ofInt 32 (-296500)) = 0xC890C680 ∧
    Fp.i2f 0x80000000 = 0xCF000000 := by decide +kernel

/-- Sampling periods (V-FP). -/
theorem test_periods :
    period cfgA 100 = 0x3C23D70A ∧ period cfgA 1000250 = 0x42C80CCD ∧
    period cfgA 2147483647 = 0x4851B717 := by decide +kernel

/-- The inexact products and sums of V-FP. -/
theorem test_products_and_sums :
    Fp.fmul 0x3D4CCCCD 0x43FA0000 = 0x41C80000 ∧ Fp.fmul 0x44160000 0x3C1374BC = 0x40ACCCCC ∧
    Fp.fadd 0x41200000 0x40ACCCCC = 0x41766666 := by decide +kernel

/-- `f2u_trunc` (V-FP). -/
theorem test_truncation :
    Fp.f2uTrunc 0x41766666 = some 15 ∧ Fp.f2uTrunc 0x3F7FFFFF = some 0 ∧
    Fp.f2uTrunc 0x80000000 = some 0 ∧ Fp.f2uTrunc 0x4F7FFFFF = some 4294967040 := by decide +kernel

/-- V-RATE rows 2, 8, 9, 13 and 14. -/
theorem test_rates :
    nextOf (rate cfgA 130) = some 2280 ∧ nextOf (rate cfgA 2147483647) = some 0 ∧
    faultOf (rate cfgA 2147483648) = some (.arithOverflow .ticksTwice) ∧
    nextOf (rate cfgEdge 30) = some 4294967280 ∧
    faultOf (rate cfgEdge 29) = some (.arithOverflow .rate) := by decide

/-- V-PI row 8: clamped above, the error rolled back. -/
theorem test_pi_clamps_high :
    (nextOf (piUpdate 0x3C23D70A (((fresh cfgA).setTargetRate 6185).setMeasuredRate 3000))).map
      (fun t => (t.output, t.errorSum)) = some (0x43470000, 0) := by decide +kernel

/-- V-PI row 9: equal to the bound, not clamped. -/
theorem test_pi_at_the_bound :
    (nextOf (piUpdate 0x3C23D70A (((fresh cfgA).setTargetRate 3240).setMeasuredRate 3000))).map
      (fun t => (t.output, t.errorSum)) = some (0x41700000, 240) := by decide +kernel

/-- V-PI rows 20, 21 and 22. -/
theorem test_pi_overflows :
    faultOf (piUpdate 0 ((fresh cfgA).setTargetRate 4294967295)) = some (.arithOverflow .error) ∧
    faultOf (piUpdate 0 (((fresh cfgA).setTargetRate 2147483647).setErrorSum 1)) =
      some (.arithOverflow .errorSum) ∧
    (nextOf (piUpdate 0 ((fresh cfgA).setMeasuredRate 2147483648))).isSome = true := by decide +kernel

/-! ## The text of programs (R95 to R97) -/

theorem test_line_settgt :
    parseLine 9 "SETTGT 3500 ; the target".toList = some (.command (.settgt 3500)) := by decide

theorem test_line_rd :
    parseLine 9 "RD RB8".toList = some (.command (.rd (.rb 8))) ∧
    parseLine 9 "RD 0x18".toList = some (.command (.rd (.rb 8))) ∧
    parseLine 9 "RD 0x19".toList = none := by decide

theorem test_line_window :
    (parseLine 9 "WINDOW 2".toList).map Line.inputs =
      some [issue .edge, issue .tick, issue .tick, issue .edge] := by decide

theorem test_line_word :
    parseLine 9 ".word 0x0600000000".toList = some (.word 0x0600000000) := by decide

/-- The gains of spec/95_test_vectors.md configurations T-A to T-C, in decimal and as patterns. -/
theorem test_line_gain :
    parseLine 9 ".cfg KP = 0.0625 ; T-A".toList = some (.cfg (.kp 0x3D800000)) ∧
    parseLine 9 ".cfg KI = 4".toList = some (.cfg (.ki 0x40800000)) ∧
    parseLine 9 ".cfg KP = 0.05".toList = some (.cfg (.kp 0x3D4CCCCD)) ∧
    parseLine 9 ".cfg KI = 0.5".toList = some (.cfg (.ki 0x3F000000)) ∧
    parseLine 9 ".cfg KP = 0x3D800000 ; 0.0625".toList = some (.cfg (.kp 0x3D800000)) := by
  decide +kernel

/-- A `.cfg` directive has effect before the first command and none after it (R96); of two before it the
later holds (log 18). -/
theorem test_program_cfg :
    let p : Program := .start cfgA.toParams
    (p.add (.cfg (.fRef 5000))).params.fRef = 5000 ∧
    ((p.add (.command .nop)).add (.cfg (.fRef 5000))).params.fRef = 10000 ∧
    ((p.add (.cfg (.fRef 5000))).add (.cfg (.fRef 6000))).params.fRef = 6000 := by decide

/-- What is no gain, and an integer field in decimal. -/
theorem test_line_cfg :
    parseLine 9 ".cfg KP = 0.".toList = none ∧ parseLine 9 ".cfg KP = .5".toList = none ∧
    parseLine 9 ".cfg KP = -0.5".toList = some (.cfg (.kp 0xBF000000)) ∧
    parseLine 9 ".cfg F_REF = 10000".toList = some (.cfg (.fRef 10000)) ∧
    parseLine 9 ".cfg W = 32".toList = some (.cfg (.w 32)) ∧
    parseLine 9 ".cfg FP = binary32".toList = some (.cfg (.fp .binary32)) := by decide +kernel

/-- The first lines of program P1 of spec/95_test_vectors.md, over another configuration: CORE starts with
configuration T-A. -/
theorem test_load_p1 :
    loadText { cfgA.toParams with fRef := 1, kp := 0 }
      [".cfg W = 32".toList, ".cfg F_REF = 10000".toList, ".cfg KP = 0x3D800000        ; 0.0625".toList,
        ".cfg KI = 0x00000000        ; 0.0".toList, ".reset".toList, "SETTGT 3500".toList,
        "EDGE".toList] =
      some (launch cfgA [.reset, .command 0x0300000DAC, .command 0x0100000000]) := by decide +kernel

/-- No machine starts with a configuration that is not well formed (R5), or with a line that is none. -/
theorem test_load_refused :
    loadText cfgA.toParams [".cfg W = 16".toList] = none ∧
    loadText cfgA.toParams [".cfg N = 8".toList] = none ∧
    loadText cfgA.toParams ["JMP 0".toList] = none ∧
    loadText cfgA.toParams ["NOP".toList] = some (launch cfgA [.command 0]) := by decide +kernel

/-! ## Witnesses: for each obligation with hypotheses, a case that meets all of them -/

theorem test_witness_decodeOfEncode :
    (Instr.rd (.rb 14)).wellFormed 15 = true ∧ (Instr.rd (.rb 0)).wellFormed 1 = true := by decide

theorem test_witness_encodeOfDecode :
    decode 9 0x0500000018 = .ok (.rd (.rb 8)) ∧ decode 1 0x0500000010 = .ok (.rd (.rb 0)) := by decide

theorem test_witness_matchAndMask :
    decode 9 0x0500000008 = .ok (.rd .writepos) ∧ decode 9 0x0500000009 ≠ .ok (.rd .writepos) := by
  decide

/-- One reserved word of each clause of R92, at the ends of its range, and words that are not. -/
theorem test_witness_reservedWords :
    (∃ s : State, s.inputs = .command 0x0600000000 :: []) ∧
    IsReserved 9 0x0600000000 ∧ IsReserved 9 0xFF00000000 ∧ IsReserved 9 0x0200000001 ∧
    IsReserved 9 0x0500000020 ∧ IsReserved 9 0x0500000009 ∧ IsReserved 9 0x050000000F ∧
    IsReserved 9 0x0500000019 ∧ IsReserved 9 0x050000001F ∧
    ¬ IsReserved 9 0x0500000018 ∧ ¬ IsReserved 9 0x0500000008 ∧ ¬ IsReserved 9 0x04FFFFFFFF := by
  refine ⟨⟨launch cfgA [.command 0x0600000000], rfl⟩, ?_, ?_, ?_, ?_, ?_, ?_, ?_, ?_, ?_, ?_, ?_⟩ <;>
    simp only [IsReserved] <;> decide

theorem test_witness_registerNames :
    register 15 "RB14".toList = some (.rb 14) ∧ register 1 "RB1".toList = none ∧
    register 15 "RB16".toList = none := by decide

theorem test_witness_stepRuns :
    (launch cfgA [.command 0x0200000000]).inputs = .command 0x0200000000 :: [] ∧
    decode (launch cfgA [.command 0x0200000000]).cfg.n 0x0200000000 = .ok .tick := by decide

theorem test_witness_presentedCommandRuns :
    (Instr.rd (.rb 8)).wellFormed (fresh cfgA).cfg.n = true := by decide

theorem test_witness_nothingPresented : State.reset.inputs = [] := rfl

theorem test_witness_resetInput :
    ((timing cfgA 5 9).setInputs [.reset]).inputs = .reset :: [] := rfl

theorem test_witness_resetValues : fresh cfgA = launch cfgA [] := rfl

theorem test_witness_stepKeepsTheConfiguration :
    ∃ t, step ((timing cfgA 100 3500).setInputs [.command 0x0100000000]) = .next t :=
  exists_next (by decide +kernel)

theorem test_witness_nopArgument : (1 : Word) ≠ 0 := by decide

theorem test_witness_ticksCount :
    (timing cfgNarrow 0 0).running = true ∧ (timing cfgNarrow 0 0).cnt = 0 ∧
    (timing cfgNarrow 0 0).cntOvf = false := by decide

theorem test_witness_settgtTooLarge : 0 + 2 ^ 31 ≤ (0x80000000 : Word).toNat := by decide

theorem test_witness_openingEdge : (fresh cfgA).running = false := rfl

/-- The hypotheses of a closing edge, at a common count and at the largest error that fits. -/
theorem test_witness_closingEdge :
    let s := timing cfgA 100 3500
    let e := timing cfgA 5001 2147483647
    (s.running = true ∧ ClosingFits s) ∧ (e.running = true ∧ ClosingFits e) ∧
    ∃ t, exec .edge s = .next t := ⟨by decide, by decide, exists_next (by decide +kernel)⟩

/-- Each fault of a closing edge but the unreachable `FpInvalid` is the first in some state; a counter
that wrapped to exactly 0 is `CounterWrap` (R213). -/
theorem test_witness_faultPriority :
    firstFault ((timing cfgA 0 0).setCntOvf true) = some .counterWrap ∧
    firstFault (timing cfgA 0 0) = some .divideByZero ∧
    firstFault (timing cfgA 2147483648 0) = some (.arithOverflow .ticksTwice) ∧
    firstFault (timing cfgEdge 1 0) = some (.arithOverflow .rate) ∧
    firstFault (timing cfgA 5001 2147483648) = some (.arithOverflow .error) ∧
    firstFault ((timing cfgA 5001 2147483647).setErrorSum 1) = some (.arithOverflow .errorSum) ∧
    firstFault (timing cfgA 100 3500) = none := by decide +kernel

/-- The clauses of the rate formula, where they meet. -/
theorem test_witness_rateFormula :
    (2147483648 : Word) ≠ 0 ∧ 2 ^ 32 ≤ (2147483648 : Word).toNat * 2 ∧
    (2147483647 : Word).toNat * 2 < 2 ^ 32 ∧
    2 ^ 32 ≤ cfgEdge.fRef / ((29 : Word).toNat * 2) * 60 ∧
    cfgEdge.fRef / ((30 : Word).toNat * 2) * 60 < 2 ^ 32 ∧
    nextOf (rate cfgA 5000) = some 60 ∧ cfgA.fRef < (5001 : Word).toNat * 2 ∧
    nextOf (rate cfgA 5001) = some 0 ∧
    faultOf (rate cfgEdge 29) = some (.arithOverflow .rate) ∧ cfgA.fRef = 10000 := by decide

theorem test_witness_rateWorkedValue : cfgA.fRef = 10000 := rfl

theorem test_witness_samplingPeriod :
    (1 : Word) ≠ 0 ∧ (0xFFFFFFFF : Word) ≠ 0 ∧ Fp.value (period cfgEdge 1) = 2 ^ 117 := by
  decide +kernel

/-- A window of one tick at `CW = 1`, and one of two ticks, which wraps the counter. -/
theorem test_witness_window :
    (fresh cfgEdge).running = false ∧ (fresh cfgEdge).cntOvf = false ∧ Instr.edge ∉ [Instr.tick] ∧
    (∃ r, runCommands [.edge, .tick] (fresh cfgA) = .next r) ∧
    (∃ r, runCommands [.edge, .tick, .edge] (fresh cfgA) = .next r) ∧
    (∃ r, runCommands [.edge, .tick, .tick] (fresh cfgEdge) = .next r) ∧
    2 ^ (fresh cfgEdge).cfg.cw ≤ ticks [.tick, .tick] :=
  ⟨rfl, rfl, by decide, exists_next (by decide), exists_next (by decide +kernel),
    exists_next (by decide), by decide⟩

theorem test_witness_pairing :
    (fresh cfgA).running = false ∧ (∃ r, runCommands [.edge, .tick, .edge] (fresh cfgA) = .next r) ∧
    (nextOf (runCommands [.edge, .tick, .edge] (fresh cfgA))).map (fun r => measurements r.2) = some 1 :=
  ⟨rfl, exists_next (by decide +kernel), by decide +kernel⟩

theorem test_witness_onlyEdgeMoves :
    (∃ t, exec .edge (fresh cfgA) = .next t) ∧ (∃ t, exec .edge (timing cfgA 100 3500) = .next t) ∧
    (∃ t, exec .tick (fresh cfgA) = .next t) :=
  ⟨⟨_, rfl⟩, exists_next (by decide +kernel), ⟨_, rfl⟩⟩

theorem test_witness_stalledFan :
    Instr.edge ∉ [Instr.tick, .settgt 7, .rd .status, .nop] ∧
    (∃ r, runCommands [.tick, .settgt 7, .rd .status, .nop] (timing cfgA 5 0) = .next r) ∧
    ∀ i ∈ [Instr.tick, .settgt 7, .rd .status, .nop],
      i.wellFormed (timing cfgA 5 0).cfg.n = true ∧ i ≠ .edge ∧ isFilt i = false :=
  ⟨by decide, exists_next (by decide), by decide⟩

/-- `sum1 = old + error`, and raw values above, at, within, at and below the bounds. -/
theorem test_witness_clamp :
    (BitVec.ofInt 32 (-2520)).toInt = (1320 : Word).toInt + (BitVec.ofInt 32 (-3840)).toInt ∧
    Fp.fgt 0x43471000 (Fp.fOfInt cfgA.maxOut) = true ∧
    Fp.fgt 0x43470000 (Fp.fOfInt cfgA.maxOut) = false ∧
    Fp.flt 0x41700000 (Fp.fOfInt cfgA.minOut) = false ∧
    Fp.flt 0x416F0000 (Fp.fOfInt cfgA.minOut) = true ∧
    Fp.fgt 0x416F0000 (Fp.fOfInt cfgA.maxOut) = false ∧
    (0x43470000 : Word) = Fp.fOfInt cfgA.maxOut := by decide +kernel

/-- A call that clamps and one that does not. -/
theorem test_witness_controller :
    (∃ t, piUpdate 0x3C23D70A (((fresh cfgA).setTargetRate 6185).setMeasuredRate 3000) = .next t) ∧
    clamps cfgA (rawOutput cfgA 3185 3185 0x3C23D70A) = true ∧
    (∃ t, piUpdate 0x3C23D70A (((fresh cfgA).setTargetRate 3240).setMeasuredRate 3000) = .next t) ∧
    clamps cfgA (rawOutput cfgA 240 240 0x3C23D70A) = false :=
  ⟨exists_next (by decide +kernel), by decide +kernel, exists_next (by decide +kernel),
    by decide +kernel⟩

/-- The sampling period at its largest, `2^32`. -/
theorem test_witness_noFpException :
    Fp.isFinite 0x4F800000 = true ∧ 0 ≤ Fp.value 0x4F800000 ∧ Fp.value 0x4F800000 ≤ 2 ^ 181 := by
  decide +kernel

theorem test_witness_boundsConvert : 16777215 < 2 ^ 24 := by decide

theorem test_witness_integerConversions :
    |(0x01000000 : Word).toInt| ≤ 2 ^ 24 ∧ |(0xFF000000 : Word).toInt| ≤ 2 ^ 24 ∧
    (0x01000000 : Word).toNat ≤ 2 ^ 24 := by decide

/-- One operand for each clause on operands: finite, a sum of 0, NaN, infinities, zeros. -/
theorem test_witness_arithmetic :
    Fp.isFinite 0x7F7FFFFF = true ∧ Fp.value 0x00000001 ≠ 0 ∧
    Fp.value 0x3F800000 + Fp.value 0xBF800000 = 0 ∧ Fp.sign 0x3F800000 ≠ Fp.sign 0xBF800000 ∧
    Fp.isNan 0x7F800001 = true ∧ Fp.isInf 0x7F800000 = true ∧ Fp.isInf 0xFF800000 = true ∧
    Fp.sign 0x7F800000 ≠ Fp.sign 0xFF800000 ∧ Fp.isZero 0x80000000 = true ∧
    Fp.isNan 0x3F800000 = false ∧ Fp.isZero 0x00000001 = false := by decide +kernel

theorem test_witness_comparisons :
    Fp.isFinite 0x80000000 = true ∧ Fp.isZero 0x00000000 = true ∧ Fp.isZero 0x80000000 = true ∧
    Fp.isInf 0xFF800000 = true ∧ Fp.isNan 0xFFFFFFFF = true := by decide

/-- The largest operand, the first that is too large, and a `pi_update` that completes. -/
theorem test_witness_truncation :
    (Fp.isFinite 0x4F7FFFFF = true ∧ 0 ≤ Fp.value 0x4F7FFFFF ∧
      Fp.value 0x4F7FFFFF < 2 ^ 32 * 2 ^ 149) ∧
    ¬ (Fp.isFinite 0x4F800000 = true ∧ 0 ≤ Fp.value 0x4F800000 ∧
      Fp.value 0x4F800000 < 2 ^ 32 * 2 ^ 149) ∧
    ∃ t, piUpdate 0x3C23D70A (((fresh cfgA).setTargetRate 3240).setMeasuredRate 3000) = .next t :=
  ⟨by decide +kernel, by decide +kernel, exists_next (by decide +kernel)⟩

/-- The largest sum that fits (V-MF row 12), in a ring of one slot. -/
theorem test_witness_filtResult :
    let s := (fresh cfgEdge).setLastMedian 858993459
    s.writePos.toNat < s.cfg.n ∧
      4 * s.lastMedian.toNat + (rawMedian s.cfg.n (s.rb.write s.writePos.toNat 858993459)).toNat
        < 2 ^ 32 := by decide

/-- The smallest sum that does not fit, and samples at the limit. -/
theorem test_witness_smoothing :
    let s := (fresh cfgEdge).setLastMedian 858993459
    (s.writePos.toNat < s.cfg.n ∧ 2 ^ 32 ≤ 4 * s.lastMedian.toNat +
      (rawMedian s.cfg.n (s.rb.write s.writePos.toNat 858993460)).toNat) ∧
    s.lastMedian.toNat ≤ 858993459 ∧
    (rawMedian s.cfg.n (s.rb.write s.writePos.toNat 858993459)).toNat ≤ 858993459 ∧
    ∀ val, Instr.filt val ∈ [Instr.filt 858993459] → val.toNat ≤ 858993459 := by
  refine ⟨by decide, by decide, by decide, ?_⟩
  intro val h
  obtain rfl : val = 858993459 := by simpa using h
  decide

/-- The sorted rearrangement of the ring of V-MF row 7, and a `FILT` that completes. -/
theorem test_witness_rawMedian :
    9 % 2 = 1 ∧
    [(1 : Word), 3, 3, 3, 7, 7, 7, 9, 9].Perm (Memory.slots 9 [(0, 7), (1, 7), (2, 3), (3, 3), (4, 3),
      (5, 9), (6, 9), (7, 7), (8, 1)]) ∧
    [(1 : Word), 3, 3, 3, 7, 7, 7, 9, 9].Pairwise (fun a b => a.toNat ≤ b.toNat) ∧
    (fresh cfgA).rb.wf = true ∧ ∃ t, exec (.filt 7) (fresh cfgA) = .next t :=
  ⟨rfl, by decide, by decide, rfl, exists_next (by decide)⟩

theorem test_witness_insertion :
    (fresh cfgEdge).rb.wf = true ∧ (∃ t, exec (.filt 7) (fresh cfgEdge) = .next t) ∧
    [(7 : Word)].length = (fresh cfgEdge).cfg.n ∧
    (∃ r, runCommands ([7].map .filt) (fresh cfgEdge) = .next r) ∧
    (∃ r, runCommands ([1, 2, 3].map .filt) (launch cfgA []) = .next r) ∧ 8 < cfgA.n :=
  ⟨rfl, exists_next (by decide), rfl, exists_next (by decide), exists_next (by decide), by decide⟩

/-- Five of nine slots hold 7 to 9 (V-MF row 7). -/
theorem test_witness_outlierRejection :
    9 / 2 < (Memory.slots 9 [(0, 7), (1, 7), (2, 3), (3, 3), (4, 3), (5, 9), (6, 9), (7, 7),
      (8, 1)]).countP (fun x => decide (7 ≤ x.toNat ∧ x.toNat ≤ 9)) := by decide

theorem test_witness_smoothingFixedPoints :
    (858993459 : Word).toNat ≤ 858993459 ∧ (95 : Word).toNat + 4 < (100 : Word).toNat ∧
    (100 : Word).toNat < (101 : Word).toNat := by decide

theorem test_witness_constantInput : (858993459 : Word).toNat ≤ 858993459 := by decide

/-- Both ends of both legal index ranges, and indices beside them. -/
theorem test_witness_rdIndices :
    ((0 : BitVec 27) = 0 ∧ ((0x18 : BitVec 5).toNat ≤ 0x08 ∨
      (0x10 ≤ (0x18 : BitVec 5).toNat ∧ (0x18 : BitVec 5).toNat < 0x10 + cfgA.n))) ∧
    ((0x08 : BitVec 5).toNat ≤ 0x08) ∧
    ¬ ((0x19 : BitVec 5).toNat ≤ 0x08 ∨
      (0x10 ≤ (0x19 : BitVec 5).toNat ∧ (0x19 : BitVec 5).toNat < 0x10 + cfgA.n)) ∧
    ¬ ((0x09 : BitVec 5).toNat ≤ 0x08 ∨
      (0x10 ≤ (0x09 : BitVec 5).toNat ∧ (0x09 : BitVec 5).toNat < 0x10 + cfgA.n)) ∧
    (launch cfgA [.command (0x05#8 ++ (0#27 ++ 0x19#5))]).inputs =
      .command (0x05#8 ++ (0#27 ++ 0x19#5)) :: [] := by decide

theorem test_witness_rdCompletes :
    (RegSel.rb 8).wellFormed (fresh cfgA).cfg.n = true ∧
    (RegSel.rb 9).wellFormed (fresh cfgA).cfg.n = false := by decide

theorem test_witness_repeatedReads : ∃ t, exec (.rd (.rb 8)) (fresh cfgA) = .next t :=
  exists_next (by decide)

/-- A command that completes, an opening edge, and one that faults. -/
theorem test_witness_counterIsHidden :
    (∃ t, exec .tick (timing cfgA 5 0) = .next t) ∧ (fresh cfgA).running = false ∧
    (∃ t, exec .edge (fresh cfgA) = .next t) ∧
    faultOf (exec (.rd (.rb 9)) (fresh cfgA)) = some (.illegalCommand 0x0500000019) :=
  ⟨⟨_, rfl⟩, rfl, ⟨_, rfl⟩, by decide⟩

/-- For the frames, the ownership and the records: each command completes in some state. -/
theorem test_witness_everyCommandCompletes :
    (∃ t, exec .nop (fresh cfgA) = .next t) ∧ (∃ t, exec .edge (fresh cfgA) = .next t) ∧
    (∃ t, exec .edge (timing cfgA 100 3500) = .next t) ∧
    (∃ t, exec .tick (timing cfgA 100 3500) = .next t) ∧
    (∃ t, exec (.settgt 7) (fresh cfgA) = .next t) ∧ (∃ t, exec (.filt 7) (fresh cfgA) = .next t) ∧
    (∃ t, exec (.rd .duty) (fresh cfgA) = .next t) ∧ (fresh cfgA).rb.wf = true :=
  ⟨⟨_, rfl⟩, ⟨_, rfl⟩, exists_next (by decide +kernel), ⟨_, rfl⟩, ⟨_, rfl⟩, exists_next (by decide),
    ⟨_, rfl⟩, rfl⟩

/-- Two states that differ in one unit only. -/
theorem test_witness_unitsDoNotInteract :
    SameLoop (timing cfgA 100 3500) ((timing cfgA 100 3500).setLastMedian 5) ∧
    SameFilter (fresh cfgA) (timing cfgA 100 3500) ∧
    (∃ t, exec .edge (timing cfgA 100 3500) = .next t) ∧
    (∃ t, exec (.filt 7) (fresh cfgA) = .next t) := by
  refine ⟨?_, ?_, exists_next (by decide +kernel), exists_next (by decide)⟩
  · unfold SameLoop
    decide
  · unfold SameFilter
    decide

/-- A fault of each command that has one. -/
theorem test_witness_faultsByCommand :
    faultOf (exec (.filt 4294967295) ((fresh cfgEdge).setLastMedian 858993459)) =
      some (.arithOverflow .smooth) ∧
    faultOf (exec .edge (timing cfgA 0 0)) = some .divideByZero ∧
    faultOf (exec (.rd (.rb 1)) (fresh cfgEdge)) = some (.illegalCommand 0x0500000011) ∧
    (launch cfgA [.command 0xFF00000000]).inputs = .command 0xFF00000000 :: [] := by decide

theorem test_witness_invariant : Inv (fresh cfgA) where
  canonical := rfl
  slots := rfl
  stopped := fun _ => ⟨rfl, rfl⟩
  position := by decide
  controller := .inl ⟨rfl, rfl, rfl, rfl, rfl⟩
  counter := by decide

theorem test_witness_stepKeepsTheInvariant :
    Inv (fresh cfgA) ∧ ∃ t, step (fresh cfgA) = .next t :=
  ⟨test_witness_invariant, ⟨_, rfl⟩⟩

theorem test_witness_nothingIsRefused : (fresh cfgEdge).writePos.toNat < (fresh cfgEdge).cfg.n := by
  decide

/-- A ring in canonical form, its last slot, and the first index that is none. -/
theorem test_witness_memory :
    Memory.wf [(0, 7), (8, 1)] = true ∧ Memory.within 9 [(0, 7), (8, 1)] = true ∧ 8 < 9 ∧ 9 ≤ 9 ∧
    7 < 9 ∧ 7 ≠ 8 := by decide

/-- An infinity, a negative value, and the first index that is no slot. -/
theorem test_witness_undefinedOperands :
    ¬ (Fp.isFinite 0x7F800000 = true ∧ 0 ≤ Fp.value 0x7F800000 ∧
      Fp.value 0x7F800000 < 2 ^ 32 * 2 ^ 149) ∧
    ¬ (Fp.isFinite 0x80000001 = true ∧ 0 ≤ Fp.value 0x80000001 ∧
      Fp.value 0x80000001 < 2 ^ 32 * 2 ^ 149) ∧ 9 ≤ 9 := by decide +kernel

/-- Two ways to the same ring. -/
theorem test_witness_canonicalMemory :
    let m := (Memory.write [] 8 1).write 0 7
    let m' := ((Memory.write [] 0 7).write 8 1).write 3 0
    m.wf = true ∧ m'.wf = true ∧ m = m' := by decide

/-- Sequences from reset with no, one and two edges, without `EDGE` and without `FILT`. -/
theorem test_witness_reachable :
    (∃ r, runCommands [.tick, .filt 3] (launch cfgA []) = .next r) ∧
    (∃ r, runCommands [.edge, .tick] (launch cfgA []) = .next r) ∧
    (∃ r, runCommands [.edge, .tick, .edge] (launch cfgA []) = .next r) ∧
    edges [.edge, .tick, .edge] = 2 ∧ Instr.edge ∉ [Instr.tick, .filt 3] ∧
    (∀ i ∈ [Instr.edge, .tick], isFilt i = false) :=
  ⟨exists_next (by decide), exists_next (by decide), exists_next (by decide +kernel), by decide,
    by decide, by decide⟩

/-- A decimal with a point, one without, and a pattern; a gain of each sign. -/
theorem test_witness_decimalGains :
    ('.' ∉ ['0'] ∧ digits 10 (['0'] ++ "0625".toList) 0 = some 625) ∧
    digits 10 ['4'] 0 = some 4 ∧ digits 16 "3F000000".toList 0 = some 0x3F000000 ∧
    gain "0.0625".toList = some 0x3D800000 ∧ gain "-4".toList = some 0xC0800000 := by decide +kernel

/-- A program that has begun and goes on, numbers at the ends of their range, and a configuration of each
kind. -/
theorem test_witness_programs :
    (let p : Program := (Program.start cfgA.toParams).add (.command .nop)
    p.begun = true ∧ (parseProgram p [".cfg N = 1".toList, "TICK".toList]).isSome = true) ∧
    (Program.start cfgA.toParams).begun = false ∧
    numberWithin 32 "0".toList = some 0 ∧ numberWithin 32 "0xFFFFFFFF".toList = some 4294967295 ∧
    number "0xFFFFFFFFFF".toList = some (2 ^ 40 - 1) ∧ number "0".toList = some 0 ∧
    gain "0x3D800000".toList = some 0x3D800000 ∧
    (Program.start cfgA.toParams).params.wf = true ∧
    (Program.start { cfgA.toParams with w := 16 }).params.wf = false ∧
    (parseProgram (.start cfgA.toParams) [".reset".toList]).isSome = true := by decide +kernel

/-- The `N` in force reads a register name, and `.reset` and `TICKS 0` begin no commands (log 18). -/
theorem test_program_order :
    (parseProgram (.start cfgA.toParams) [".cfg N = 11".toList, "RD RB9".toList]).isSome = true ∧
    parseProgram (.start cfgA.toParams) ["RD RB9".toList, ".cfg N = 11".toList] = none ∧
    (parseProgram (.start cfgA.toParams) [".reset".toList, "TICKS 0".toList,
      ".cfg N = 11".toList]).map (fun q => q.params.n) = some 11 ∧
    (parseProgram (.start cfgA.toParams) ["TICKS 1".toList,
      ".cfg N = 11".toList]).map (fun q => q.params.n) = some 9 := by decide +kernel

end Sys2Proof.Tests
end

section
/-! PROOFS. What a step can do, and the frame of every command: no command writes the configuration or takes from what is presented (spec/00_scope.md rule R4; spec/10_state.md rule R44). -/

namespace Sys2Proof.Machine

/-! ## What a step can do -/

theorem step_of_idle {s : State} (h : s.inputs = []) : step s = .next s := by
  simp [step, take, h]

theorem step_of_reset {s : State} {rest : List Input} (h : s.inputs = .reset :: rest) :
    step s = .next (rst (s.setInputs rest)) := by
  simp [step, take, h]

theorem step_of_decode_ok {s : State} {w : CmdWord} {rest : List Input} {i : Instr}
    (h : s.inputs = .command w :: rest) (hd : decode s.cfg.n w = .ok i) :
    step s = exec i (s.setInputs rest) := by
  simp [step, take, h, hd]

theorem step_of_decode_error {s : State} {w : CmdWord} {rest : List Input} {e : Reserved}
    (h : s.inputs = .command w :: rest) (hd : decode s.cfg.n w = .error e) :
    step s = .fault (.illegalCommand w) := by
  simp [step, take, raise, h, hd]

/-- A step that completes holds the state, resets it, or completes one command. -/
theorem step_eq_next {s t : State} :
    step s = .next t ↔ (s.inputs = [] ∧ t = s) ∨
      (∃ rest, s.inputs = .reset :: rest ∧ t = rst (s.setInputs rest)) ∨
      ∃ w rest i, s.inputs = .command w :: rest ∧ decode s.cfg.n w = .ok i ∧
        exec i (s.setInputs rest) = .next t := by
  match h : s.inputs with
  | [] => simp [step_of_idle h, @eq_comm _ t]
  | .reset :: rest => simp [step_of_reset h, @eq_comm _ t]
  | .command w :: rest =>
    cases hd : decode s.cfg.n w with
    | ok i => simp [step_of_decode_ok h hd, hd]
    | error e => simp [step_of_decode_error h hd, hd]

/-! ## The frame of every command -/

@[simp] theorem advance_cfg (s : State) : (advance s).cfg = s.cfg := by
  unfold advance
  split <;> rfl

@[simp] theorem advance_inputs (s : State) : (advance s).inputs = s.inputs := by
  unfold advance
  split <;> rfl

@[simp] theorem etOpen_cfg (s : State) : (etOpen s).cfg = s.cfg := rfl

@[simp] theorem etOpen_inputs (s : State) : (etOpen s).inputs = s.inputs := rfl

theorem execTick_keeps_cfg_inputs {s t : State} (h : execTick s = .next t) :
    t.cfg = s.cfg ∧ t.inputs = s.inputs := by
  obtain rfl := Host.Outcome.next.inj h
  cases s.running <;> simp

theorem execEdge_keeps_cfg_inputs {s t : State} (h : execEdge s = .next t) :
    t.cfg = s.cfg ∧ t.inputs = s.inputs := by
  cases hr : s.running with
  | false =>
    rw [execEdge_of_idle hr] at h
    obtain rfl := Host.Outcome.next.inj h
    simp
  | true =>
    obtain ⟨-, _, -, _, hpi, _, -, rfl⟩ := (execEdge_eq_next_of_timing hr).1 h
    obtain ⟨_, _, -, -, -, rfl⟩ := piUpdate_eq_next.1 hpi
    simp

/-- A command that completes leaves the configuration and what is presented as they were. -/
theorem exec_keeps_cfg_inputs {i : Instr} {s t : State} (h : exec i s = .next t) :
    t.cfg = s.cfg ∧ t.inputs = s.inputs := by
  cases i with
  | nop =>
    obtain rfl := Host.Outcome.next.inj h
    simp
  | edge => exact execEdge_keeps_cfg_inputs h
  | tick => exact execTick_keeps_cfg_inputs h
  | settgt val =>
    obtain rfl := Host.Outcome.next.inj h
    simp
  | filt val =>
    obtain ⟨-, _, -, rfl⟩ := execFilt_eq_next.1 h
    simp
  | rd reg =>
    obtain ⟨_, -, rfl⟩ := execRd_eq_next.1 h
    simp

/-- Settles O12: a step holds the state, resets it or completes a command, and none of the three writes
the configuration or takes more than what is presented first. -/
theorem stepKeepsTheConfiguration : Obligations.StepKeepsTheConfiguration := by
  intro s t h
  obtain ⟨hin, rfl⟩ | ⟨rest, hin, rfl⟩ | ⟨w, rest, i, hin, -, hexec⟩ := step_eq_next.1 h
  · simp [hin]
  · simp [hin]
  · simpa [hin] using exec_keeps_cfg_inputs hexec

end Sys2Proof.Machine
end

section
/-! PROOFS. What each command does when it completes, said once, and from it the frame of the registers (spec/10_state.md rules R21 to R35), the records (rule R45) and the two independent halves of the state (rules R36, R39). -/

namespace Sys2Proof.Machine

open Sys2Proof.Safety

/-! ## Completed commands -/

/-- The counter after a `TICK` (R113). -/
def tickedCnt (s : State) : Word :=
  if s.running then (if s.cnt.toNat = 2 ^ s.cfg.cw - 1 then 0 else s.cnt + 1) else s.cnt

/-- The wrap flag after a `TICK` (R25, R113). -/
def tickedOvf (s : State) : Bool :=
  if s.running = true ∧ s.cnt.toNat = 2 ^ s.cfg.cw - 1 then true else s.cntOvf

theorem execTick_eq (s : State) :
    execTick s = .next ((s.begin.setCnt (tickedCnt s)).setCntOvf (tickedOvf s)) := by
  cases hr : s.running with
  | false =>
    simp only [execTick, tickedCnt, tickedOvf, hr]
    rfl
  | true =>
    by_cases hw : s.cnt.toNat = 2 ^ s.cfg.cw - 1
    · simp [execTick, advance, tickedCnt, tickedOvf, hr, hw]
    · simp only [execTick, advance, tickedCnt, tickedOvf, hr, hw, State.begin_cnt, State.begin_cfg]
      rfl

/-- The state that a closing edge leaves, by what it computes: the rate `m`, the output, the
accumulator and the duty (R161). -/
def closedState (s : State) (m output errorSum duty : Word) : State :=
  { s with
    running := false
    cnt := 0
    elapsedTicks := s.cnt
    measuredRate := m
    output := output
    errorSum := errorSum
    duty := duty
    out := ⟨true, some duty, none⟩ }

/-- The state that `FILT val` leaves when the smoothed value is `v` (R180, R181). -/
def filteredState (s : State) (val v : Word) : State :=
  (((s.begin.setRb (s.rb.write s.writePos.toNat val)).setWritePos
    (BitVec.ofNat 4 ((s.writePos.toNat + 1) % s.cfg.n))).setLastMedian v).emitRes v

/-- `Completes s i t`: the command `i` completes in the state `s` and leaves `t`. One constructor for
each command, two for `EDGE`, with the conditions on which it completes. -/
inductive Completes (s : State) : Instr → State → Prop where
  | nop : Completes s .nop s.begin
  | opening (idle : s.running = false) : Completes s .edge (etOpen s.begin)
  | closing {m error sum1 raw d : Word} (timing : s.running = true) (fresh : s.cntOvf = false)
      (hrate : rate s.cfg s.cnt = .next m)
      (herror : error.toInt = (s.targetRate.toNat : Int) - m.toNat)
      (hsum : sum1.toInt = s.errorSum.toInt + error.toInt)
      (hraw : raw = rawOutput s.cfg error sum1 (period s.cfg s.cnt))
      (hnan : Fp.isNan raw = false)
      (hduty : Fp.f2uTrunc (clampedOutput s.cfg raw) = some d) :
      Completes s .edge
        (closedState s m (clampedOutput s.cfg raw) (rolledBackSum s.cfg error sum1 raw) d)
  | tick : Completes s .tick ((s.begin.setCnt (tickedCnt s)).setCntOvf (tickedOvf s))
  | settgt {val : Word} : Completes s (.settgt val) (s.begin.setTargetRate val)
  | filt {val v : Word} (position : s.writePos.toNat < s.cfg.n)
      (hsmooth : smooth s.lastMedian (rawMedian s.cfg.n (s.rb.write s.writePos.toNat val)) =
        .next v) :
      Completes s (.filt val) (filteredState s val v)
  | rd {reg : RegSel} {v : Word} (hview : regView reg s = .next v) :
      Completes s (.rd reg) (s.begin.emitRes v)

theorem completes_of_execEdge {s t : State} (h : execEdge s = .next t) : Completes s .edge t := by
  cases hr : s.running with
  | false =>
    obtain rfl := Host.Outcome.next.inj ((execEdge_of_idle hr).symm.trans h)
    exact .opening hr
  | true =>
    obtain ⟨ho, m, hm, s2, hpi, d, hd, rfl⟩ := (execEdge_eq_next_of_timing hr).1 h
    obtain ⟨error, sum1, he, hs, hn, rfl⟩ := piUpdate_eq_next.1 hpi
    exact .closing hr ho hm he hs rfl hn hd

/-- What a command can do when it completes. -/
theorem exec_eq_next {i : Instr} {s t : State} : exec i s = .next t ↔ Completes s i t := by
  constructor
  · intro h
    cases i with
    | nop =>
      obtain rfl := Host.Outcome.next.inj h
      exact .nop
    | edge => exact completes_of_execEdge h
    | tick =>
      obtain rfl := Host.Outcome.next.inj ((execTick_eq s).symm.trans h)
      exact .tick
    | settgt val =>
      obtain rfl := Host.Outcome.next.inj h
      exact .settgt
    | filt val =>
      obtain ⟨hp, v, hv, rfl⟩ := execFilt_eq_next.1 h
      exact .filt hp hv
    | rd reg =>
      obtain ⟨v, hv, rfl⟩ := execRd_eq_next.1 h
      exact .rd hv
  · intro h
    cases h with
    | nop => rfl
    | opening idle => exact execEdge_of_idle idle
    | closing timing fresh hrate herror hsum hraw hnan hduty =>
      subst hraw
      exact (execEdge_eq_next_of_timing timing).2
        ⟨fresh, _, hrate, _, piUpdate_eq_next.2 ⟨_, _, herror, hsum, hnan, rfl⟩, _, hduty, rfl⟩
    | tick => exact execTick_eq s
    | settgt => rfl
    | filt position hsmooth => exact execFilt_eq_next.2 ⟨position, _, hsmooth, rfl⟩
    | rd hview => exact execRd_eq_next.2 ⟨_, hview, rfl⟩

/-! ## The frame of the registers -/

section
variable {i : Instr} {s t : State}

/-- Only `EDGE` writes the sequencer's state and what a closing edge computes. -/
theorem Completes.keeps_measurement (h : Completes s i t) (hi : i ≠ .edge) :
    t.running = s.running ∧ t.elapsedTicks = s.elapsedTicks ∧ t.measuredRate = s.measuredRate ∧
      t.errorSum = s.errorSum ∧ t.output = s.output ∧ t.duty = s.duty := by
  cases h <;> simp [filteredState] at hi ⊢

/-- An opening edge writes nothing that a closing edge computes. -/
theorem Completes.opening_keeps_measurement (h : Completes s .edge t) (idle : s.running = false) :
    t.elapsedTicks = s.elapsedTicks ∧ t.measuredRate = s.measuredRate ∧
      t.errorSum = s.errorSum ∧ t.output = s.output ∧ t.duty = s.duty := by
  cases h with
  | opening => exact ⟨rfl, rfl, rfl, rfl, rfl⟩
  | closing timing => simp [idle] at timing

/-- Only `EDGE` and `TICK` write the counter. -/
theorem Completes.keeps_cnt (h : Completes s i t) (he : i ≠ .edge) (ht : i ≠ .tick) :
    t.cnt = s.cnt := by
  cases h <;> simp [filteredState] at he ht ⊢

/-- Only `TICK` writes the wrap flag. -/
theorem Completes.keeps_cntOvf (h : Completes s i t) (ht : i ≠ .tick) : t.cntOvf = s.cntOvf := by
  cases h <;> simp [filteredState, closedState, etOpen] at ht ⊢

/-- Only `SETTGT` writes the target. -/
theorem Completes.keeps_targetRate (h : Completes s i t) (hi : ∀ val, i ≠ .settgt val) :
    t.targetRate = s.targetRate := by
  cases h <;> simp [filteredState, closedState, etOpen] at hi ⊢

/-- Only `FILT` writes the state of unit MF. -/
theorem Completes.keeps_filter (h : Completes s i t) (hi : isFilt i = false) :
    t.rb = s.rb ∧ t.writePos = s.writePos ∧ t.lastMedian = s.lastMedian := by
  cases h <;> simp [isFilt, closedState, etOpen] at hi ⊢

end

/-- Settles O46: each register's frame, from what each command does when it completes. -/
theorem frameOfRegisters : Obligations.FrameOfRegisters := by
  intro i s t h
  obtain ⟨hcfg, hin⟩ := exec_keeps_cfg_inputs h
  have hc := exec_eq_next.1 h
  exact ⟨hcfg, hin, hc.keeps_measurement, fun hi idle => (hi ▸ hc).opening_keeps_measurement idle,
    hc.keeps_cnt, hc.keeps_cntOvf, hc.keeps_targetRate, hc.keeps_filter⟩

/-- Settles O49: the record that each command leaves. -/
theorem recordsByCommand : Obligations.RecordsByCommand := by
  intro i s t h
  cases exec_eq_next.1 h with
  | nop => simp [OutRecord.none]
  | opening idle => simp [idle, etOpen, OutRecord.none]
  | closing timing => simp [timing, closedState]
  | tick => simp [OutRecord.none]
  | settgt => simp [OutRecord.none]
  | filt => simp [filteredState, OutRecord.none]
  | rd => simp [OutRecord.none]

/-! ## The halves of the state that do not meet (R36, R39) -/

/-- The register view shows neither the counter nor the wrap flag (R39, R41). -/
theorem regView_of_counter (reg : RegSel) (s : State) (c : Word) (o : Bool) :
    regView reg { s with cnt := c, cntOvf := o } = regView reg s := by
  cases reg <;> rfl

/-- A command that completes, and is no closing edge, completes with any other counter and wrap flag
too, and leaves a state that differs in these alone. -/
theorem Completes.of_counter {i : Instr} {s t : State} (h : Completes s i t)
    (hi : i = .edge → s.running = false) (c : Word) (o : Bool) :
    ∃ c' o', Completes { s with cnt := c, cntOvf := o } i { t with cnt := c', cntOvf := o' } := by
  cases h with
  | nop => exact ⟨c, o, .nop⟩
  | opening idle => exact ⟨0, o, .opening idle⟩
  | closing timing => simp [hi rfl] at timing
  | tick => exact ⟨_, _, .tick⟩
  | settgt => exact ⟨c, o, .settgt⟩
  | filt position hsmooth => exact ⟨c, o, .filt position hsmooth⟩
  | rd hview => exact ⟨c, o, .rd ((regView_of_counter _ s c o).trans hview)⟩

/-- An insertion completes or is refused. -/
theorem insertSample_ne_fault {val : Word} {s : State} {f : Fault} :
    insertSample val s ≠ .fault f := by
  unfold insertSample memWrite
  split <;> simp [andThen]

/-- What a fault of `FILT` comes from. -/
theorem execFilt_eq_fault {val : Word} {s : State} {f : Fault} :
    execFilt val s = .fault f ↔ s.writePos.toNat < s.cfg.n ∧
      smooth s.lastMedian (rawMedian s.cfg.n (s.rb.write s.writePos.toNat val)) = .fault f := by
  unfold execFilt
  simp only [andThen_eq_fault, insertSample_ne_fault, insertSample_eq_next, false_or, reduceCtorEq,
    and_false, exists_false, or_false]
  constructor
  · rintro ⟨s1, ⟨hp, rfl⟩, hf⟩
    exact ⟨hp, hf⟩
  · rintro ⟨hp, hf⟩
    exact ⟨_, ⟨hp, rfl⟩, hf⟩

/-- What a fault of `RD` comes from. -/
theorem execRd_eq_fault {reg : RegSel} {s : State} {f : Fault} :
    execRd reg s = .fault f ↔ regView reg s = .fault f := by
  simp [execRd, andThen_eq_fault]

/-- A command that is no closing edge raises the same fault with any other counter and wrap flag. -/
theorem exec_eq_fault_of_counter {i : Instr} {s : State} {f : Fault} (h : exec i s = .fault f)
    (hi : i = .edge → s.running = false) (c : Word) (o : Bool) :
    exec i { s with cnt := c, cntOvf := o } = .fault f := by
  cases i with
  | nop => cases h
  | edge => cases (execEdge_of_idle (hi rfl)).symm.trans h
  | tick => cases (execTick_eq s).symm.trans h
  | settgt val => cases h
  | filt val =>
    obtain ⟨hp, hs⟩ := execFilt_eq_fault.1 h
    exact execFilt_eq_fault.2 ⟨hp, hs⟩
  | rd reg =>
    exact execRd_eq_fault.2 ((regView_of_counter reg s c o).trans (execRd_eq_fault.1 h))

/-- Settles O45: a command that is no closing edge neither completes nor faults by the counter. -/
theorem counterIsHidden : Obligations.CounterIsHidden := by
  intro i s c o hi
  constructor
  · intro t h
    obtain ⟨c', o', h'⟩ := (exec_eq_next.1 h).of_counter hi c o
    exact ⟨c', o', exec_eq_next.2 h'⟩
  · intro f h
    exact exec_eq_fault_of_counter h hi c o

/-- What a command other than `FILT` and `RD` leaves in ET and PI, and its record, depend on ET and PI
alone. -/
theorem Completes.of_sameLoop {i : Instr} {s s' t : State} (h : Completes s i t) (hcfg : s.cfg = s'.cfg)
    (hloop : SameLoop s s') (hf : isFilt i = false) (hr : ∀ reg, i ≠ .rd reg) :
    ∃ t', Completes s' i t' ∧ SameLoop t t' ∧ t.out = t'.out := by
  obtain ⟨hrun, hcnt, hovf, helapsed, htarget, hmeasured, hsum, hout, hduty⟩ := id hloop
  cases h with
  | nop => exact ⟨_, .nop, hloop, rfl⟩
  | opening idle => exact ⟨_, .opening (hrun ▸ idle), by simp [SameLoop, etOpen, *], rfl⟩
  | closing timing fresh hrate herror hsum1 hraw hnan hduty1 =>
    rw [hrun] at timing
    rw [hovf] at fresh
    rw [hcfg, hcnt] at hrate hraw
    rw [htarget] at herror
    rw [hsum] at hsum1
    rw [hcfg] at hduty1 ⊢
    refine ⟨_, .closing timing fresh hrate herror hsum1 hraw hnan hduty1, ?_, rfl⟩
    simp only [SameLoop, closedState, hcnt, htarget, hovf, and_self]
  | tick =>
    refine ⟨_, .tick, ?_, rfl⟩
    simp [SameLoop, tickedCnt, tickedOvf, *]
  | settgt =>  exact ⟨_, .settgt, by simp [SameLoop, *], rfl⟩
  | filt => cases hf
  | rd => exact absurd rfl (hr _)

/-- What `FILT` leaves in MF, and its record, depend on MF alone. -/
theorem Completes.of_sameFilter {val : Word} {s s' t : State} (h : Completes s (.filt val) t)
    (hcfg : s.cfg = s'.cfg) (hfilter : SameFilter s s') :
    ∃ t', Completes s' (.filt val) t' ∧ SameFilter t t' ∧ t.out = t'.out := by
  obtain ⟨hrb, hpos, hlast⟩ := hfilter
  cases h with
  | filt position hsmooth =>
    refine ⟨_, .filt (hcfg ▸ hpos ▸ position) (hcfg ▸ hpos ▸ hrb ▸ hlast ▸ hsmooth), ?_, rfl⟩
    simp [SameFilter, filteredState, *]

/-- A command other than `FILT` leaves the state of unit MF as it was. -/
theorem Completes.sameFilter {i : Instr} {s t : State} (h : Completes s i t) (hi : isFilt i = false) :
    SameFilter s t := by
  obtain ⟨hrb, hpos, hlast⟩ := h.keeps_filter hi
  exact ⟨hrb.symm, hpos.symm, hlast.symm⟩

/-- `FILT` leaves the state of units ET and PI as it was. -/
theorem Completes.sameLoop {i : Instr} {s t : State} (h : Completes s i t) (hi : isFilt i = true) :
    SameLoop s t := by
  cases h with
  | filt => simp [SameLoop, filteredState]
  | _ => cases hi

/-- Settles O48: what each command touches, and what it depends on. -/
theorem unitsDoNotInteract : Obligations.UnitsDoNotInteract := by
  refine ⟨fun i s t h => ?_, fun i s s' t hcfg hloop hf hr h => ?_, fun val s s' t hcfg hfilter h => ?_⟩
  · have hc := exec_eq_next.1 h
    refine ⟨?_, ?_, hc.sameLoop, ?_⟩
    · rintro (rfl | rfl) <;> exact hc.sameFilter rfl
    · rintro val rfl
      cases hc
      rfl
    · rintro (rfl | ⟨reg, rfl⟩) <;> cases hc <;> rfl
  · obtain ⟨t', ht', h'⟩ := (exec_eq_next.1 h).of_sameLoop hcfg hloop hf hr
    exact ⟨t', exec_eq_next.2 ht', h'⟩
  · obtain ⟨t', ht', h'⟩ := (exec_eq_next.1 h).of_sameFilter hcfg hfilter
    exact ⟨t', exec_eq_next.2 ht', h'⟩

end Sys2Proof.Machine
end

section
/-! PROOFS. The invariants of spec/10_state.md rule R40: what reset establishes and every step keeps, and what every run from reset meets. -/

namespace Sys2Proof

/-- The bounds of a well-formed configuration that the invariants rest on (R5). -/
theorem Config.bounds (cfg : Config) : 0 < cfg.n ∧ cfg.n ≤ 15 ∧ cfg.minOut ≤ cfg.maxOut ∧
    cfg.maxOut < 2 ^ 24 ∧ 1 ≤ cfg.cw ∧ cfg.cw ≤ 32 := by
  have h := cfg.ok
  simp only [Params.wf, Bool.and_eq_true, decide_eq_true_eq, beq_iff_eq] at h
  obtain ⟨⟨⟨⟨⟨⟨⟨⟨⟨⟨-, hodd⟩, hn⟩, hout⟩, hmax⟩, -⟩, -⟩, hcw⟩, hcw'⟩, -⟩, -⟩ := h
  exact ⟨by omega, hn, hout, hmax, hcw, hcw'⟩

/-- A counter of `CW` bits fits its word (log 11). -/
theorem Config.two_pow_cw_le (cfg : Config) : 2 ^ cfg.cw ≤ 2 ^ 32 := by
  obtain ⟨-, -, -, -, -, hcw⟩ := cfg.bounds
  exact Nat.pow_le_pow_right (by omega) hcw

namespace Fp

/-- The magnitude of an infinity. -/
theorem mag_of_isInf {a : Word} (h : isInf a = true) : mag a = 2 ^ 277 := by
  simp only [isInf, Bool.and_eq_true, beq_iff_eq] at h
  obtain ⟨he, hf⟩ := h
  rw [mag, he, hf, if_neg (by decide), Nat.add_zero, ← pow_add]

/-- A pattern that is no NaN is finite if its magnitude is below that of infinity. -/
theorem isFinite_of_mag_lt {a : Word} (hn : isNan a = false) (h : mag a < 2 ^ 277) :
    isFinite a = true := by
  obtain hf | hi | hn' := finite_or_inf_or_nan a
  · exact hf
  · exact absurd (mag_of_isInf hi) h.ne
  · simp [hn] at hn'

/-- A value that is not negative is the magnitude. -/
theorem mag_of_value_nonneg {a : Word} (h : 0 ≤ value a) : (mag a : Int) = value a := by
  rw [← abs_value, abs_of_nonneg h]

/-- A magnitude of less than `2^24` lies below that of infinity. -/
theorem lt_of_le_scaled {m k : Nat} (hk : k < 2 ^ 24) (h : m ≤ k * 2 ^ 149) : m < 2 ^ 277 := by
  have h1 : k * 2 ^ 149 ≤ 2 ^ 24 * 2 ^ 149 := Nat.mul_le_mul_right _ hk.le
  rw [← pow_add] at h1
  refine (h.trans h1).trans_lt ?_
  gcongr <;> omega

/-- An integer below `2^24` is converted exactly (R134). -/
theorem fOfInt_exact {k : Nat} (hk : k < 2 ^ 24) :
    isFinite (fOfInt k) = true ∧ value (fOfInt k) = (k : Int) * 2 ^ 149 := by
  have hm := mag_round_int false hk
  constructor
  · exact (isFinite_round_iff _ _ _).2 (lt_of_le_scaled hk hm.le)
  · simp only [fOfInt, value, sign_round, hm, Bool.false_eq_true, if_false]
    norm_cast

/-- The integer part of an operand, where it is defined (R137). -/
theorem toNat_of_f2uTrunc {a d : Word} (h : f2uTrunc a = some d) : d.toNat = mag a / 2 ^ 149 := by
  unfold f2uTrunc at h
  split at h
  · rename_i hdom
    obtain rfl := Option.some.inj h
    obtain ⟨-, -, hm⟩ := hdom
    exact Nat.mod_eq_of_lt (Nat.div_lt_of_lt_mul (Nat.mul_comm _ _ ▸ hm))
  · cases h

end Fp

namespace Machine

open Sys2Proof.Safety

/-! ## The controller -/

/-- The value of an integer, in units of `2^-149`, is not negative and grows with it. -/
theorem scaled_nonneg (k : Nat) : (0 : Int) ≤ (k : Int) * 2 ^ 149 := by positivity

theorem scaled_mono {j k : Nat} (h : j ≤ k) : (j : Int) * 2 ^ 149 ≤ (k : Int) * 2 ^ 149 :=
  mul_le_mul_of_nonneg_right (by exact_mod_cast h) (by positivity)

/-- The integer part of a value within integer bounds lies within them. -/
theorem f2uTrunc_within {lo hi : Nat} {a d : Word} (ha : OutputWithin lo hi a)
    (h : Fp.f2uTrunc a = some d) : lo ≤ d.toNat ∧ d.toNat ≤ hi := by
  obtain ⟨-, hlo, hhi⟩ := ha
  have hv : 0 ≤ Fp.value a := (scaled_nonneg lo).trans hlo
  rw [← Fp.mag_of_value_nonneg hv] at hlo hhi
  rw [Fp.toNat_of_f2uTrunc h]
  constructor
  · exact (Nat.le_div_iff_mul_le (Nat.two_pow_pos _)).2 (by exact_mod_cast hlo)
  · exact Nat.div_le_of_le_mul (Nat.mul_comm _ _ ▸ by exact_mod_cast hhi)

/-- The clamped output lies within the bounds, whatever the raw output, unless that is a NaN
(R143, R144). -/
theorem clampedOutput_within {cfg : Config} {raw : Word} (hn : Fp.isNan raw = false) :
    OutputWithin cfg.minOut cfg.maxOut (clampedOutput cfg raw) := by
  obtain ⟨-, -, hle, hmax, -, -⟩ := cfg.bounds
  obtain ⟨hmaxf, hmaxv⟩ := Fp.fOfInt_exact hmax
  obtain ⟨hminf, hminv⟩ := Fp.fOfInt_exact (hle.trans_lt hmax)
  unfold clampedOutput
  split_ifs with hgt hlt
  · exact ⟨hmaxf, (scaled_mono hle).trans_eq hmaxv.symm, hmaxv.le⟩
  · exact ⟨hminf, hminv.ge, hminv.trans_le (scaled_mono hle)⟩
  · simp only [Fp.fgt, Fp.flt, hn, Fp.not_isNan_of_isFinite hmaxf, Fp.not_isNan_of_isFinite hminf,
      hmaxv, hminv, Bool.not_false, Bool.true_and, decide_eq_true_eq, not_lt] at hgt hlt
    refine ⟨Fp.isFinite_of_mag_lt hn ?_, hlt, hgt⟩
    have hm := Fp.mag_of_value_nonneg ((scaled_nonneg cfg.minOut).trans hlt)
    exact Fp.lt_of_le_scaled hmax (by exact_mod_cast hm.trans_le hgt)

section
variable {i : Instr} {s t : State}

/-- A closing edge leaves an output within the bounds and its integer part as the duty (R40 (c)). -/
theorem Completes.controlled (h : Completes s .edge t) (timing : s.running = true) : Controlled t := by
  cases h with
  | opening idle => simp [idle] at timing
  | closing _ _ _ _ _ _ hnan hduty =>
    have hw := clampedOutput_within (cfg := s.cfg) hnan
    obtain ⟨hlo, hhi⟩ := f2uTrunc_within hw hduty
    exact ⟨hw, hduty, hlo, hhi⟩

/-- A command that is no closing edge writes none of the registers that a closing edge computes. -/
theorem Completes.keeps_controller (h : Completes s i t) (hi : i = .edge → s.running = false) :
    t.elapsedTicks = s.elapsedTicks ∧ t.measuredRate = s.measuredRate ∧
      t.errorSum = s.errorSum ∧ t.output = s.output ∧ t.duty = s.duty := by
  by_cases he : i = .edge
  · subst he
    exact h.opening_keeps_measurement (hi rfl)
  · exact (h.keeps_measurement he).2

/-- Every command but a closing edge keeps (d). -/
theorem Completes.keeps_pristine (h : Completes s i t) (hi : i = .edge → s.running = false)
    (hs : Pristine s) : Pristine t := by
  obtain ⟨helapsed, hmeasured, hsum, hout, hduty⟩ := h.keeps_controller hi
  exact ⟨hout.trans hs.output, hduty.trans hs.duty, hsum.trans hs.errorSum,
    hmeasured.trans hs.measuredRate, helapsed.trans hs.elapsedTicks⟩

theorem Completes.keeps_cfg (h : Completes s i t) : t.cfg = s.cfg :=
  (exec_keeps_cfg_inputs (exec_eq_next.2 h)).1

/-- Every command keeps (c): a closing edge establishes it, every other leaves it alone. -/
theorem Completes.keeps_controlled (h : Completes s i t) (hs : Controlled s) : Controlled t := by
  by_cases hi : i = .edge → s.running = false
  · obtain ⟨-, -, -, hout, hduty⟩ := h.keeps_controller hi
    obtain ⟨h1, h2, h3, h4⟩ := hs
    exact ⟨by rwa [h.keeps_cfg, hout], by rwa [hout, hduty], by rwa [h.keeps_cfg, hduty],
      by rwa [h.keeps_cfg, hduty]⟩
  · obtain ⟨rfl, timing⟩ : i = .edge ∧ s.running = true := by simpa using hi
    exact h.controlled timing

/-! ## The counter and the ring -/

/-- Every command keeps (a). -/
theorem Completes.keeps_stopped (h : Completes s i t)
    (hs : s.running = false → s.cnt = 0 ∧ s.cntOvf = false) :
    t.running = false → t.cnt = 0 ∧ t.cntOvf = false := by
  intro idle
  cases h with
  | opening => cases idle
  | closing _ fresh => exact ⟨rfl, fresh⟩
  | tick =>
    obtain ⟨hc, ho⟩ := hs idle
    have hr : s.running = false := idle
    simp [tickedCnt, tickedOvf, hr, hc, ho]
  | _ => simpa [filteredState] using hs (by simpa [filteredState] using idle)

/-- A tick of an open window counts modulo `2^CW` (R113). -/
theorem toNat_tickedCnt (hr : s.running = true) (hs : s.cnt.toNat < 2 ^ s.cfg.cw) :
    (tickedCnt s).toNat = (s.cnt.toNat + 1) % 2 ^ s.cfg.cw := by
  have hw := s.cfg.two_pow_cw_le
  have hone : (1 : Word).toNat = 1 := rfl
  rw [tickedCnt, if_pos hr]
  split_ifs with hc
  · rw [hc, Nat.sub_add_cancel (Nat.two_pow_pos _), Nat.mod_self]
    rfl
  · rw [BitVec.toNat_add, hone, Nat.mod_eq_of_lt (by omega), Nat.mod_eq_of_lt (by omega)]

/-- A tick leaves the counter within its `CW` bits. -/
theorem tickedCnt_lt (hs : s.cnt.toNat < 2 ^ s.cfg.cw) : (tickedCnt s).toNat < 2 ^ s.cfg.cw := by
  cases hr : s.running with
  | false => simpa [tickedCnt, hr] using hs
  | true => exact toNat_tickedCnt hr hs ▸ Nat.mod_lt _ (Nat.two_pow_pos _)

/-- Every command keeps (e). -/
theorem Completes.keeps_counter (h : Completes s i t) (hs : s.cnt.toNat < 2 ^ s.cfg.cw) :
    t.cnt.toNat < 2 ^ t.cfg.cw := by
  rw [h.keeps_cfg]
  cases h with
  | opening => exact Nat.two_pow_pos _
  | closing => exact Nat.two_pow_pos _
  | tick => exact tickedCnt_lt hs
  | _ => simpa [filteredState] using hs

/-- Every command keeps (b): `FILT` leaves a remainder modulo `N`. -/
theorem Completes.keeps_position (h : Completes s i t) (hs : s.writePos.toNat < s.cfg.n) :
    t.writePos.toNat < t.cfg.n := by
  rw [h.keeps_cfg]
  cases h with
  | filt =>
    obtain ⟨hpos, -⟩ := s.cfg.bounds
    exact (Nat.mod_le _ _).trans_lt (Nat.mod_lt _ hpos)
  | _ => exact hs

/-- Every command keeps the ring in canonical form, within its slots. -/
theorem Completes.keeps_ring (h : Completes s i t) (hc : s.rb.wf = true)
    (hw : s.rb.within s.cfg.n = true) : t.rb.wf = true ∧ t.rb.within t.cfg.n = true := by
  rw [h.keeps_cfg]
  cases h with
  | filt position => exact ⟨Memory.write_wf hc _ _, Memory.write_within hw position _⟩
  | _ => exact ⟨hc, hw⟩

/-! ## The invariant -/

/-- A command that completes keeps the invariant. -/
theorem Completes.keeps_inv (h : Completes s i t) (hs : Inv s) : Inv t := by
  obtain ⟨hc, hw⟩ := h.keeps_ring hs.canonical hs.slots
  refine ⟨hc, hw, h.keeps_stopped hs.stopped, h.keeps_position hs.position, ?_,
    h.keeps_counter hs.counter⟩
  by_cases hi : i = .edge → s.running = false
  · exact hs.controller.imp (h.keeps_pristine hi) h.keeps_controlled
  · obtain ⟨rfl, timing⟩ : i = .edge ∧ s.running = true := by simpa using hi
    exact .inr (h.controlled timing)

end

/-- Before the first command everything but the configuration is at its reset value. -/
theorem pristine_launch (cfg : Config) (inputs : List Input) : Pristine (launch cfg inputs) :=
  ⟨rfl, rfl, rfl, rfl, rfl⟩

theorem inv_launch (cfg : Config) (inputs : List Input) : Inv (launch cfg inputs) where
  canonical := rfl
  slots := rfl
  stopped := fun _ => ⟨rfl, rfl⟩
  position := cfg.bounds.1
  controller := .inl (pristine_launch cfg inputs)
  counter := Nat.two_pow_pos _

theorem reset_eq_launch : State.reset = launch Config.hardware [] := rfl

theorem rst_eq_launch (s : State) : rst s = launch s.cfg s.inputs := rfl

/-- The invariant does not speak of what is presented. -/
theorem inv_setInputs {s : State} (h : Inv s) (inputs : List Input) : Inv (s.setInputs inputs) where
  canonical := h.canonical
  slots := h.slots
  stopped := h.stopped
  position := h.position
  controller := h.controller.imp (fun ⟨h1, h2, h3, h4, h5⟩ => ⟨h1, h2, h3, h4, h5⟩)
    (fun ⟨h1, h2, h3, h4⟩ => ⟨h1, h2, h3, h4⟩)
  counter := h.counter

/-- Settles O55: the reset state is the launched one of this hardware. -/
theorem resetMeetsTheInvariant : Obligations.ResetMeetsTheInvariant :=
  ⟨reset_eq_launch ▸ inv_launch _ _, inv_launch⟩

/-- Settles O56: a step holds the state, launches it again, or completes a command. -/
theorem stepKeepsTheInvariant : Obligations.StepKeepsTheInvariant := by
  intro s t hs h
  obtain ⟨-, rfl⟩ | ⟨rest, -, rfl⟩ | ⟨w, rest, i, -, -, hexec⟩ := step_eq_next.1 h
  · exact hs
  · exact rst_eq_launch _ ▸ inv_launch _ _
  · exact (exec_eq_next.1 hexec).keeps_inv (inv_setInputs hs rest)

/-- Settles O11: the reset state is the launched one of this hardware, and launching gives every piece
of state its reset value. -/
theorem resetValues : Obligations.ResetValues := by
  intro s h
  obtain ⟨cfg, inputs, rfl⟩ : ∃ cfg inputs, s = launch cfg inputs :=
    h.elim (fun h => ⟨_, _, h.trans reset_eq_launch⟩) id
  exact ⟨rfl, rfl, rfl, rfl, rfl, rfl, rfl, rfl, rfl, fun _ => rfl, rfl, rfl, rfl⟩

end Machine
end Sys2Proof
end

section
/-! PROOFS. Runs of commands: what every command keeps holds along a run (spec/10_state.md rule R40 over all sequences from reset), and the count of a window's ticks (rules R25, R113). -/

namespace Sys2Proof.Machine

open Sys2Proof.Safety

/-! ## Induction over a run -/

/-- A run completes if its first command completes and the rest does from there. -/
theorem runCommands_cons_eq_next {i : Instr} {is : List Instr} {s t : State} {outs : List OutRecord} :
    runCommands (i :: is) s = .next (t, outs) ↔ ∃ s1 outs', Completes s i s1 ∧
      runCommands is s1 = .next (t, outs') ∧ outs = s1.out :: outs' := by
  simp [runCommands, andThen_eq_next, exec_eq_next, @eq_comm _ outs, and_left_comm]

/-- What every command that completes keeps, as a property of the commands taken so far and the state
they leave, holds after a whole run. -/
theorem runCommands_keeps {P : List Instr → State → Prop}
    (hstep : ∀ past i s t, P past s → Completes s i t → P (past ++ [i]) t)
    {is : List Instr} {past : List Instr} {s t : State} {outs : List OutRecord} (hs : P past s)
    (h : runCommands is s = .next (t, outs)) : P (past ++ is) t := by
  induction is generalizing past s outs with
  | nil =>
    obtain ⟨rfl, -⟩ := Prod.mk.inj (Host.Outcome.next.inj h)
    simpa using hs
  | cons i is ih =>
    obtain ⟨s1, outs', hi, hrest, -⟩ := runCommands_cons_eq_next.1 h
    simpa using ih (hstep past i s s1 hs hi) hrest

/-! ## The phases of a run from reset (R40) -/

/-- Where a run from reset stands after `k` edges: a window is open exactly after an odd number, the
controller is at its reset values before the second, and controlled from then on. -/
structure Phase (k : Nat) (s : State) : Prop where
  running : s.running = decide (k % 2 = 1)
  pristine : k < 2 → Pristine s
  controlled : 2 ≤ k → Controlled s

/-- A command that is no `EDGE` stays in the phase. -/
theorem Completes.keeps_phase {i : Instr} {s t : State} {k : Nat} (h : Completes s i t)
    (hi : i ≠ .edge) (hs : Phase k s) : Phase k t where
  running := (h.keeps_measurement hi).1.trans hs.running
  pristine := fun hk => h.keeps_pristine (fun he => absurd he hi) (hs.pristine hk)
  controlled := fun hk => h.keeps_controlled (hs.controlled hk)

/-- An `EDGE` begins the next phase: the first edge opens a window, and the second one closes it. -/
theorem Completes.next_phase {s t : State} {k : Nat} (h : Completes s .edge t) (hs : Phase k s) :
    Phase (k + 1) t := by
  have hrun := hs.running
  cases hr : s.running with
  | false =>
    have heven : k % 2 = 0 := by simpa [hr] using hrun
    have hopen : t.running = true := by
      cases h with
      | opening => rfl
      | closing timing => simp [hr] at timing
    refine ⟨?_, fun hk => h.keeps_pristine (fun _ => hr) (hs.pristine (by omega)),
      fun hk => h.keeps_controlled (hs.controlled (by omega))⟩
    rw [hopen, eq_comm, decide_eq_true_iff]
    omega
  | true =>
    have hodd : k % 2 = 1 := by simpa [hr] using hrun
    have hclosed : t.running = false := by
      cases h with
      | opening idle => simp [hr] at idle
      | closing => rfl
    refine ⟨?_, fun hk => absurd hk (by omega), fun _ => h.controlled hr⟩
    rw [hclosed, eq_comm, decide_eq_false_iff_not]
    omega

theorem phase_launch (cfg : Config) (inputs : List Input) : Phase 0 (launch cfg inputs) :=
  ⟨rfl, fun _ => pristine_launch cfg inputs, fun h => absurd h (by decide)⟩

@[simp] theorem edges_concat (past : List Instr) (i : Instr) :
    edges (past ++ [i]) = edges past + if i = .edge then 1 else 0 := by
  simp [edges, List.count_append, List.count_singleton]

/-- What a run from reset with a given configuration meets. -/
structure Reached (cfg : Config) (past : List Instr) (s : State) : Prop where
  config : s.cfg = cfg
  inv : Inv s
  phase : Phase (edges past) s

theorem reached_launch (cfg : Config) : Reached cfg [] (launch cfg []) :=
  ⟨rfl, inv_launch cfg [], phase_launch cfg []⟩

theorem Completes.keeps_reached {cfg : Config} {past : List Instr} {i : Instr} {s t : State}
    (hs : Reached cfg past s) (h : Completes s i t) : Reached cfg (past ++ [i]) t := by
  refine ⟨h.keeps_cfg.trans hs.config, h.keeps_inv hs.inv, ?_⟩
  rw [edges_concat]
  by_cases hi : i = .edge
  · subst hi
    exact h.next_phase hs.phase
  · rw [if_neg hi]
    exact h.keeps_phase hi hs.phase

/-- Settles O57: every state that a run from reset reaches meets the invariant and is in the phase that
the number of edges says. -/
theorem invariantsOfReachableStates : Obligations.InvariantsOfReachableStates := by
  intro cfg is t outs h
  obtain ⟨rfl, hinv, hphase⟩ : Reached cfg is t :=
    runCommands_keeps (P := Reached cfg) (fun _ _ _ _ hs hi => hi.keeps_reached hs)
      (reached_launch cfg) h
  refine ⟨hinv.stopped, hinv.position, fun hk => ?_, fun hk => ?_, hinv.counter⟩
  · obtain ⟨h1, h2, h3, h4⟩ := hphase.controlled hk
    exact ⟨h1, h2, h3, h4⟩
  · obtain ⟨h1, h2, h3, h4, h5⟩ := hphase.pristine hk
    exact ⟨h1, h2, h3, h4, h5⟩

/-! ## Counting ticks (R25, R113) -/

/-- The open window has seen `k` ticks. -/
structure Counted (k : Nat) (s : State) : Prop where
  running : s.running = true
  count : s.cnt.toNat = k % 2 ^ s.cfg.cw
  wrapped : s.cntOvf = true ↔ 2 ^ s.cfg.cw ≤ k

/-- A tick sets the wrap flag from the last value of the counter, and never clears it. -/
theorem tickedOvf_iff {s : State} (hr : s.running = true) :
    tickedOvf s = true ↔ s.cnt.toNat = 2 ^ s.cfg.cw - 1 ∨ s.cntOvf = true := by
  by_cases hc : s.cnt.toNat = 2 ^ s.cfg.cw - 1 <;> simp [tickedOvf, hr, hc]

/-- A number reaches `m` when the one before it has, or was the last remainder below `m`. -/
theorem le_succ_iff_mod {k m : Nat} (hm : 0 < m) : m ≤ k + 1 ↔ k % m = m - 1 ∨ m ≤ k := by
  have hle := Nat.mod_le k m
  constructor
  · intro h
    by_cases hk : m ≤ k
    · exact .inr hk
    · rw [Nat.mod_eq_of_lt (by omega)]
      omega
  · omega

/-- A tick counts on. -/
theorem Counted.tick {k : Nat} {s t : State} (hs : Counted k s) (h : Completes s .tick t) :
    Counted (k + 1) t := by
  have hm := Nat.two_pow_pos s.cfg.cw
  have hlt : s.cnt.toNat < 2 ^ s.cfg.cw := hs.count ▸ Nat.mod_lt k hm
  cases h
  refine ⟨hs.running, (toNat_tickedCnt hs.running hlt).trans ?_, (tickedOvf_iff hs.running).trans ?_⟩
  · rw [hs.count, Nat.mod_add_mod]
    rfl
  · rw [hs.count, hs.wrapped]
    exact (le_succ_iff_mod hm).symm

/-- Any number of ticks completes, emits nothing and is counted. -/
theorem runCommands_ticks (k : Nat) {j : Nat} {s : State} (hs : Counted j s) :
    ∃ t, runCommands (List.replicate k .tick) s =
      .next (t, List.replicate k ⟨false, none, none⟩) ∧ Counted (j + k) t ∧ t.cfg = s.cfg := by
  induction k generalizing j s with
  | zero => exact ⟨s, rfl, hs, rfl⟩
  | succ k ih =>
    have htick : Completes s .tick _ := .tick
    obtain ⟨t, hrun, ht, hcfg⟩ := ih (hs.tick htick)
    refine ⟨t, runCommands_cons_eq_next.2 ⟨_, _, htick, hrun, rfl⟩, ?_, hcfg.trans htick.keeps_cfg⟩
    rwa [Nat.add_comm k, ← Nat.add_assoc]

/-- Settles O15: an open window whose counter is 0 has seen no ticks yet. -/
theorem ticksCountModuloTheWidth : Obligations.TicksCountModuloTheWidth := by
  intro s k hrun hcnt hovf
  have hs : Counted 0 s := ⟨hrun, by simp [hcnt], by simp [hovf]⟩
  obtain ⟨t, hticks, ht, hcfg⟩ := runCommands_ticks k hs
  rw [Nat.zero_add] at ht
  exact ⟨t, hticks, hcfg ▸ ht.count, hcfg ▸ ht.wrapped⟩

end Sys2Proof.Machine
end

section
/-! PROOFS. The ring memory's canonical form (spec/10_state.md rule R33; log 7), and the words of commands: decoding gives back the command that was encoded, and the index of `RD` selects from the register map (rules R41, R44; spec/30_encoding.md rule R87). -/

namespace Sys2Proof.Machine

/-! ## The canonical form -/

/-- The first entry of a canonical ring is what its slot reads. -/
theorem Memory.read_cons_self (a : Nat) (v : Word) (m : Memory) : Memory.read ((a, v) :: m) a = v :=
  if_pos rfl

/-- A canonical ring whose first entry comes later reads 0 in an earlier slot. -/
theorem Memory.read_cons_of_lt {a i : Nat} {v : Word} {m : Memory}
    (h : Memory.wf ((a, v) :: m) = true) (hi : i < a) : Memory.read ((a, v) :: m) i = 0 := by
  obtain ⟨-, ha, -⟩ := Memory.wf_cons.1 h
  refine Memory.read_eq_zero_of_lt fun c hc => ?_
  rcases List.mem_cons.1 hc with rfl | hc
  · exact hi
  · exact hi.trans (ha c hc)

/-- Beyond its first slot a canonical ring reads as its rest, which holds 0 there. -/
theorem Memory.read_tail {a : Nat} {v : Word} {m : Memory} (h : Memory.wf ((a, v) :: m) = true)
    (i : Nat) : Memory.read m i = if i ≤ a then 0 else Memory.read ((a, v) :: m) i := by
  obtain ⟨-, ha, -⟩ := Memory.wf_cons.1 h
  split_ifs with hi
  · exact Memory.read_eq_zero_of_lt fun c hc => hi.trans_lt (ha c hc)
  · exact (if_neg (by omega)).symm

/-- A canonical ring with an entry does not read 0 everywhere. -/
theorem Memory.read_head_ne_zero {a : Nat} {v : Word} {m : Memory}
    (h : Memory.wf ((a, v) :: m) = true) : Memory.read ((a, v) :: m) a ≠ 0 := by
  rw [Memory.read_cons_self]
  exact (Memory.wf_cons.1 h).1

/-- Of canonical rings that read alike none begins later than the other. -/
theorem Memory.head_le_of_read_eq {a b : Nat} {v w : Word} {m m' : Memory}
    (h : Memory.wf ((a, v) :: m) = true) (h' : Memory.wf ((b, w) :: m') = true)
    (hread : ∀ i, Memory.read ((a, v) :: m) i = Memory.read ((b, w) :: m') i) : b ≤ a := by
  by_contra hlt
  exact Memory.read_head_ne_zero h
    ((hread a).trans (Memory.read_cons_of_lt h' (Nat.lt_of_not_le hlt)))

/-- Settles O54, by induction on the first ring: the first entries agree, and so do the rests. -/
theorem canonicalMemoryIsUnique : Obligations.CanonicalMemoryIsUnique := by
  intro m
  induction m with
  | nil =>
    rintro (_ | ⟨⟨b, w⟩, m'⟩) - h' hread
    · rfl
    · exact absurd (hread b).symm (Memory.read_head_ne_zero h')
  | cons c m ih =>
    obtain ⟨a, v⟩ := c
    rintro (_ | ⟨⟨b, w⟩, m'⟩) h h' hread
    · exact absurd (hread a) (Memory.read_head_ne_zero h)
    · obtain rfl : a = b := le_antisymm (Memory.head_le_of_read_eq h' h fun i => (hread i).symm)
        (Memory.head_le_of_read_eq h h' hread)
      obtain rfl : v = w := by
        simpa only [Memory.read_cons_self] using hread a
      obtain ⟨-, -, hm⟩ := Memory.wf_cons.1 h
      obtain ⟨-, -, hm'⟩ := Memory.wf_cons.1 h'
      rw [ih m' hm hm' fun i => by rw [Memory.read_tail h, Memory.read_tail h', hread]]

end Sys2Proof.Machine

namespace Sys2Proof

/-! ## The fields of a word -/

@[simp] theorem opField_append (op : BitVec 8) (arg : Word) : opField (op ++ arg) = op :=
  BitVec.extractLsb'_append_eq_left

@[simp] theorem argField_append (op : BitVec 8) (arg : Word) : argField (op ++ arg) = arg :=
  BitVec.extractLsb'_append_eq_right

@[simp] theorem idxUpper_append (up : BitVec 27) (idx : BitVec 5) : idxUpper (up ++ idx) = up :=
  BitVec.extractLsb'_append_eq_left

@[simp] theorem idxField_append (up : BitVec 27) (idx : BitVec 5) : idxField (up ++ idx) = idx :=
  BitVec.extractLsb'_append_eq_right

/-! ## The index of `RD` -/

/-- The indices of the register map (spec/10_state.md rules R41, R43): the named registers and the slots
of the ring. -/
def LegalIndex (n : Nat) (idx : BitVec 5) : Prop :=
  idx.toNat ≤ 0x08 ∨ (0x10 ≤ idx.toNat ∧ idx.toNat < 0x10 + n)

theorem decodeIndex_of_slot {n : Nat} {idx : BitVec 5} (h : 0x10 ≤ idx.toNat)
    (hn : idx.toNat < 0x10 + n) :
    decodeIndex n idx = .ok (.rb (BitVec.ofNat 4 (idx.toNat - 0x10))) := by
  unfold decodeIndex
  split
  case h_10 => exact if_pos ⟨h, hn⟩
  all_goals omega

theorem decodeIndex_of_not_legal {n : Nat} {idx : BitVec 5} (h : ¬ LegalIndex n idx) :
    decodeIndex n idx = .error .index := by
  unfold decodeIndex
  split
  case h_10 => exact if_neg fun hslot => h (.inr hslot)
  all_goals exact absurd (.inl (by omega)) h

theorem index_rb (i : BitVec 4) : (RegSel.rb i).index.toNat = 0x10 + i.toNat := by
  revert i
  decide

/-- A legal index decodes to the register it belongs to. -/
theorem decodeIndex_index {n : Nat} {reg : RegSel} (h : reg.wellFormed n = true) :
    decodeIndex n reg.index = .ok reg := by
  cases reg with
  | rb i =>
    have hi : i.toNat < n := by simpa [RegSel.wellFormed] using h
    have hidx : (RegSel.rb i).index.toNat = 0x10 + i.toNat := index_rb i
    rw [decodeIndex_of_slot (by omega) (by omega), hidx, Nat.add_sub_cancel_left,
      BitVec.ofNat_toNat, BitVec.setWidth_eq]
  | _ => rfl

/-! ## Words of commands -/

theorem decode_rd (n : Nat) (up : BitVec 27) (idx : BitVec 5) :
    decode n (0x05#8 ++ (up ++ idx)) =
      if up = 0 then (decodeIndex n idx).map .rd else .error .upperBits := by
  simp [decode, decodeX]

/-- Decoding the word of a well-formed command gives it back (R87). -/
theorem decode_encode {n : Nat} {i : Instr} (h : i.wellFormed n = true) :
    decode n (encode i) = .ok i := by
  cases i with
  | settgt val => simp [decode, encode, Instr.opcode, Instr.argument]
  | filt val => simp [decode, encode, Instr.opcode, Instr.argument]
  | rd reg =>
    rw [show encode (.rd reg) = 0x05#8 ++ (0#27 ++ reg.index) from rfl, decode_rd]
    simp [decodeIndex_index h, Except.map]
  | _ => rfl

/-- A row of 40 bits is its own command word (log 17). -/
@[simp] theorem tableWord_toNat (w : CmdWord) : tableWord 40 w.toNat = w := by
  rw [tableWord, Nat.mod_eq_of_lt w.isLt, BitVec.ofNat_toNat, BitVec.setWidth_eq]

namespace Machine

/-- Settles O8: the word is taken first, decodes to the command, and leaves what was presented before. -/
theorem presentedCommandRuns : Obligations.PresentedCommandRuns := by
  intro i s h
  have hin : (s.withFetchWord 40 (encode i).toNat).inputs = .command (encode i) :: s.inputs := by
    rw [State.withFetchWord, tableWord_toNat]
    rfl
  exact step_of_decode_ok hin (decode_encode h)

/-- `RB<i>` shows the word of slot `i` of the ring (R41). -/
theorem regView_slot {s : State} {k : Nat} (h : k < s.cfg.n) :
    regView (.rb (BitVec.ofNat 4 k)) s = .next (s.rb.read k) := by
  have hk : (BitVec.ofNat 4 k).toNat = k := by
    obtain ⟨-, hn, -⟩ := s.cfg.bounds
    exact Nat.mod_eq_of_lt (by omega)
  simp only [regView, hk, h, if_true, memRead]

/-- The word of `RD` with a legal index completes with the value `v` if the register of that index
shows `v`. -/
theorem rd_word_of_view {s : State} {idx : BitVec 5} {reg : RegSel} {v : Word}
    (hd : decodeIndex s.cfg.n idx = .ok reg) (hv : regView reg s = .next v) :
    ∃ reg, decode s.cfg.n (0x05#8 ++ (0#27 ++ idx)) = .ok (.rd reg) ∧
      exec (.rd reg) s = .next { s with out := ⟨false, none, some v⟩ } := by
  refine ⟨reg, ?_, exec_eq_next.2 (.rd hv)⟩
  rw [decode_rd, hd]
  rfl

/-- Settles O42: the legal indices are those of the map, and each one's register shows the value that
the map gives; every other word does not decode. -/
theorem rdReadsTheRegisterMap : Obligations.RdReadsTheRegisterMap := by
  intro s up idx
  dsimp only
  constructor
  · rintro ⟨rfl, hlow | ⟨hslot, hn⟩⟩
    · obtain ⟨k, hk, rfl⟩ : ∃ k ≤ 0x08, idx = BitVec.ofNat 5 k := ⟨idx.toNat, hlow, by simp⟩
      interval_cases k
      · exact rd_word_of_view (reg := .status) rfl rfl
      · exact rd_word_of_view (reg := .target) rfl rfl
      · exact rd_word_of_view (reg := .measured) rfl rfl
      · exact rd_word_of_view (reg := .elapsed) rfl rfl
      · exact rd_word_of_view (reg := .duty) rfl rfl
      · exact rd_word_of_view (reg := .output) rfl rfl
      · exact rd_word_of_view (reg := .errsum) rfl rfl
      · exact rd_word_of_view (reg := .lastmed) rfl rfl
      · exact rd_word_of_view (reg := .writepos) rfl (by simp [regView])
    · refine rd_word_of_view (decodeIndex_of_slot hslot hn) ((regView_slot (by omega)).trans ?_)
      split
      case h_10 => rfl
      all_goals omega
  · intro h rest hin
    have hd : ∃ e, decode s.cfg.n (0x05#8 ++ (up ++ idx)) = .error e := by
      rw [decode_rd]
      split_ifs with hup
      · exact ⟨.index, by rw [decodeIndex_of_not_legal fun hl => h ⟨hup, hl⟩]; rfl⟩
      · exact ⟨.upperBits, rfl⟩
    obtain ⟨e, he⟩ := hd
    exact step_of_decode_error hin he

end Machine
end Sys2Proof
end

section
/-! PROOFS. The ring memory and the order of commands (spec/20_memory.md): a step runs what it takes (rule R66), a slot reads as written (rule R61), only `FILT` stores (rule R62), a repeated `RD` agrees (rule R65), and no run meets an operand for which the spec defines nothing (log 12, log 13). -/

namespace Sys2Proof.Machine

open Sys2Proof.Safety

/-! ## Steps and stores -/

/-- Settles O7: the word taken is the first presented, and what is left stays presented. -/
theorem stepRunsTheDecodedCommand : Obligations.StepRunsTheDecodedCommand :=
  fun _ _ _ _ hin hd => step_of_decode_ok hin hd

/-- Settles O52: what `MemRead` finds after a `MemWrite` is what the ring reads after the write. -/
theorem memoryReadAfterWrite : Obligations.MemoryReadAfterWrite := by
  intro n m i v hm hw hi
  have hread := Memory.read_write hm i (v := v)
  refine ⟨m.write i v, memWrite_eq_next.2 ⟨hi, rfl⟩, Memory.write_wf hm i v,
    Memory.write_within hw hi v, memRead_eq_next.2 ⟨hi, (hread i).trans (if_pos rfl)⟩, ?_⟩
  intro j hj hji
  calc memRead n (m.write i v) j = .next (m.read j) :=
        memRead_eq_next.2 ⟨hj, (hread j).trans (if_neg hji)⟩
    _ = memRead n m j := (memRead_eq_next.2 ⟨hj, rfl⟩).symm

/-- `FILT` stores its value in the slot of `writePos` and leaves every other slot as it was. -/
theorem Completes.read_of_filt {val : Word} {s t : State} (h : Completes s (.filt val) t)
    (hc : s.rb.wf = true) (j : Nat) :
    t.rb.read j = if j = s.writePos.toNat then val else s.rb.read j := by
  cases h with
  | filt => exact Memory.read_write hc _ _ _

/-- Settles O47: `FILT` writes one slot, and no other command writes the ring. -/
theorem frameOfMemory : Obligations.FrameOfMemory := by
  intro i s t hc h
  have hcompletes := exec_eq_next.1 h
  constructor
  · intro hi j
    obtain ⟨hrb, -, -⟩ := hcompletes.keeps_filter hi
    rw [hrb]
  · intro hi j hj
    cases i with
    | filt val => exact (hcompletes.read_of_filt hc j).trans (if_neg hj)
    | _ => cases hi

/-- The register view does not show the output record (R41). -/
theorem regView_setOut (reg : RegSel) (s : State) (o : OutRecord) :
    regView reg (s.setOut o) = regView reg s := by
  cases reg <;> rfl

/-- Settles O44: the first `RD` writes only the record, which the register view does not show, and the
second writes the same record again. -/
theorem repeatedReadsAgree : Obligations.RepeatedReadsAgree := by
  intro s t reg h
  obtain ⟨v, hv, rfl⟩ := execRd_eq_next.1 h
  exact execRd_eq_next.2 ⟨v, (regView_setOut reg s _).trans hv, rfl⟩

/-! ## Nothing is refused -/

/-- A sequence is refused by neither part. -/
theorem andThen_ne_refused {α β : Type} {o : Result α} {k : α → Result β} {r : Refusal}
    (ho : o ≠ .refused r) (hk : ∀ a, o = .next a → k a ≠ .refused r) : andThen o k ≠ .refused r := by
  rw [Ne, andThen_eq_refused]
  rintro (h | ⟨a, ha, h⟩)
  · exact ho h
  · exact hk a ha h

theorem etClose_ne_refused {s : State} {r : Refusal} : etClose s ≠ .refused r := by
  unfold etClose raise
  split <;> simp

theorem rate_ne_refused {cfg : Config} {t : Word} {r : Refusal} : rate cfg t ≠ .refused r := by
  unfold rate raise
  split
  · simp
  · exact andThen_ne_refused checkU32_ne_refused fun _ _ => checkU32_ne_refused

theorem piUpdate_ne_refused {ta : Word} {s : State} {r : Refusal} : piUpdate ta s ≠ .refused r := by
  refine andThen_ne_refused checkS32_ne_refused fun error _ =>
    andThen_ne_refused checkS32_ne_refused fun sum1 _ => ?_
  unfold raise
  split <;> simp

/-- A value within integer bounds below `2^24` has an integer part (R137). -/
theorem f2uTrunc_defined {lo hi : Nat} {a : Word} (ha : OutputWithin lo hi a) (hhi : hi < 2 ^ 24) :
    ∃ d, Fp.f2uTrunc a = some d := by
  obtain ⟨hfin, hlo, hle⟩ := ha
  have hv : 0 ≤ Fp.value a := (scaled_nonneg lo).trans hlo
  have hm : Fp.mag a < 2 ^ 32 * 2 ^ 149 := by
    rw [← Fp.mag_of_value_nonneg hv] at hle
    calc Fp.mag a ≤ hi * 2 ^ 149 := by exact_mod_cast hle
      _ < 2 ^ 32 * 2 ^ 149 := Nat.mul_lt_mul_of_pos_right (by omega) (Nat.two_pow_pos _)
  exact ⟨_, if_pos ⟨hfin, hv, hm⟩⟩

/-- The output that `pi_update` leaves has an integer part, since the clamp bounds it (R143, R144). -/
theorem f2uTrunc_output_of_piUpdate {ta : Word} {s t : State} (h : piUpdate ta s = .next t) :
    ∃ d, Fp.f2uTrunc t.output = some d := by
  obtain ⟨-, -, -, hmax, -, -⟩ := s.cfg.bounds
  obtain ⟨error, sum1, -, -, hnan, rfl⟩ := piUpdate_eq_next.1 h
  exact f2uTrunc_defined (clampedOutput_within hnan) hmax

/-- A closing edge is not refused: `pi_update` gives `f2u_trunc` a value it is defined for (log 13). -/
theorem closeWindow_ne_refused {s : State} {r : Refusal} : closeWindow s ≠ .refused r := by
  refine andThen_ne_refused etClose_ne_refused fun s1 _ => andThen_ne_refused rate_ne_refused fun m _ =>
    andThen_ne_refused piUpdate_ne_refused fun s2 hpi => ?_
  obtain ⟨d, hd⟩ := f2uTrunc_output_of_piUpdate hpi
  rw [forwardDuty_eq_next.2 ⟨d, hd, rfl⟩]
  simp

theorem execEdge_ne_refused {s : State} {r : Refusal} : execEdge s ≠ .refused r := by
  cases hr : s.running with
  | false => simp [execEdge_of_idle hr]
  | true => simpa [execEdge, hr] using closeWindow_ne_refused

theorem smooth_ne_refused {last median : Word} {r : Refusal} : smooth last median ≠ .refused r :=
  andThen_ne_refused checkU32_ne_refused fun _ _ => by simp

/-- An insertion is not refused while `writePos` is a slot of the ring (log 12). -/
theorem insertSample_ne_refused {val : Word} {s : State} {r : Refusal}
    (hp : s.writePos.toNat < s.cfg.n) : insertSample val s ≠ .refused r := by
  rw [insertSample_eq_next.2 ⟨hp, rfl⟩]
  simp

theorem execFilt_ne_refused {val : Word} {s : State} {r : Refusal}
    (hp : s.writePos.toNat < s.cfg.n) : execFilt val s ≠ .refused r :=
  andThen_ne_refused (insertSample_ne_refused hp) fun _ _ =>
    andThen_ne_refused smooth_ne_refused fun _ _ => by simp

/-- The register view reads a slot only if the ring has it, and faults otherwise (R43). -/
theorem regView_ne_refused {reg : RegSel} {s : State} {r : Refusal} : regView reg s ≠ .refused r := by
  cases reg with
  | rb i =>
    by_cases hi : i.toNat < s.cfg.n
    · simp [regView, hi, memRead]
    · simp [regView, hi, raise]
  | _ => simp [regView]

/-- No command is refused while `writePos` is a slot of the ring. -/
theorem exec_ne_refused (i : Instr) {s : State} (r : Refusal) (hp : s.writePos.toNat < s.cfg.n) :
    exec i s ≠ .refused r := by
  cases i with
  | nop => simp [exec, execNop]
  | edge => exact execEdge_ne_refused
  | tick => simp [exec, execTick]
  | settgt val => simp [exec, execSettgt]
  | filt val => exact execFilt_ne_refused hp
  | rd reg => exact andThen_ne_refused regView_ne_refused fun _ _ => by simp

/-- A step is refused only by the command it runs. -/
theorem step_eq_refused {s : State} {r : Refusal} :
    step s = .refused r ↔ ∃ w rest i, s.inputs = .command w :: rest ∧ decode s.cfg.n w = .ok i ∧
      exec i (s.setInputs rest) = .refused r := by
  match h : s.inputs with
  | [] => simp [step_of_idle h]
  | .reset :: rest => simp [step_of_reset h]
  | .command w :: rest =>
    cases hd : decode s.cfg.n w with
    | ok i => simp [step_of_decode_ok h hd, hd]
    | error e => simp [step_of_decode_error h hd, hd]

/-- Settles O51: every command completes or faults while `writePos` is a slot of the ring, which the
invariant says it is. -/
theorem nothingIsRefused : Obligations.NothingIsRefused := by
  refine ⟨fun i s r hp => exec_ne_refused i r hp, fun s r hs h => ?_⟩
  obtain ⟨w, rest, i, -, -, hexec⟩ := step_eq_refused.1 h
  exact exec_ne_refused i r (inv_setInputs hs rest).position hexec

end Sys2Proof.Machine
end

section
/-! PROOFS. The encoding tables (spec/30_encoding.md rules R86 to R88, R92): the words that decode are the words of the well-formed commands, what the masks of the rows keep of a word, and which words are reserved. -/

namespace Sys2Proof

open Sys2Proof.Machine Sys2Proof.Safety

/-! ## A word and its fields -/

theorem toNat_opField (w : CmdWord) : (opField w).toNat = w.toNat / 2 ^ 32 := by
  rw [opField, BitVec.extractLsb'_toNat, Nat.shiftRight_eq_div_pow]
  omega

theorem toNat_argField (w : CmdWord) : (argField w).toNat = w.toNat % 2 ^ 32 :=
  BitVec.extractLsb'_toNat ..

theorem toNat_idxUpper (arg : Word) : (idxUpper arg).toNat = arg.toNat / 32 := by
  rw [idxUpper, BitVec.extractLsb'_toNat, Nat.shiftRight_eq_div_pow]
  omega

theorem toNat_idxField (arg : Word) : (idxField arg).toNat = arg.toNat % 32 :=
  BitVec.extractLsb'_toNat ..

/-- A word is its opcode followed by its argument (R80). -/
theorem opField_append_argField (w : CmdWord) : opField w ++ argField w = w :=
  BitVec.extractLsb'_append_extractLsb' (w := 8) (len := 32)

/-- An argument is its upper bits followed by its index field (R84). -/
theorem idxUpper_append_idxField (arg : Word) : idxUpper arg ++ idxField arg = arg :=
  BitVec.extractLsb'_append_extractLsb' (w := 27) (len := 5)

/-- A word is the word of a command exactly if its fields are the opcode and the argument. -/
theorem encode_eq_iff {i : Instr} {w : CmdWord} :
    encode i = w ↔ opField w = i.opcode ∧ argField w = i.argument := by
  constructor
  · rintro rfl
    simp [encode]
  · rintro ⟨hop, harg⟩
    rw [encode, ← hop, ← harg, opField_append_argField]

/-- An argument is that of `RD` exactly if its upper bits are 0 and its index field is the index. -/
theorem eq_argument_rd_iff {arg : Word} {reg : RegSel} :
    arg = (Instr.rd reg).argument ↔ idxUpper arg = 0 ∧ reg.index = idxField arg := by
  constructor
  · rintro rfl
    simp [Instr.argument]
  · rintro ⟨hup, hidx⟩
    rw [← idxUpper_append_idxField arg, hup, ← hidx]
    rfl

/-! ## What decodes -/

/-- Every legal index is the index of a register. -/
theorem exists_register_of_legal {n : Nat} {idx : BitVec 5} (h : LegalIndex n idx) :
    ∃ reg : RegSel, reg.index = idx ∧ reg.wellFormed n = true := by
  obtain hlow | ⟨hslot, hn⟩ := h
  · obtain ⟨k, hk, rfl⟩ : ∃ k ≤ 0x08, idx = BitVec.ofNat 5 k := ⟨idx.toNat, hlow, by simp⟩
    interval_cases k
    · exact ⟨.status, rfl, rfl⟩
    · exact ⟨.target, rfl, rfl⟩
    · exact ⟨.measured, rfl, rfl⟩
    · exact ⟨.elapsed, rfl, rfl⟩
    · exact ⟨.duty, rfl, rfl⟩
    · exact ⟨.output, rfl, rfl⟩
    · exact ⟨.errsum, rfl, rfl⟩
    · exact ⟨.lastmed, rfl, rfl⟩
    · exact ⟨.writepos, rfl, rfl⟩
  · have hi : (BitVec.ofNat 4 (idx.toNat - 0x10)).toNat = idx.toNat - 0x10 :=
      Nat.mod_eq_of_lt (by omega)
    refine ⟨.rb (BitVec.ofNat 4 (idx.toNat - 0x10)), BitVec.eq_of_toNat_eq ?_, ?_⟩
    · rw [index_rb, hi]
      omega
    · rw [RegSel.wellFormed, hi, decide_eq_true_eq]
      omega

/-- An index decodes to the register whose index it is, and to nothing if there is none. -/
theorem decodeIndex_eq_ok_iff {n : Nat} {idx : BitVec 5} {reg : RegSel} :
    decodeIndex n idx = .ok reg ↔ reg.index = idx ∧ reg.wellFormed n = true := by
  constructor
  · intro h
    by_cases hl : LegalIndex n idx
    · obtain ⟨reg', rfl, hwf⟩ := exists_register_of_legal hl
      obtain rfl : reg' = reg := Except.ok.inj ((decodeIndex_index hwf).symm.trans h)
      exact ⟨rfl, hwf⟩
    · rw [decodeIndex_of_not_legal hl] at h
      cases h
  · rintro ⟨rfl, hwf⟩
    exact decodeIndex_index hwf

/-- The indices that belong to a register are the legal ones. -/
theorem exists_register_iff_legal {n : Nat} {idx : BitVec 5} :
    (∃ reg : RegSel, reg.index = idx ∧ reg.wellFormed n = true) ↔ LegalIndex n idx := by
  refine ⟨?_, exists_register_of_legal⟩
  rintro ⟨reg, hreg⟩
  by_contra hl
  have hok := decodeIndex_eq_ok_iff.2 hreg
  rw [decodeIndex_of_not_legal hl] at hok
  cases hok

/-- What a format Z row admits (R82). -/
theorem eq_of_decodeZ {i j : Instr} {arg : Word} (h : decodeZ i arg = .ok j) : arg = 0 ∧ i = j := by
  unfold decodeZ at h
  split_ifs at h with harg
  exact ⟨harg, Except.ok.inj h⟩

/-- What a format X row admits (R84). -/
theorem eq_of_decodeX {n : Nat} {i : Instr} {arg : Word} (h : decodeX n arg = .ok i) :
    ∃ reg : RegSel, arg = (Instr.rd reg).argument ∧ reg.wellFormed n = true ∧ .rd reg = i := by
  unfold decodeX at h
  split_ifs at h with hup
  cases hd : decodeIndex n (idxField arg) with
  | ok reg =>
    obtain ⟨hidx, hwf⟩ := decodeIndex_eq_ok_iff.1 hd
    rw [hd] at h
    exact ⟨reg, eq_argument_rd_iff.2 ⟨hup, hidx⟩, hwf, Except.ok.inj h⟩
  | error e =>
    rw [hd] at h
    cases h

/-- A word that decodes is the word of the command, by the rows of R86 one after another. -/
theorem encode_of_decode {n : Nat} {w : CmdWord} {i : Instr} (h : decode n w = .ok i) :
    encode i = w ∧ i.wellFormed n = true := by
  rw [encode_eq_iff]
  unfold decode at h
  split at h
  case h_1 hop | h_2 hop | h_3 hop =>
    obtain ⟨harg, rfl⟩ := eq_of_decodeZ h
    exact ⟨⟨BitVec.eq_of_toNat_eq hop, harg⟩, rfl⟩
  case h_4 hop | h_5 hop =>
    obtain rfl := Except.ok.inj h
    exact ⟨⟨BitVec.eq_of_toNat_eq hop, rfl⟩, rfl⟩
  case h_6 hop =>
    obtain ⟨reg, harg, hwf, rfl⟩ := eq_of_decodeX h
    exact ⟨⟨BitVec.eq_of_toNat_eq hop, harg⟩, hwf⟩
  case h_7 => cases h

/-- Decoding and encoding are each other's converse on the well-formed commands (R87). -/
theorem decode_eq_ok_iff {n : Nat} {w : CmdWord} {i : Instr} :
    decode n w = .ok i ↔ encode i = w ∧ i.wellFormed n = true := by
  refine ⟨encode_of_decode, ?_⟩
  rintro ⟨rfl, hwf⟩
  exact decode_encode hwf

/-- Settles O2: a command's fields are read back from its word, and with them its row. -/
theorem decodeOfEncode : Obligations.DecodeOfEncode := fun _ _ hwf => decode_encode hwf

/-- Settles O3: the word of a command is put together from the fields that select it. -/
theorem encodeOfDecode : Obligations.EncodeOfDecode := fun _ _ _ h => encode_of_decode h

/-- Settles O1: each word is the word of its command, or breaks the rule of its row. -/
theorem specWordsDecode : Obligations.SpecWordsDecode := by
  unfold Obligations.SpecWordsDecode
  decide

/-! ## Match and mask (R88) -/

/-- The mask of the V rows keeps the opcode. -/
theorem and_opcodeMask_eq_iff {w : CmdWord} (op : BitVec 8) :
    w &&& 0xFF00000000 = op ++ 0#32 ↔ opField w = op := by
  have hmask : (0xFF00000000 : CmdWord) = BitVec.allOnes 8 ++ 0#32 := by decide
  rw [← opField_append_argField w, hmask, BitVec.and_append, BitVec.and_allOnes, BitVec.and_zero,
    BitVec.append_left_inj, opField_append]

/-- The mask of the X row keeps the opcode and the upper bits of the argument. -/
theorem and_indexMask (w : CmdWord) :
    w &&& 0xFFFFFFFFE0 = opField w ++ (idxUpper (argField w) ++ 0#5) := by
  have hmask : (0xFFFFFFFFE0 : CmdWord) = BitVec.allOnes 8 ++ (BitVec.allOnes 27 ++ 0#5) := by decide
  conv_lhs => rw [← opField_append_argField w, ← idxUpper_append_idxField (argField w), hmask]
  rw [BitVec.and_append, BitVec.and_append, BitVec.and_allOnes, BitVec.and_allOnes, BitVec.and_zero]

theorem and_indexMask_eq_iff {w : CmdWord} (op : BitVec 8) :
    w &&& 0xFFFFFFFFE0 = op ++ 0#32 ↔ opField w = op ∧ idxUpper (argField w) = 0 := by
  rw [and_indexMask]
  constructor
  · intro h
    have hop := congrArg opField h
    have hup := congrArg (fun v => idxUpper (argField v)) h
    rw [opField_append, opField_append] at hop
    rw [argField_append, argField_append, idxUpper_append] at hup
    exact ⟨hop, hup⟩
  · rintro ⟨rfl, hup⟩
    rw [hup]
    rfl

/-- A row of format Z is one word. -/
theorem decode_eq_ok_iff_of_fullMask {n : Nat} {w m : CmdWord} {i : Instr} (hwf : i.wellFormed n = true)
    (hm : encode i = m) : decode n w = .ok i ↔ w &&& 0xFFFFFFFFFF = m := by
  have hmask : (0xFFFFFFFFFF : CmdWord) = BitVec.allOnes 40 := by decide
  rw [decode_eq_ok_iff, hm, hmask, BitVec.and_allOnes, and_iff_left hwf, eq_comm]

/-- A row of format V is an opcode, and its value is the argument. -/
theorem decode_eq_ok_iff_of_opcodeMask {n : Nat} {w m : CmdWord} {i : Instr} {op : BitVec 8}
    (hwf : i.wellFormed n = true) (hop : i.opcode = op) (hm : op ++ 0#32 = m) :
    decode n w = .ok i ↔ w &&& 0xFF00000000 = m ∧ i.argument = w.extractLsb' 0 32 := by
  rw [decode_eq_ok_iff, encode_eq_iff, and_iff_left hwf, hop, ← hm, and_opcodeMask_eq_iff,
    @eq_comm _ i.argument, argField]

/-- The row of format X is an opcode with upper bits 0, and its operand the register of the index. -/
theorem decode_eq_ok_rd_iff {n : Nat} {w : CmdWord} {reg : RegSel} :
    decode n w = .ok (.rd reg) ↔ w &&& 0xFFFFFFFFE0 = 0x0500000000 ∧
      reg.index = idxField (argField w) ∧ reg.wellFormed n = true := by
  rw [decode_eq_ok_iff, encode_eq_iff, eq_argument_rd_iff,
    show (0x0500000000 : CmdWord) = 0x05#8 ++ 0#32 by decide, and_indexMask_eq_iff]
  simp only [and_assoc, Instr.wellFormed, Instr.opcode, BitVec.ofNat_eq_ofNat]

theorem idxField_argField (w : CmdWord) : idxField (argField w) = w.extractLsb' 0 5 :=
  BitVec.eq_of_toNat_eq (by simp [idxField, argField])

/-- Settles O4, row by row: the masked word fixes the opcode and what the format wants to be 0. -/
theorem matchAndMaskSelectTheRow : Obligations.MatchAndMaskSelectTheRow := by
  intro n w
  refine ⟨decode_eq_ok_iff_of_fullMask rfl rfl, decode_eq_ok_iff_of_fullMask rfl rfl,
    decode_eq_ok_iff_of_fullMask rfl rfl,
    fun val => decode_eq_ok_iff_of_opcodeMask (i := .settgt val) (op := 0x03) rfl rfl (by decide),
    fun val => decode_eq_ok_iff_of_opcodeMask (i := .filt val) (op := 0x04) rfl rfl (by decide), ?_, ?_⟩
  · simp [decode_eq_ok_rd_iff, exists_register_iff_legal, LegalIndex, idxField_argField]
  · intro reg h
    obtain ⟨-, hidx, -⟩ := decode_eq_ok_rd_iff.1 h
    rw [hidx, idxField_argField]

/-! ## Reserved encodings (R92) -/

/-- What R92 reserves, in the fields of the word. -/
theorem isReserved_iff {n : Nat} {w : CmdWord} :
    IsReserved n w ↔ 0x06 ≤ (opField w).toNat ∨ ((opField w).toNat ≤ 0x02 ∧ argField w ≠ 0) ∨
      ((opField w).toNat = 0x05 ∧
        (idxUpper (argField w) ≠ 0 ∨ ¬ LegalIndex n (idxField (argField w)))) := by
  simp only [IsReserved, LegalIndex, ne_eq, ← BitVec.toNat_inj, toNat_idxUpper, toNat_idxField,
    toNat_opField, toNat_argField, BitVec.ofNat_eq_ofNat, BitVec.toNat_ofNat, Nat.zero_mod]
  omega

/-- The word of a well-formed command is not reserved. -/
theorem not_isReserved_of_decode {n : Nat} {w : CmdWord} {i : Instr} (h : decode n w = .ok i) :
    ¬ IsReserved n w := by
  obtain ⟨henc, hwf⟩ := encode_of_decode h
  obtain ⟨hop, harg⟩ := encode_eq_iff.1 henc
  rw [isReserved_iff, hop]
  cases i with
  | rd reg =>
    obtain ⟨hup, hidx⟩ := eq_argument_rd_iff.1 harg
    have hl : LegalIndex n (idxField (argField w)) := exists_register_iff_legal.1 ⟨reg, hidx, hwf⟩
    simp [Instr.opcode, hup, hl]
  | settgt val => simp [Instr.opcode]
  | filt val => simp [Instr.opcode]
  | _ => simp [Instr.opcode, harg, Instr.argument]

/-- A word that is not reserved has one of the six opcodes and is the word of a command of its row. -/
theorem exists_decode_of_not_isReserved {n : Nat} {w : CmdWord} (h : ¬ IsReserved n w) :
    ∃ i, decode n w = .ok i := by
  rw [isReserved_iff] at h
  push Not at h
  obtain ⟨hlt, hzero, hrd⟩ := h
  have key : ∃ i : Instr, opField w = i.opcode ∧ argField w = i.argument ∧ i.wellFormed n = true := by
    interval_cases hop : (opField w).toNat
    · exact ⟨.nop, BitVec.eq_of_toNat_eq hop, hzero (by omega), rfl⟩
    · exact ⟨.edge, BitVec.eq_of_toNat_eq hop, hzero (by omega), rfl⟩
    · exact ⟨.tick, BitVec.eq_of_toNat_eq hop, hzero (by omega), rfl⟩
    · exact ⟨.settgt (argField w), BitVec.eq_of_toNat_eq hop, rfl, rfl⟩
    · exact ⟨.filt (argField w), BitVec.eq_of_toNat_eq hop, rfl, rfl⟩
    · obtain ⟨hup, hl⟩ := hrd rfl
      obtain ⟨reg, hidx, hwf⟩ := exists_register_of_legal hl
      exact ⟨.rd reg, BitVec.eq_of_toNat_eq hop, eq_argument_rd_iff.2 ⟨hup, hidx⟩, hwf⟩
  obtain ⟨i, hop, harg, hwf⟩ := key
  exact ⟨i, decode_eq_ok_iff.2 ⟨encode_eq_iff.2 ⟨hop, harg⟩, hwf⟩⟩

/-- Settles O5: a reserved word does not decode, and decode comes before any state is read. -/
theorem reservedWordsRaiseIllegalCommand : Obligations.ReservedWordsRaiseIllegalCommand := by
  intro s w rest hin
  refine ⟨fun hres => ?_, exists_decode_of_not_isReserved⟩
  cases hd : decode s.cfg.n w with
  | ok i => exact absurd hres (not_isReserved_of_decode hd)
  | error e => exact step_of_decode_error hin hd

end Sys2Proof
end

section
/-! PROOFS. The text of a program (spec/30_encoding.md rules R95 to R97; log 5, log 18, log 19): the names of the registers and of the fields of `cfg`, what reading a text does line by line, when commands begin, and the state in which a program starts. -/

namespace Sys2Proof

/-- A well-formed configuration has words of 32 bits (log 19). -/
theorem Config.width (cfg : Config) : cfg.w = 32 := by
  have h := cfg.ok
  simp only [Params.wf, Bool.and_eq_true, beq_iff_eq] at h
  obtain ⟨⟨⟨⟨⟨⟨⟨⟨⟨⟨hw, -⟩, -⟩, -⟩, -⟩, -⟩, -⟩, -⟩, -⟩, -⟩, -⟩ := h
  exact hw

namespace Machine

/-! ## The names of the registers (R97) -/

/-- Decimal digits begin with `0` only for the number 0. -/
theorem tail_toDigits_of_zero {i : Nat} {cs : List Char} (h : Nat.toDigits 10 i = '0' :: cs) : cs = [] := by
  induction i using Nat.strongRecOn generalizing cs with
  | _ i ih =>
    by_cases hi : i < 10
    · rw [Nat.toDigits_of_lt_base hi] at h
      exact (List.cons.inj h).2.symm
    · rw [Nat.toDigits_of_base_le (by omega) (by omega)] at h
      obtain ⟨hnil, -⟩ | ⟨ds, hds, -⟩ := List.append_eq_cons_iff.1 h
      · exact absurd hnil Nat.toDigits_ne_nil
      · obtain rfl := ih (i / 10) (by omega) hds
        have hread : digits 10 ['0'] 0 = some (i / 10) := by rw [← hds, digits_toDigits]
        have hzero : 0 = i / 10 := Option.some.inj hread
        omega

/-- A text `RB<i>` in decimal names slot `i` of the ring, and nothing if there is no such slot. -/
theorem register_slot (n i : Nat) :
    register n ('R' :: 'B' :: Nat.toDigits 10 i) =
      if i < n then some (.rb (BitVec.ofNat 4 i)) else none := by
  obtain ⟨c, cs, hcs⟩ := List.exists_cons_of_ne_nil (Nat.toDigits_ne_nil (n := i) (b := 10))
  have hlead : c ≠ '0' ∨ cs = [] := by
    by_cases hc : c = '0'
    · exact .inr (tail_toDigits_of_zero (hc ▸ hcs))
    · exact .inl hc
  have hread : register n ('R' :: 'B' :: c :: cs) = (digits 10 (c :: cs) 0).bind fun i =>
      if i < n ∧ (c ≠ '0' ∨ cs = []) then some (.rb (BitVec.ofNat 4 i)) else none := rfl
  rw [hcs, hread, ← hcs, digits_toDigits]
  simp [hlead]

/-- Settles O6: the names of the table are looked up, and the digits of a slot's number are read back. -/
theorem registerNamesAndIndices : Obligations.RegisterNamesAndIndices := by
  refine ⟨by decide, fun n i hn => ?_⟩
  rw [register_slot]
  split_ifs with hi
  · rw [Option.map_some, index_rb, BitVec.toNat_ofNat, Nat.mod_eq_of_lt (by omega)]
  · rfl

/-! ## Reading a text -/

/-- The lines of a text that is read: each is read with the configuration in force after the lines before
it, and they present what they present in order. -/
theorem parseProgram_lines {p q : Program} {text : List (List Char)} (h : parseProgram p text = some q) :
    ∃ lines : List Line, lines.length = text.length ∧ q.inputs = p.inputs ++ lines.flatMap Line.inputs ∧
      ∀ (i : Nat) (t : List Char), text[i]? = some t →
        ∃ (l : Line) (r : Program), lines[i]? = some l ∧ parseProgram p (text.take i) = some r ∧
          parseLine r.params.n t = some l := by
  induction text generalizing p with
  | nil =>
    obtain rfl := Option.some.inj h
    exact ⟨[], rfl, by simp, by simp⟩
  | cons t ts ih =>
    obtain ⟨l, hl, hq⟩ := parseProgram_cons.1 h
    obtain ⟨lines, hlen, hin, hread⟩ := ih hq
    refine ⟨l :: lines, by simp [hlen], by simp [hin], fun i u hu => ?_⟩
    cases i with
    | zero =>
      obtain rfl : t = u := Option.some.inj hu
      exact ⟨l, p, rfl, rfl, hl⟩
    | succ i =>
      obtain ⟨l', r, hl', hr, hu'⟩ := hread i u hu
      exact ⟨l', r, hl', parseProgram_cons.2 ⟨l, hl, hr⟩, hu'⟩

/-- Once commands have begun no text changes the configuration. -/
theorem parseProgram_params_of_begun {p q : Program} {text : List (List Char)}
    (h : parseProgram p text = some q) (hp : p.begun = true) : q.params = p.params := by
  induction text generalizing p with
  | nil =>
    obtain rfl := Option.some.inj h
    rfl
  | cons t ts ih =>
    obtain ⟨l, -, hq⟩ := parseProgram_cons.1 h
    rw [ih hq (by simp [hp]), Program.add_params_of_begun hp]

/-! ## Adding a line -/

/-- Commands have begun if they had before or the line presents one. -/
theorem Program.add_begun_iff {p : Program} {l : Line} :
    (p.add l).begun = true ↔ p.begun = true ∨ ∃ w, Input.command w ∈ l.inputs := by
  rw [Program.add_begun, Bool.or_eq_true, Line.begins_iff]

/-- A line whose first input is a command begins the commands. -/
theorem Program.add_begun_of_command {p : Program} {l : Line} {w : CmdWord} {rest : List Input}
    (h : l.inputs = .command w :: rest) : (p.add l).begun = true :=
  Program.add_begun_iff.2 (.inr ⟨w, h ▸ List.mem_cons_self⟩)

/-- A line that presents no command begins none. -/
theorem Program.add_begun_of_not_begins (p : Program) {l : Line} (h : l.begins = false) :
    (p.add l).begun = p.begun := by
  rw [Program.add_begun, h, Bool.or_false]

/-- Only a `.cfg` directive changes the configuration. -/
theorem Program.add_params_of_not_cfg (p : Program) {l : Line} (h : ∀ c, l ≠ .cfg c) :
    (p.add l).params = p.params := by
  cases l with
  | cfg c => exact absurd rfl (h c)
  | _ => rfl

/-! ## The lines as text -/

theorem numberWithin_of_lt {bits v : Nat} {t : List Char} (h : number t = some v) (hv : v < 2 ^ bits) :
    numberWithin bits t = some v := by
  simp [numberWithin, h, hv]

/-- A `.cfg` directive states the field of its name with the value that the field reads. -/
theorem parseTokens_cfg {read : List Char → Option CfgSetting} {f t : List Char} {c : CfgSetting} (n : Nat)
    (hf : cfgFields.lookup f = some read) (ht : read t = some c) :
    parseTokens n [".cfg".toList, f, "=".toList, t] = some (.cfg c) := by
  have hcfg : cfgSetting f t = some c := by rw [cfgSetting, hf, Option.bind_some, ht]
  exact congrArg (Option.map Line.cfg) hcfg

/-- The names of the integer fields of `cfg` (spec/00_scope.md rule R4). -/
theorem parseTokens_cfg_number (n : Nat) {v : Nat} {t : List Char} (h : numberWithin 32 t = some v) :
    ∀ e ∈ [("W", CfgSetting.w v), ("CW", .cw v), ("N", .n v), ("MIN_OUT", .minOut v),
        ("MAX_OUT", .maxOut v), ("F_REF", .fRef v)],
      parseTokens n [".cfg".toList, e.1.toList, "=".toList, t] = some (.cfg e.2) := by
  have hread (c : Nat → CfgSetting) : (numberWithin 32 t).map c = some (c v) := by rw [h]; rfl
  simp only [List.forall_mem_cons]
  exact ⟨parseTokens_cfg n rfl (hread .w), parseTokens_cfg n rfl (hread .cw),
    parseTokens_cfg n rfl (hread .n), parseTokens_cfg n rfl (hread .minOut),
    parseTokens_cfg n rfl (hread .maxOut), parseTokens_cfg n rfl (hread .fRef), nofun⟩

/-- The names of the two gains. -/
theorem parseTokens_cfg_gain (n : Nat) {g : Word} {t : List Char} (h : gain t = some g) :
    parseTokens n [".cfg".toList, "KP".toList, "=".toList, t] = some (.cfg (.kp g)) ∧
    parseTokens n [".cfg".toList, "KI".toList, "=".toList, t] = some (.cfg (.ki g)) :=
  ⟨parseTokens_cfg n rfl (congrArg (Option.map CfgSetting.kp) h),
    parseTokens_cfg n rfl (congrArg (Option.map CfgSetting.ki) h)⟩

/-- The pseudo-commands with a number, and `.word`. -/
theorem parseTokens_number (n : Nat) {v : Nat} {t : List Char} (h : number t = some v) :
    parseTokens n ["TICKS".toList, t] = some (.ticks v) ∧
    parseTokens n ["WINDOW".toList, t] = some (.window v) ∧
    (v < 2 ^ 40 → parseTokens n [".word".toList, t] = some (.word (BitVec.ofNat 40 v))) :=
  ⟨congrArg (Option.map Line.ticks) h, congrArg (Option.map Line.window) h, fun hv =>
    congrArg (Option.map fun w => Line.word (BitVec.ofNat 40 w)) (numberWithin_of_lt h hv)⟩

/-! ## The state in which a program starts -/

/-- A program whose configuration is not well formed does not start (R5). -/
theorem Program.load_eq_none {p : Program} (h : p.params.wf = false) : p.load = none := by
  refine Option.eq_none_iff_forall_ne_some.2 fun s hs => ?_
  obtain ⟨cfg, hp, -⟩ := Program.load_eq_some.1 hs
  rw [← hp, cfg.ok] at h
  cases h

/-- A program with a well-formed configuration starts in the reset state of that CORE. -/
theorem Program.exists_load {p : Program} (h : p.params.wf = true) :
    ∃ cfg : Config, cfg.toParams = p.params ∧ cfg.w = 32 ∧
      p.load = some { State.reset with cfg := cfg, inputs := p.inputs } :=
  let cfg : Config := { p.params with ok := h }
  ⟨cfg, rfl, cfg.width, Program.load_eq_some.2 ⟨cfg, rfl, rfl⟩⟩

/-- Settles O60, part by part: reading goes line by line, what a line adds is what it presents, and the
configuration is the one stated before commands begin. -/
theorem programsPresentTheirLines : Obligations.ProgramsPresentTheirLines := by
  refine ⟨
    -- reading, line by line
    fun _ => ⟨rfl, rfl, rfl⟩, fun _ => rfl, fun _ _ _ => rfl, fun _ _ _ => parseProgram_lines,
    -- what a line presents
    fun _ => ⟨rfl, rfl⟩, fun _ => rfl, rfl, fun _ => rfl, rfl, fun _ => rfl,
    -- adding a line
    fun p l => ⟨p.add_inputs l, Program.add_begun_iff, p.add_params_of_not_cfg⟩, fun p => ?begins,
    fun p _ => ⟨p.add_begun_of_not_begins rfl, rfl⟩, fun _ _ _ => parseProgram_params_of_begun,
    -- the names of the fields
    fun n _ _ => parseTokens_cfg_number n, fun n => parseTokens_cfg n rfl rfl,
    fun n _ _ => parseTokens_cfg_gain n, fun _ _ _ _ => ⟨rfl, rfl, rfl, rfl, rfl, rfl, rfl, rfl, rfl⟩,
    -- the pseudo-commands and directives as text
    fun n _ _ => parseTokens_number n, fun _ => rfl, fun _ _ => rfl,
    -- the state in which a program starts
    fun _ => ⟨Program.load_eq_none, Program.exists_load⟩, fun _ _ => rfl⟩
  case begins =>
    exact ⟨p.add_begun_of_not_begins rfl, p.add_begun_of_not_begins rfl, p.add_begun_of_not_begins rfl,
      fun _ => Program.add_begun_of_command rfl, fun _ => Program.add_begun_of_command rfl,
      fun _ => Program.add_begun_of_command rfl, fun _ => Program.add_begun_of_command rfl⟩

end Machine
end Sys2Proof
end

section
/-! PROOFS. The edge timer (spec/40_edge_timer.md): what a `TICK` and an opening edge do, the count that a closing edge captures (rules R113, R115, R116), and the pairing of edges (rule R117). -/

namespace Sys2Proof.Machine

open Sys2Proof.Safety

/-! ## One command -/

/-- Settles O14: the definition of `TICK` is the pseudocode of R113, branch by branch. -/
theorem tickAdvancesTheCounter : Obligations.TickAdvancesTheCounter :=
  fun _ => ⟨decode_encode (i := .tick) rfl, rfl⟩

/-- Settles O17: an `EDGE` with no window open is the micro-operation `et_open`. -/
theorem openingEdgeStartsTheWindow : Obligations.OpeningEdgeStartsTheWindow :=
  fun _ idle => execEdge_of_idle idle

/-! ## The count of a window (R116) -/

@[simp] theorem ticks_concat (past : List Instr) (i : Instr) :
    ticks (past ++ [i]) = ticks past + if i = .tick then 1 else 0 := by
  simp [ticks, List.count_append, List.count_singleton]

/-- An opening edge begins a count, if the counter has not wrapped before. -/
theorem Completes.counted_of_opening {s t : State} (h : Completes s .edge t)
    (idle : s.running = false) (fresh : s.cntOvf = false) : Counted 0 t := by
  cases h with
  | opening => exact ⟨rfl, (Nat.zero_mod _).symm, by simp [etOpen, fresh]⟩
  | closing timing => simp [idle] at timing

/-- A command that is neither `EDGE` nor `TICK` leaves the count of the window alone. -/
theorem Completes.keeps_counted {i : Instr} {s t : State} {k : Nat} (h : Completes s i t)
    (he : i ≠ .edge) (ht : i ≠ .tick) (hs : Counted k s) : Counted k t where
  running := (h.keeps_measurement he).1.trans hs.running
  count := by rw [h.keeps_cnt he ht, h.keeps_cfg, hs.count]
  wrapped := by rw [h.keeps_cntOvf ht, h.keeps_cfg, hs.wrapped]

/-- A command that is no `EDGE` adds one to the count of the window if it is a `TICK`. -/
theorem Completes.next_counted {i : Instr} {s t : State} {k : Nat} (h : Completes s i t)
    (he : i ≠ .edge) (hs : Counted k s) : Counted (k + if i = .tick then 1 else 0) t := by
  by_cases ht : i = .tick
  · subst ht
    exact hs.tick h
  · rw [if_neg ht]
    exact h.keeps_counted he ht hs

/-- A run without `EDGE` in an open window counts its ticks. -/
theorem counted_of_runCommands {is : List Instr} {s t : State} {outs : List OutRecord}
    (hs : Counted 0 s) (he : Instr.edge ∉ is) (h : runCommands is s = .next (t, outs)) :
    Counted (ticks is) t := by
  refine runCommands_keeps (P := fun past u => Instr.edge ∉ past → Counted (ticks past) u)
    (fun past i u v hu hi hnot => ?_) (past := []) (fun _ => hs) h he
  obtain ⟨hpast, hne⟩ : Instr.edge ∉ past ∧ i ≠ .edge := by
    simpa [@eq_comm _ Instr.edge] using hnot
  rw [ticks_concat]
  exact hi.next_counted hne (hu hpast)

/-- No run writes the configuration (R4). -/
theorem runCommands_keeps_cfg {is : List Instr} {s t : State} {outs : List OutRecord}
    (h : runCommands is s = .next (t, outs)) : t.cfg = s.cfg :=
  runCommands_keeps (P := fun _ u => u.cfg = s.cfg) (fun _ _ _ _ hu hi => hi.keeps_cfg.trans hu)
    (past := []) rfl h

/-- A closing edge completes only if the counter has not wrapped, and then captures the count. -/
theorem Counted.captured {k : Nat} {s t : State} (hs : Counted k s) (h : Completes s .edge t) :
    t.elapsedTicks.toNat = k ∧ k < 2 ^ s.cfg.cw := by
  cases h with
  | opening idle => simp [hs.running] at idle
  | closing _ fresh =>
    have hk : k < 2 ^ s.cfg.cw := by simpa [fresh] using hs.wrapped
    exact ⟨hs.count.trans (Nat.mod_eq_of_lt hk), hk⟩

/-- A closing edge whose counter has wrapped raises `CounterWrap` before anything else (R116, R207). -/
theorem execEdge_of_wrapped {s : State} (timing : s.running = true) (wrapped : s.cntOvf = true) :
    execEdge s = .fault .counterWrap := by
  simp [execEdge, closeWindow, etClose, raise, timing, wrapped]

/-- Settles O23: the opening edge begins a count, the commands between keep it, and the closing edge
captures it or finds that it wrapped. -/
theorem windowMeasuresItsTicks : Obligations.WindowMeasuresItsTicks := by
  intro s s1 is outs idle fresh he h
  have hcfg := runCommands_keeps_cfg h
  obtain ⟨s0, _, hopen, hrun, -⟩ := runCommands_cons_eq_next.1 h
  have hs1 := counted_of_runCommands (hopen.counted_of_opening idle fresh) he hrun
  rw [← hcfg]
  exact ⟨fun t ht => hs1.captured (exec_eq_next.1 ht),
    fun hk => execEdge_of_wrapped hs1.running (hs1.wrapped.2 hk)⟩

/-! ## The pairing of edges (R117) -/

/-- Every edge is half a measurement: it opens a window, or it closes one and emits `meas_ready`. Every
other command leaves the window as it is and emits no `meas_ready`. -/
theorem Completes.balance {i : Instr} {s t : State} (h : Completes s i t) :
    2 * t.out.measReady.toNat + t.running.toNat =
      s.running.toNat + if i = .edge then 1 else 0 := by
  cases h with
  | opening idle => simp [idle, etOpen, OutRecord.none]
  | closing timing => simp [timing, closedState]
  | _ => simp [filteredState, OutRecord.none]

theorem edges_cons (i : Instr) (is : List Instr) :
    edges (i :: is) = edges is + if i = .edge then 1 else 0 := by
  simp [edges, List.count_cons]

theorem measurements_cons (o : OutRecord) (outs : List OutRecord) :
    measurements (o :: outs) = measurements outs + o.measReady.toNat := by
  cases hm : o.measReady <;> simp [measurements, hm]

/-- Along a run every two edges make one measurement, the window open at its beginning counting as an
edge before it. -/
theorem runCommands_balance {is : List Instr} {s t : State} {outs : List OutRecord}
    (h : runCommands is s = .next (t, outs)) :
    2 * measurements outs + t.running.toNat = s.running.toNat + edges is := by
  induction is generalizing s outs with
  | nil =>
    obtain ⟨rfl, rfl⟩ := Prod.mk.inj (Host.Outcome.next.inj h)
    simp [measurements, edges]
  | cons i is ih =>
    obtain ⟨s1, outs', hi, hrest, rfl⟩ := runCommands_cons_eq_next.1 h
    have hstep := hi.balance
    have hrun := ih hrest
    rw [measurements_cons, edges_cons]
    omega

/-- From no window open, `k` edges make `k / 2` measurements and leave a window open if `k` is odd. -/
theorem measurements_of_idle {is : List Instr} {s t : State} {outs : List OutRecord}
    (idle : s.running = false) (h : runCommands is s = .next (t, outs)) :
    measurements outs = edges is / 2 ∧ (t.running = true ↔ edges is % 2 = 1) := by
  have hrun := runCommands_balance h
  have hle := t.running.toNat_le
  rw [idle, Bool.toNat_false] at hrun
  rw [← Bool.toNat_eq_one]
  exact ⟨by omega, by omega⟩

/-- The first `j` commands of a run that completes are a run that completes, with the first `j` records. -/
theorem runCommands_take {is : List Instr} {s t : State} {outs : List OutRecord} (j : Nat)
    (h : runCommands is s = .next (t, outs)) :
    ∃ u, runCommands (is.take j) s = .next (u, outs.take j) := by
  induction is generalizing s outs j with
  | nil =>
    obtain ⟨rfl, rfl⟩ := Prod.mk.inj (Host.Outcome.next.inj h)
    exact ⟨s, by simp [runCommands]⟩
  | cons i is ih =>
    obtain ⟨s1, outs', hi, hrest, rfl⟩ := runCommands_cons_eq_next.1 h
    cases j with
    | zero => exact ⟨s, rfl⟩
    | succ j =>
      obtain ⟨u, hu⟩ := ih j hrest
      exact ⟨u, runCommands_cons_eq_next.2 ⟨s1, _, hi, hu, rfl⟩⟩

/-- Settles O24: the whole run and each initial part of it keep the balance of edges and measurements. -/
theorem pairingOfEdges : Obligations.PairingOfEdges := by
  intro is s t outs idle h
  obtain ⟨hmeas, hopen⟩ := measurements_of_idle idle h
  refine ⟨hmeas, hopen, fun j => ?_⟩
  obtain ⟨u, hu⟩ := runCommands_take j h
  exact (measurements_of_idle idle hu).1

end Sys2Proof.Machine
end

section
/-! PROOFS. Rounding is to the nearest binary32 value, ties to even (spec/41_pi_controller.md rules R132, R135). -/

namespace Sys2Proof.Fp

open Sys2Proof.Safety

/-! ## Signed magnitudes -/

/-- The magnitude `m` with the sign `neg`. -/
def signed (neg : Bool) (m : Int) : Int := if neg then -m else m

theorem value_eq_signed (a : Word) : value a = signed (sign a) (mag a) := rfl

@[simp] theorem signed_signed (neg : Bool) (m : Int) : signed neg (signed neg m) = m := by
  cases neg <;> simp [signed]

@[simp] theorem abs_signed (neg : Bool) (m : Int) : |signed neg m| = |m| := by
  cases neg <;> simp [signed]

theorem signed_mul (neg : Bool) (m k : Int) : signed neg (m * k) = signed neg m * k := by
  cases neg <;> simp [signed]

/-- Two numbers of one sign are as far apart as their magnitudes. -/
theorem sub_mul_signed (neg : Bool) (m d k : Int) :
    signed neg m - d * signed neg k = signed neg (m - d * k) := by
  cases neg <;> grind [signed]

theorem value_round (neg : Bool) (n d : Nat) :
    value (round neg n d) = signed neg (mag (round neg n d)) := by
  rw [value_eq_signed, sign_round]

/-! ## The nearest integer -/

/-- Half a unit away from the number, `nearestEven` is even. -/
theorem nearestEven_even_of_tie {n d : Nat} (hd : 0 < d)
    (h : 2 * n = 2 * (d * nearestEven n d) + d ∨ 2 * (d * nearestEven n d) = 2 * n + d) :
    nearestEven n d % 2 = 0 := by
  have hdiv := Nat.div_add_mod n d
  have hmod := Nat.mod_lt n hd
  unfold nearestEven at h ⊢
  split_ifs at h ⊢ with hlo hhi
  · omega
  · rw [Nat.mul_add, Nat.mul_one] at h
    omega
  · omega

/-- No integer is nearer than `nearestEven`, and where another is as near it is even. -/
theorem nearestEven_nearest {n d : Nat} (hd : 0 < d) (k : Int) :
    |(n : Int) - d * nearestEven n d| ≤ |(n : Int) - d * k| ∧
      (|(n : Int) - d * nearestEven n d| = |(n : Int) - d * k| →
        k = nearestEven n d ∨ nearestEven n d % 2 = 0) := by
  obtain ⟨hup, hdown⟩ := nearestEven_near (n := n) hd
  have htie := nearestEven_even_of_tie (n := n) hd
  generalize nearestEven n d = r at *
  by_cases hk : k = r
  · simp [hk]
  · have hone : 1 ≤ |k - r| := Int.one_le_abs (sub_ne_zero.2 hk)
    have hunit : (d : Int) ≤ |(n : Int) - d * r| + |(n : Int) - d * k| := by
      calc (d : Int) ≤ d * |k - r| := le_mul_of_one_le_right (by positivity) hone
        _ = |((n : Int) - d * r) - (n - d * k)| := by
          rw [show ((n - d * r) - (n - d * k) : Int) = d * (k - r) by ring, abs_mul, Nat.abs_cast]
        _ ≤ |(n : Int) - d * r| + |(n : Int) - d * k| := abs_sub _ _
    zify at hup hdown htie
    obtain ⟨e, -⟩ | ⟨e, -⟩ := abs_cases ((n : Int) - d * r) <;> rw [e] at hunit ⊢ <;>
      exact ⟨by linarith, fun heq => .inr (by exact_mod_cast htie (by omega))⟩

/-! ## The nearest finite value -/

/-- The significand is the number rounded to an integer in units of the spacing. -/
theorem nearestEven_spacing (n d : Nat) :
    nearestEven (n * 2 ^ 149) (d * 2 ^ spacing n d) = significand n d := rfl

/-- A magnitude is a multiple of `2^s` or lies below the least significand that needs the spacing `2^s`. -/
theorem two_pow_dvd_mag_or_lt (x : Word) (s : Nat) : 2 ^ s ∣ mag x ∨ mag x < 2 ^ s * 2 ^ 23 := by
  have hf := fracField_lt x
  obtain ⟨f, j, hf, hm⟩ : ∃ f j, f < 2 ^ 24 ∧ mag x = f * 2 ^ j := by
    unfold mag
    split
    · exact ⟨fracField x, 0, by omega, by simp⟩
    · exact ⟨_, _, by omega, rfl⟩
  rw [hm]
  rcases Nat.lt_or_ge j s with hlt | hge
  · right
    calc f * 2 ^ j < 2 ^ 24 * 2 ^ j := Nat.mul_lt_mul_of_pos_right hf (Nat.two_pow_pos _)
      _ = 2 ^ (j + 1) * 2 ^ 23 := by ring
      _ ≤ 2 ^ s * 2 ^ 23 := Nat.mul_le_mul_right _ (Nat.pow_le_pow_right (by omega) hlt)
  · exact .inl (Dvd.dvd.mul_left (pow_dvd_pow 2 hge) f)

/-- The rounded significand is nearer than the magnitude of any pattern, with either sign: a multiple of
the spacing competes as an integer, and what is no multiple lies below `2^23` units, on the far side of
one that is. -/
theorem significand_nearest {n d : Nat} (hd : 0 < d) {x : Word} {y : Int} (hy : y.natAbs = mag x) :
    |(n : Int) * 2 ^ 149 - d * (significand n d * 2 ^ spacing n d : Nat)| ≤
        |(n : Int) * 2 ^ 149 - d * y| ∧
      (|(n : Int) * 2 ^ 149 - d * (significand n d * 2 ^ spacing n d : Nat)| =
          |(n : Int) * 2 ^ 149 - d * y| →
        y = (significand n d * 2 ^ spacing n d : Nat) ∨ significand n d % 2 = 0) := by
  have hnear := nearestEven_nearest (n := n * 2 ^ 149) (Nat.mul_pos hd (Nat.two_pow_pos (spacing n d)))
  have hle := spacing_le (n := n) hd
  rw [nearestEven_spacing] at hnear
  generalize significand n d = r at *
  generalize spacing n d = s at *
  have hassoc (k : Int) : (d : Int) * (k * 2 ^ s) = (d * 2 ^ s : Nat) * k := by push_cast; ring
  rw [show ((r * 2 ^ s : Nat) : Int) = r * 2 ^ s by push_cast; ring, hassoc,
    show (n : Int) * 2 ^ 149 = (n * 2 ^ 149 : Nat) by push_cast; ring]
  by_cases hdvd : 2 ^ s ∣ mag x
  · obtain ⟨k, rfl⟩ : ((2 ^ s : Nat) : Int) ∣ y := by rwa [Int.natCast_dvd, hy]
    rw [show (d : Int) * ((2 ^ s : Nat) * k) = (d * 2 ^ s : Nat) * k by push_cast; ring]
    refine ⟨(hnear k).1, fun heq => ((hnear k).2 heq).imp_left ?_⟩
    rintro rfl
    push_cast
    ring
  · have hs : s ≠ 0 := by
      rintro rfl
      exact hdvd (one_dvd _)
    have hlt := (two_pow_dvd_mag_or_lt x s).resolve_left hdvd
    have hbelow : (d : Int) * y < (d * 2 ^ s : Nat) * (2 ^ 23 : Int) := by
      calc (d : Int) * y < d * (2 ^ s * 2 ^ 23 : Nat) := by gcongr; omega
        _ = (d * 2 ^ s : Nat) * (2 ^ 23 : Int) := by push_cast; ring
    have habove : ((d * 2 ^ s : Nat) : Int) * 2 ^ 23 ≤ (n * 2 ^ 149 : Nat) := by exact_mod_cast hle hs
    have hstrict := abs_of_nonneg (sub_nonneg.2 habove) ▸ (hnear (2 ^ 23)).1
    have := le_abs_self (((n * 2 ^ 149 : Nat) : Int) - d * y)
    exact ⟨by omega, fun heq => by omega⟩

/-- The magnitude of a finite rounded value is that of its significand. -/
theorem mag_round_of_isFinite {neg : Bool} {n d : Nat} (hd : 0 < d)
    (h : isFinite (round neg n d) = true) :
    mag (round neg n d) = significand n d * 2 ^ spacing n d := by
  rw [isFinite_round_iff, mag_round_eq neg hd, min_lt_iff, or_iff_left (lt_irrefl _)] at h
  rw [mag_round_eq neg hd, min_eq_left h.le]

/-- The last bit of a finite rounded value's fraction is that of its significand. -/
theorem fracField_round_mod_two {neg : Bool} {n d : Nat} (h : isFinite (round neg n d) = true) :
    fracField (round neg n d) % 2 = significand n d % 2 := by
  rw [isFinite_round, decide_eq_true_eq, roundBits_eq, min_lt_iff, or_iff_left (lt_irrefl _)] at h
  rw [round, fracField_pack (roundBits_lt n d), roundBits_eq, min_eq_left h.le]
  omega

/-- Rounding gives an infinity exactly from the midpoint between the largest finite value and `2^128` on
(R135): that midpoint is `2^24 - 1/2` units of the largest spacing, and as a tie it rounds up. -/
theorem isFinite_round_iff_lt (neg : Bool) {n d : Nat} (hd : 0 < d) :
    isFinite (round neg n d) = true ↔ n * 2 ^ 149 < d * (2 ^ 277 - 2 ^ 252) := by
  obtain ⟨u, hu⟩ : ∃ u, u = d * 2 ^ 252 := ⟨_, rfl⟩
  have hmid : d * (2 ^ 277 - 2 ^ 252) = u * (2 ^ 25 - 1) := by
    rw [hu, Nat.mul_assoc, Nat.mul_sub (2 ^ 252), ← pow_add, Nat.mul_one]
  have hunit := Nat.mul_pos hd (Nat.two_pow_pos (spacing n d))
  obtain ⟨hup, hdown⟩ := nearestEven_near (n := n * 2 ^ 149) hunit
  have htie := nearestEven_even_of_tie (n := n * 2 ^ 149) hunit
  have hmax := significand_le (n := n) hd
  have hmin := le_significand (n := n) hd
  have hbelow := lt_spacing (n := n) hd
  have habove := spacing_le (n := n) hd
  have hexact := le_significand_of (n := n) (k := 2 ^ 24 - 1) hd
  rw [isFinite_round, decide_eq_true_eq, roundBits_eq, min_lt_iff, or_iff_left (lt_irrefl _), hmid,
    infBits]
  rw [nearestEven_spacing] at hup hdown htie
  generalize significand n d = r at *
  generalize spacing n d = s at *
  rcases lt_trichotomy s 253 with h | rfl | h
  · have hscale : d * 2 ^ s ≤ d * 2 ^ 252 :=
      Nat.mul_le_mul_left _ (Nat.pow_le_pow_right (by omega) (by omega))
    omega
  · rw [show d * 2 ^ 253 = 2 * u by rw [hu]; ring] at *
    constructor
    · intro hr
      by_contra hN
      obtain rfl : r = 2 ^ 24 - 1 := by omega
      omega
    · intro hN
      by_contra hr
      obtain rfl : r = 2 ^ 24 := by omega
      omega
  · have hscale : d * 2 ^ 254 ≤ d * 2 ^ s :=
      Nat.mul_le_mul_left _ (Nat.pow_le_pow_right (by omega) (by omega))
    rw [show d * 2 ^ 254 = 4 * u by rw [hu]; ring] at hscale
    omega

/-- Rounding to binary32 is to nearest, ties to even (R132). -/
theorem isNearest_round (neg : Bool) (n : Nat) {d : Nat} (hd : 0 < d) :
    IsNearest (round neg n d) (signed neg (n * 2 ^ 149)) d := by
  have hmid : (d : Int) * (2 ^ 277 - 2 ^ 252) = (d * (2 ^ 277 - 2 ^ 252) : Nat) := by
    rw [Nat.cast_mul, Nat.cast_sub (Nat.pow_le_pow_right (by omega) (by omega))]
    norm_cast
  have habs : |(n : Int) * 2 ^ 149| = ((n * 2 ^ 149 : Nat) : Int) := by
    rw [abs_of_nonneg (Machine.scaled_nonneg n)]
    norm_cast
  unfold IsNearest
  rw [abs_signed, habs, hmid, Nat.cast_lt, Nat.cast_le]
  by_cases hfin : isFinite (round neg n d) = true
  · refine .inl ⟨hfin, (isFinite_round_iff_lt neg hd).1 hfin, fun x hx => ?_⟩
    have hy : (signed neg (value x)).natAbs = mag x := by
      rw [← natAbs_value]
      cases neg <;> simp [signed]
    obtain ⟨hle, htie⟩ := significand_nearest (n := n) hd hy
    rw [value_round, ← signed_signed neg (value x), sub_mul_signed, sub_mul_signed, abs_signed,
      abs_signed, mag_round_of_isFinite hd hfin, fracField_round_mod_two hfin]
    exact ⟨hle, fun heq => (htie heq).imp_left (congrArg (signed neg))⟩
  · have hbig := (isFinite_round_iff_lt neg hd).not.1 hfin
    refine .inr ⟨?_, ?_, not_lt.1 hbig⟩
    · have hkind := finite_or_inf_or_nan (round neg n d)
      simpa only [hfin, isNan_round, Bool.false_eq_true, false_or, or_false] using hkind
    · have hn : 0 < n := by
        refine Nat.pos_of_ne_zero fun h => hbig ?_
        rw [h, Nat.zero_mul]
        exact Nat.mul_pos hd (Nat.sub_pos_of_lt (Nat.pow_lt_pow_right (by omega) (by omega)))
      rw [sign_round]
      cases neg <;> simp [signed, hn]

/-- The nearest value depends on the number alone, not on how it is written as a fraction. -/
theorem isNearest_mul_right {r : Word} {num : Int} {den c : Nat} (hc : 0 < c) :
    IsNearest r (num * c) (den * c) ↔ IsNearest r num den := by
  have hc' : (0 : Int) < c := by exact_mod_cast hc
  have hdist (v : Int) : |num * c - (den * c : Nat) * v| = c * |num - den * v| := by
    rw [← abs_of_pos hc', ← abs_mul, abs_of_pos hc']
    push_cast
    ring_nf
  have hnum : |num * c| = c * |num| := by rw [abs_mul, Nat.abs_cast, mul_comm]
  have hmid : ((den * c : Nat) : Int) * (2 ^ 277 - 2 ^ 252) = c * (den * (2 ^ 277 - 2 ^ 252)) := by
    push_cast
    ring
  have hneg : num * c < 0 ↔ num < 0 := by
    rw [mul_neg_iff]
    omega
  unfold IsNearest
  simp only [hdist, hnum, hmid, mul_lt_mul_iff_right₀ hc', mul_le_mul_iff_right₀ hc',
    mul_right_inj' hc'.ne', hneg]

end Sys2Proof.Fp
end

section
/-! PROOFS. The conversions, the arithmetic and the comparisons of binary32 values (spec/41_pi_controller.md rules R133 to R136). -/

namespace Sys2Proof.Fp

open Sys2Proof.Safety

/-! ## Conversions -/

/-- Settles O30: an integer below `2^24` is exact, and two patterns evaluated. -/
theorem boundsConvertExactly : Obligations.BoundsConvertExactly :=
  ⟨fun _ hk => fOfInt_exact hk, by decide +kernel, by decide +kernel⟩

/-- An integer up to `2^24` is exact: that power of 2 has a longer significand but is one. -/
theorem mag_round_int_of_le (neg : Bool) {k : Nat} (hk : k ≤ 2 ^ 24) :
    mag (round neg k 1) = k * 2 ^ 149 := by
  obtain hlt | rfl := hk.lt_or_eq
  · exact mag_round_int neg hlt
  · rw [← pow_add]
    exact le_antisymm (mag_round_le neg Nat.one_pos (by rw [← pow_add, Nat.one_mul]))
      (le_mag_round neg Nat.one_pos (by omega) (by rw [← pow_add, Nat.one_mul]))

/-- The spacing around an integer below `2^32` is at most `2^8`. -/
theorem spacing_int_le {k : Nat} (hk : k < 2 ^ 32) : spacing k 1 ≤ 157 := by
  by_contra h
  have hlow := spacing_le (n := k) Nat.one_pos (by omega)
  have hpow : 2 ^ 158 ≤ 2 ^ spacing k 1 := Nat.pow_le_pow_right (by omega) (by omega)
  omega

/-- A finite rounded value is within half the spacing. -/
theorem two_mul_abs_sub_mag_round_le {neg : Bool} {n d : Nat} (hd : 0 < d)
    (h : isFinite (round neg n d) = true) :
    2 * |(n : Int) * 2 ^ 149 - d * mag (round neg n d)| ≤ (d : Int) * 2 ^ spacing n d := by
  obtain ⟨hup, hdown⟩ := nearestEven_near (n := n * 2 ^ 149)
    (Nat.mul_pos hd (Nat.two_pow_pos (spacing n d)))
  rw [nearestEven_spacing,
    show d * 2 ^ spacing n d * significand n d = d * (significand n d * 2 ^ spacing n d) by ring,
    ← mag_round_of_isFinite hd h] at hup hdown
  zify at hup hdown
  obtain ⟨e, -⟩ | ⟨e, -⟩ := abs_cases ((n : Int) * 2 ^ 149 - d * mag (round neg n d)) <;> rw [e] <;>
    linarith

/-- The pattern `r` is a conversion of the integer `v` as R133 demands it: nearest, finite, exact up to
`2^24` in magnitude and never off by more than 128. -/
structure Converts (r : Word) (v : Int) : Prop where
  nearest : IsNearest r (v * 2 ^ 149) 1
  finite : isFinite r = true
  isExact : |v| ≤ 2 ^ 24 → value r = v * 2 ^ 149
  near : |v * 2 ^ 149 - value r| ≤ 128 * 2 ^ 149

theorem converts_round (neg : Bool) {k : Nat} (hk : k < 2 ^ 32) :
    Converts (round neg k 1) (signed neg k) := by
  have hfin : isFinite (round neg k 1) = true := by
    rw [isFinite_round_iff]
    refine (mag_round_le (k := 181) neg Nat.one_pos ?_).trans_lt
      (Nat.pow_lt_pow_right (by omega) (by omega))
    omega
  constructor
  · rw [← signed_mul]
    exact isNearest_round neg k Nat.one_pos
  · exact hfin
  · rw [abs_signed, Nat.abs_cast]
    intro h
    rw [value_round, mag_round_int_of_le neg (by exact_mod_cast h), ← signed_mul]
    norm_cast
  · have hnear := two_mul_abs_sub_mag_round_le Nat.one_pos hfin
    have hpow : (2 : Int) ^ spacing k 1 ≤ 2 ^ 157 := pow_le_pow_right₀ (by omega) (spacing_int_le hk)
    have hsub := sub_mul_signed neg (k * 2 ^ 149) 1 (mag (round neg k 1))
    rw [one_mul, one_mul] at hsub
    rw [value_round, ← signed_mul, hsub, abs_signed]
    rw [Nat.cast_one, one_mul, one_mul] at hnear
    linarith

theorem u2f_converts (v : Word) : Converts (u2f v) v.toNat := converts_round false v.isLt

/-- A number is its magnitude with its sign; a 0 may have either. -/
theorem signed_natAbs {neg : Bool} {m : Int} (h : m ≠ 0 → neg = decide (m < 0)) :
    signed neg m.natAbs = m := by
  by_cases h0 : m = 0
  · simp [h0, signed]
  · rw [h h0]
    by_cases hm : m < 0
    · simp [signed, hm, abs_of_neg hm]
    · simp [signed, hm, abs_of_nonneg (not_lt.1 hm)]

theorem i2f_converts (v : Word) : Converts (i2f v) v.toInt := by
  have hfits := Machine.fits_toInt v
  have h := converts_round (decide (v.toInt < 0)) (k := v.toInt.natAbs) (by omega)
  rwa [signed_natAbs fun _ => rfl] at h

/-- Settles O31: both conversions round an integer below `2^32` once. -/
theorem integerConversions : Obligations.IntegerConversions := by
  refine ⟨fun v => ?_, by decide +kernel, by decide +kernel⟩
  obtain ⟨hi, hifin, hiexact, hinear⟩ := i2f_converts v
  obtain ⟨hu, hufin, huexact, hunear⟩ := u2f_converts v
  exact ⟨hi, hu, hifin, hufin, hiexact, fun h => huexact (by rw [Nat.abs_cast]; exact_mod_cast h),
    hinear, hunear⟩

/-! ## Arithmetic -/

/-- The sign of a product is the exclusive-or of the signs. -/
theorem signed_mul_signed (p q : Bool) (m k : Int) :
    signed p m * signed q k = signed (p != q) (m * k) := by
  cases p <;> cases q <;> simp [signed]

theorem isNearest_fmul {a b : Word} (ha : isFinite a = true) (hb : isFinite b = true) :
    IsNearest (fmul a b) (value a * value b) (2 ^ 149) := by
  have h := isNearest_round (sign a != sign b) (mag a * mag b) (Nat.two_pow_pos 298)
  rw [show 298 = 149 + 149 from rfl, pow_add, signed_mul, Nat.cast_mul, ← signed_mul_signed] at h
  rw [fmul_finite ha hb]
  exact (isNearest_mul_right (Nat.two_pow_pos 149)).1 (by push_cast; exact h)

theorem isNearest_fadd {a b : Word} (ha : isFinite a = true) (hb : isFinite b = true) :
    IsNearest (fadd a b) (value a + value b) 1 := by
  rw [fadd_finite ha hb]
  generalize value a + value b = m
  have h (neg : Bool) (hneg : m ≠ 0 → neg = decide (m < 0)) :
      IsNearest (round neg m.natAbs (2 ^ 149)) m 1 := by
    have h := isNearest_round neg m.natAbs (Nat.two_pow_pos 149)
    rw [signed_mul, signed_natAbs hneg, ← one_mul (2 ^ 149 : Nat)] at h
    exact (isNearest_mul_right (Nat.two_pow_pos 149)).1 (by push_cast; exact h)
  exact h _ fun h0 => if_neg h0

theorem isNearest_fdiv {a b : Word} (ha : isFinite a = true) (hb : isFinite b = true)
    (h0 : value b ≠ 0) :
    IsNearest (fdiv a b) (value a * 2 ^ 149 * (value b).sign) (value b).natAbs := by
  have hmag : mag b ≠ 0 := by rwa [← natAbs_value, Int.natAbs_ne_zero]
  have hsign : (value b).sign = signed (sign b) 1 := by
    have : (0 : Int) < mag b := by omega
    rw [value_eq_signed]
    cases sign b <;> simp [signed, Int.sign_eq_one_of_pos this]
  have h := isNearest_round (sign a != sign b) (mag a) (Nat.pos_of_ne_zero hmag)
  rwa [fdiv_finite ha hb hmag, natAbs_value, hsign, value_eq_signed, ← signed_mul, signed_mul_signed,
    mul_one]

/-- The sum of two opposite numbers with different signs is `+0.0`. -/
theorem fadd_opposite {a b : Word} (ha : isFinite a = true) (hb : isFinite b = true)
    (hsum : value a + value b = 0) (hsign : sign a ≠ sign b) : fadd a b = 0 := by
  have hneg : (sign a && sign b) = false := by
    cases h : sign a <;> simp_all
  rw [fadd_finite ha hb, hsum, if_pos rfl, hneg]
  decide +kernel

/-! ## Infinities and NaNs -/

/-- The NaN of an invalid operation is one, whatever its free bits are (log 14). -/
theorem isNan_nan (a b : Word) : isNan (nan a b) = true := by
  have hfrac := ((Config.freeNan a b).extractLsb' 0 23).isLt
  simp only [nan, isNan, infBits]
  rw [expField_pack (by split <;> omega), fracField_pack (by split <;> omega), Bool.and_eq_true,
    beq_iff_eq, bne_iff_ne]
  split <;> omega

theorem isZero_pack_zero (neg : Bool) : isZero (pack neg 0) = true := by
  cases neg <;> decide

/-- An infinity is neither a NaN nor a zero. -/
theorem isNan_of_isInf {a : Word} (h : isInf a = true) : isNan a = false := by
  simp_all [isInf, isNan]

theorem isZero_of_isInf {a : Word} (h : isInf a = true) : isZero a = false := by
  simp_all [isInf, isZero]

/-- A zero is finite. -/
theorem isFinite_of_isZero {a : Word} (h : isZero a = true) : isFinite a = true := by
  simp_all [isZero, isFinite]

section
variable {a b : Word}

/-- An operation with a NaN operand gives a NaN. -/
theorem isNan_of_nan_operand (h : isNan a = true ∨ isNan b = true) :
    isNan (fmul a b) = true ∧ isNan (fadd a b) = true ∧ isNan (fdiv a b) = true := by
  have h' : (isNan a || isNan b) = true := by rwa [Bool.or_eq_true]
  simp only [fmul, fadd, fdiv, h', if_true, isNan_nan, and_self]

/-- The sum of two infinities is a NaN if their signs differ, and else either of them. -/
theorem fadd_inf_inf (ha : isInf a = true) (hb : isInf b = true) :
    fadd a b = if sign a = sign b then a else nan a b := by
  simp [fadd, ha, hb, isNan_of_isInf]

theorem fdiv_inf_inf (ha : isInf a = true) (hb : isInf b = true) : fdiv a b = nan a b := by
  simp [fdiv, ha, hb, isNan_of_isInf]

theorem fmul_zero_inf (ha : isZero a = true) (hb : isInf b = true) :
    fmul a b = nan a b ∧ fmul b a = nan b a := by
  simp [fmul, ha, hb, isNan_of_isInf hb, not_isNan_of_isFinite (isFinite_of_isZero ha)]

theorem fdiv_zero_zero (ha : isZero a = true) (hb : isZero b = true) : fdiv a b = nan a b := by
  simp [fdiv, ha, hb, not_isNan_of_isFinite (isFinite_of_isZero _)]

/-- An infinity and a finite value: the infinity outweighs it in a sum and over it, and over the infinity
it is a zero. -/
theorem fadd_inf_finite (ha : isInf a = true) (hb : isFinite b = true) : fadd a b = a ∧ fadd b a = a := by
  simp [fadd, ha, isNan_of_isInf ha, not_isNan_of_isFinite hb, not_isInf_of_isFinite hb]

theorem fdiv_inf_finite (ha : isInf a = true) (hb : isFinite b = true) :
    fdiv a b = inf (sign a != sign b) ∧ fdiv b a = pack (sign b != sign a) 0 := by
  simp [fdiv, ha, isNan_of_isInf ha, isZero_of_isInf ha, not_isNan_of_isFinite hb,
    not_isInf_of_isFinite hb]

theorem fmul_inf (ha : isInf a = true) (hn : isNan b = false) (h0 : isZero b = false) :
    fmul a b = inf (sign a != sign b) ∧ fmul b a = inf (sign b != sign a) := by
  simp [fmul, ha, hn, h0, isNan_of_isInf ha, isZero_of_isInf ha]

end

/-- Settles O32, clause by clause: finite operands are rounded once, the others follow IEEE 754. -/
theorem arithmeticRoundsOnce : Obligations.ArithmeticRoundsOnce := by
  refine fun a b => ⟨fun ha hb => ⟨isNearest_fmul ha hb, isNearest_fadd ha hb, isNearest_fdiv ha hb,
      ?mulSign, fun h0 => ?divSign, fadd_opposite ha hb⟩,
    isNan_of_nan_operand, fun ha hb => ⟨fun hs => ?infSum, ?infQuotient⟩, fun ha hb => ?zeroTimesInf,
    fun ha hb => ?zeroQuotient, fun ha hb => ?infFinite, fun ha hn h0 => ?infTimes,
    fun ha hb hs => ?infSumSame⟩
  case mulSign => rw [fmul_finite ha hb, sign_round]
  case divSign =>
    have hmag : mag b ≠ 0 := by rwa [← natAbs_value, Int.natAbs_ne_zero]
    rw [fdiv_finite ha hb hmag, sign_round]
  case infSum => rw [fadd_inf_inf ha hb, if_neg hs, isNan_nan]
  case infQuotient => rw [fdiv_inf_inf ha hb, isNan_nan]
  case zeroTimesInf =>
    obtain ⟨h, h'⟩ := fmul_zero_inf ha hb
    rw [h, h', isNan_nan, isNan_nan]
    exact ⟨rfl, rfl⟩
  case zeroQuotient => rw [fdiv_zero_zero ha hb, isNan_nan]
  case infFinite =>
    obtain ⟨hadd, hadd'⟩ := fadd_inf_finite ha hb
    obtain ⟨hdiv, hdiv'⟩ := fdiv_inf_finite ha hb
    refine ⟨hadd, hadd', hdiv, ?_, ?_⟩
    · rw [hdiv', isZero_pack_zero]
    · rw [hdiv', sign_pack (by decide), bne_comm]
  case infTimes =>
    obtain ⟨h, h'⟩ := fmul_inf ha hn h0
    exact ⟨h, by rw [h', bne_comm]⟩
  case infSumSame => rw [fadd_inf_inf ha hb, if_pos hs]

/-! ## Comparisons -/

theorem value_of_isInf {a : Word} (h : isInf a = true) : value a = signed (sign a) (2 ^ 277) := by
  rw [value_eq_signed, mag_of_isInf h]
  norm_cast

/-- A finite value lies between the infinities. -/
theorem value_bounds_of_isFinite {a : Word} (h : isFinite a = true) :
    -2 ^ 277 < value a ∧ value a < 2 ^ 277 := by
  rw [← abs_lt, abs_value]
  exact_mod_cast mag_lt h

theorem fgt_eq {a b : Word} (ha : isNan a = false) (hb : isNan b = false) :
    fgt a b = decide (value b < value a) := by
  simp [fgt, ha, hb]

theorem flt_eq {a b : Word} (ha : isNan a = false) (hb : isNan b = false) :
    flt a b = decide (value a < value b) := by
  simp [flt, ha, hb]

theorem fgt_iff {a b : Word} :
    fgt a b = true ↔ isNan a = false ∧ isNan b = false ∧ value b < value a := by
  simp [fgt, and_assoc]

theorem flt_iff {a b : Word} :
    flt a b = true ↔ isNan a = false ∧ isNan b = false ∧ value a < value b := by
  simp [flt, and_assoc]

/-- Settles O33: all comparisons are of values, and an infinity's lies beyond every finite one. -/
theorem comparisonsOfRealNumbers : Obligations.ComparisonsOfRealNumbers := by
  refine fun a b => ⟨fun ha hb => ?finite, fun ha hb => ?zeros, fun ha hb => ?infFinite,
    fun ha hb => ?infs, fun h => ?nans, by simp [isNan]⟩
  case finite =>
    have hna := not_isNan_of_isFinite ha
    have hnb := not_isNan_of_isFinite hb
    simp [fgt_eq hna hnb, flt_eq hna hnb]
  case zeros =>
    have hva : value a = 0 := by rwa [← Int.natAbs_eq_zero, natAbs_value, ← isZero_iff]
    have hvb : value b = 0 := by rwa [← Int.natAbs_eq_zero, natAbs_value, ← isZero_iff]
    simp [fgt, flt, hva, hvb]
  case infFinite =>
    have hna := isNan_of_isInf ha
    have hnb := not_isNan_of_isFinite hb
    obtain ⟨hlow, hhigh⟩ := value_bounds_of_isFinite hb
    rw [fgt_eq hna hnb, flt_eq hna hnb, fgt_eq hnb hna, flt_eq hnb hna, value_of_isInf ha]
    cases sign a <;> simp [signed, hlow, hhigh, hlow.le, hhigh.le]
  case infs =>
    have hpos : (0 : Int) < 2 ^ 277 := by positivity
    have hneg : (-2 ^ 277 : Int) < 2 ^ 277 := (neg_lt_zero.2 hpos).trans hpos
    rw [fgt_eq (isNan_of_isInf ha) (isNan_of_isInf hb), flt_eq (isNan_of_isInf ha) (isNan_of_isInf hb),
      value_of_isInf ha, value_of_isInf hb]
    cases sign a <;> cases sign b <;> simp [signed, hneg]
  case nans => rcases h with h | h <;> simp [fgt, flt, h]

end Sys2Proof.Fp
end

section
/-! PROOFS. The controller: no intermediate of `pi_update` leaves the finite range, its output is clamped and its accumulator rolled back (spec/41_pi_controller.md rules R137, R143, R144, R146). -/

namespace Sys2Proof

/-- The bounds of a well-formed configuration on its gains and its tick frequency (R5). -/
theorem Config.gains (cfg : Config) : gainWithin cfg.kp 64 = true ∧ gainWithin cfg.ki 32 = true ∧
    1 ≤ cfg.fRef ∧ cfg.fRef ≤ 2 ^ 32 - 1 := by
  have h := cfg.ok
  simp only [Params.wf, Bool.and_eq_true, decide_eq_true_eq, beq_iff_eq] at h
  obtain ⟨⟨⟨⟨⟨⟨-, hf⟩, hf'⟩, -⟩, -⟩, hkp⟩, hki⟩ := h
  exact ⟨hkp, hki, hf, hf'⟩

namespace Fp

/-- A finite pattern of magnitude at most `2^k`, in units of `2^-149`. -/
def Bounded (k : Nat) (a : Word) : Prop := isFinite a = true ∧ mag a ≤ 2 ^ k

theorem Bounded.abs_value_le {k : Nat} {a : Word} (h : Bounded k a) : |value a| ≤ 2 ^ k := by
  rw [abs_value]
  exact_mod_cast h.2

theorem bounded_of_value {k : Nat} {a : Word} (hfin : isFinite a = true) (h0 : 0 ≤ value a)
    (h : value a ≤ 2 ^ k) : Bounded k a := by
  rw [← mag_of_value_nonneg h0] at h
  exact ⟨hfin, by exact_mod_cast h⟩

/-- Rounding a number of magnitude at most `2^k` gives a finite value of magnitude at most `2^k`. -/
theorem bounded_round (neg : Bool) {n d k : Nat} (hd : 0 < d) (hk : k < 277) (h : n * 2 ^ 149 ≤ d * 2 ^ k) :
    Bounded k (round neg n d) := by
  have hle := mag_round_le neg hd h
  exact ⟨(isFinite_round_iff _ _ _).2 (hle.trans_lt (Nat.pow_lt_pow_right (by omega) hk)), hle⟩

theorem bounded_fmul {i j k : Nat} {a b : Word} (ha : Bounded i a) (hb : Bounded j b) (hk : k < 277)
    (h : i + j = k + 149) : Bounded k (fmul a b) := by
  rw [fmul_finite ha.1 hb.1]
  refine bounded_round _ (Nat.two_pow_pos _) hk ?_
  calc mag a * mag b * 2 ^ 149 ≤ 2 ^ i * 2 ^ j * 2 ^ 149 := by gcongr <;> [exact ha.2; exact hb.2]
    _ = 2 ^ 298 * 2 ^ k := by rw [← pow_add, ← pow_add, ← pow_add]; congr 1; omega

theorem bounded_fadd {k : Nat} {a b : Word} (ha : Bounded k a) (hb : Bounded k b) (hk : k + 1 < 277) :
    Bounded (k + 1) (fadd a b) := by
  rw [fadd_finite ha.1 hb.1]
  refine bounded_round _ (Nat.two_pow_pos _) hk ?_
  have hsum : (value a + value b).natAbs ≤ 2 ^ (k + 1) := by
    have h := Int.natAbs_add_le (value a) (value b)
    rw [natAbs_value, natAbs_value] at h
    rw [pow_succ]
    linarith [ha.2, hb.2]
  rw [Nat.mul_comm]
  exact Nat.mul_le_mul_left _ hsum

theorem bounded_i2f (v : Word) : Bounded 180 (i2f v) := i2f_finite v

theorem bounded_u2f (v : Word) : Bounded 181 (u2f v) := u2f_finite v

end Fp

namespace Machine

open Sys2Proof.Safety

/-! ## No floating-point exception -/

section
variable (cfg : Config) (error sum1 : Word) {ta : Word}

/-- The bounds of the gains, in units of `2^-149` (R5). -/
theorem bounded_kp : Fp.Bounded 213 cfg.kp := by
  obtain ⟨hkp, -, -, -⟩ := cfg.gains
  exact (Fp.gainWithin_iff (by omega)).1 hkp

theorem bounded_ki : Fp.Bounded 181 cfg.ki := by
  obtain ⟨-, hki, -, -⟩ := cfg.gains
  exact (Fp.gainWithin_iff (by omega)).1 hki

/-- The proportional term (R146). -/
theorem bounded_proportional : Fp.Bounded 244 (Fp.fmul cfg.kp (Fp.i2f error)) :=
  Fp.bounded_fmul (bounded_kp cfg) (Fp.bounded_i2f error) (by omega) (by omega)

/-- The accumulated error times its gain (R146). -/
theorem bounded_integralGain : Fp.Bounded 212 (Fp.fmul cfg.ki (Fp.i2f sum1)) :=
  Fp.bounded_fmul (bounded_ki cfg) (Fp.bounded_i2f sum1) (by omega) (by omega)

/-- The integral term (R146). -/
theorem bounded_integral (hta : Fp.Bounded 181 ta) :
    Fp.Bounded 244 (Fp.fmul (Fp.fmul cfg.ki (Fp.i2f sum1)) ta) :=
  Fp.bounded_fmul (bounded_integralGain cfg sum1) hta (by omega) (by omega)

/-- The raw output (R146). -/
theorem bounded_rawOutput (hta : Fp.Bounded 181 ta) : Fp.Bounded 245 (rawOutput cfg error sum1 ta) :=
  Fp.bounded_fadd (bounded_proportional cfg error) (bounded_integral cfg sum1 hta) (by omega)

/-- The sampling period is at most `2^32`: its divisor is at least 1 (R165). -/
theorem bounded_period (t : Word) : Fp.Bounded 181 (period cfg t) := by
  obtain ⟨-, -, hf, hf'⟩ := cfg.gains
  have hmag : 2 ^ 149 ≤ Fp.mag (Fp.u2f (BitVec.ofNat 32 cfg.fRef)) := by
    refine Fp.le_mag_round false Nat.one_pos (by omega) ?_
    rw [BitVec.toNat_ofNat, Nat.mod_eq_of_lt (by omega)]
    exact Nat.mul_le_mul_right _ hf
  obtain ⟨hfin, hle⟩ := Fp.bounded_u2f t
  have hpos : 0 < Fp.mag (Fp.u2f (BitVec.ofNat 32 cfg.fRef)) := (Nat.two_pow_pos _).trans_le hmag
  rw [period, Fp.fdiv_finite hfin (Fp.u2f_finite _).1 hpos.ne']
  refine Fp.bounded_round _ hpos (by omega) ?_
  rw [Nat.mul_comm]
  exact Nat.mul_le_mul hmag hle

end

/-- With the period of a closing edge `pi_update` does not raise `FpInvalid`. -/
theorem piUpdate_ne_fpInvalid {s : State} (t : Word) : piUpdate (period s.cfg t) s ≠ .fault .fpInvalid := by
  simp [piUpdate, piError, piSum, andThen_eq_fault, checkS32_eq_fault,
    Fp.not_isNan_of_isFinite (bounded_rawOutput _ _ _ (bounded_period _ _)).1]

theorem closeWindow_ne_fpInvalid (s : State) : closeWindow s ≠ .fault .fpInvalid := by
  intro h
  rcases andThen_eq_fault.1 h with h | ⟨s1, -, h⟩
  · unfold etClose raise at h
    split at h <;> cases h
  rcases andThen_eq_fault.1 h with h | ⟨m, -, h⟩
  · unfold rate raise at h
    split at h
    · cases h
    · simp [andThen_eq_fault, checkU32_eq_fault] at h
  rcases andThen_eq_fault.1 h with h | ⟨s2, hpi, h⟩
  · exact piUpdate_ne_fpInvalid s1.elapsedTicks h
  · obtain ⟨d, hd⟩ := f2uTrunc_output_of_piUpdate hpi
    rw [forwardDuty_eq_next.2 ⟨d, hd, rfl⟩] at h
    cases h

/-- Only a slot outside the ring faults a read, and it raises `IllegalCommand` (R43). -/
theorem regView_ne_fpInvalid {reg : RegSel} {s : State} : regView reg s ≠ .fault .fpInvalid := by
  cases reg with
  | rb i =>
    by_cases hi : i.toNat < s.cfg.n <;> simp [regView, memRead, raise, hi]
  | _ => simp [regView]

/-- No command raises `FpInvalid` (R146). -/
theorem exec_ne_fpInvalid (i : Instr) (s : State) : exec i s ≠ .fault .fpInvalid := by
  intro h
  cases i with
  | nop => cases h
  | edge =>
    cases hr : s.running with
    | false => cases (execEdge_of_idle hr).symm.trans h
    | true =>
      rw [exec, execEdge, if_pos hr] at h
      exact closeWindow_ne_fpInvalid _ h
  | tick => cases (execTick_eq s).symm.trans h
  | settgt val => cases h
  | filt val =>
    obtain ⟨-, hs⟩ := execFilt_eq_fault.1 h
    simp [smooth, andThen_eq_fault, checkU32_eq_fault] at hs
  | rd reg => exact regView_ne_fpInvalid (execRd_eq_fault.1 h)

/-- Settles O29: each operand and each intermediate is bounded by a power of 2, and so finite. -/
theorem noFloatingPointException : Obligations.NoFloatingPointException := by
  refine ⟨fun cfg error sum1 ta hfin h0 hle => ?_, exec_ne_fpInvalid⟩
  have hta := Fp.bounded_of_value hfin h0 hle
  have kp := bounded_kp cfg
  have ki := bounded_ki cfg
  have p := bounded_proportional cfg error
  have r := bounded_integralGain cfg sum1
  have q := bounded_integral cfg sum1 hta
  have raw := bounded_rawOutput cfg error sum1 hta
  have e := Fp.bounded_i2f error
  have sum := Fp.bounded_i2f sum1
  refine ⟨e.1, e.abs_value_le, sum.1, sum.abs_value_le, kp.1, kp.abs_value_le, ki.1, ki.abs_value_le, ?_⟩
  exact ⟨rfl, p.1, p.abs_value_le, r.1, r.abs_value_le, q.1, q.abs_value_le, raw.1, raw.abs_value_le⟩

/-! ## The clamp and the rollback -/

/-- The bounds are ordered as patterns too. -/
theorem value_minOut_le_value_maxOut (cfg : Config) :
    Fp.value (Fp.fOfInt cfg.minOut) ≤ Fp.value (Fp.fOfInt cfg.maxOut) := by
  obtain ⟨-, -, hle, hmax, -, -⟩ := cfg.bounds
  rw [(Fp.fOfInt_exact hmax).2, (Fp.fOfInt_exact (hle.trans_lt hmax)).2]
  exact scaled_mono hle

/-- A raw value beyond the upper bound is not beyond the lower one (R143). -/
theorem not_flt_minOut_of_fgt_maxOut {cfg : Config} {raw : Word}
    (h : Fp.fgt raw (Fp.fOfInt cfg.maxOut) = true) : Fp.flt raw (Fp.fOfInt cfg.minOut) = false := by
  rw [Bool.eq_false_iff]
  intro hlt
  obtain ⟨-, -, hmax⟩ := Fp.fgt_iff.1 h
  obtain ⟨-, -, hmin⟩ := Fp.flt_iff.1 hlt
  exact absurd (hmin.trans_le (value_minOut_le_value_maxOut cfg)) hmax.not_gt

/-- A raw value equal to a bound is not beyond either (R143). -/
theorem not_beyond_of_eq_bound {cfg : Config} {raw : Word}
    (h : raw = Fp.fOfInt cfg.maxOut ∨ raw = Fp.fOfInt cfg.minOut) :
    Fp.fgt raw (Fp.fOfInt cfg.maxOut) = false ∧ Fp.flt raw (Fp.fOfInt cfg.minOut) = false := by
  have hle := value_minOut_le_value_maxOut cfg
  rw [Bool.eq_false_iff, Bool.eq_false_iff, Ne, Ne, Fp.fgt_iff, Fp.flt_iff]
  rcases h with rfl | rfl
  · exact ⟨fun ⟨_, _, hgt⟩ => lt_irrefl _ hgt, fun ⟨_, _, hlt⟩ => hlt.not_ge hle⟩
  · exact ⟨fun ⟨_, _, hgt⟩ => hgt.not_ge hle, fun ⟨_, _, hlt⟩ => lt_irrefl _ hlt⟩

/-- The write-back of a clamped call: the accumulator is the one before the call (R143). -/
theorem clampWriteBack_of_clamps {error sum1 raw old : Word} {s : State}
    (h : sum1.toInt = old.toInt + error.toInt) (hc : clamps s.cfg raw = true) :
    clampWriteBack error sum1 raw s = (s.setOutput (clampedOutput s.cfg raw)).setErrorSum old := by
  rw [clampWriteBack, rolledBackSum, if_pos hc, rollback_eq h]

theorem clampWriteBack_of_not_clamps {error sum1 raw : Word} {s : State} (hc : clamps s.cfg raw = false) :
    clampWriteBack error sum1 raw s = (s.setOutput raw).setErrorSum sum1 := by
  have hor : Fp.fgt raw (Fp.fOfInt s.cfg.maxOut) = false ∧ Fp.flt raw (Fp.fOfInt s.cfg.minOut) = false := by
    simpa [clamps] using hc
  rw [clampWriteBack, rolledBackSum, if_neg (by simp [hc]), clampedOutput, hor.1, hor.2]
  rfl

/-- The two writes of the write-back, for any word: `rfl` must not meet an operation of `Fp` here. -/
theorem setErrorSum_setOutput (s : State) (output errorSum : Word) :
    (s.setOutput output).setErrorSum errorSum = { s with output := output, errorSum := errorSum } := rfl

/-- Settles O27, branch by branch. -/
theorem clampAndRollback : Obligations.ClampAndRollback := by
  intro error sum1 raw old s hsum
  have hinside (hgt : Fp.fgt raw (Fp.fOfInt s.cfg.maxOut) = false)
      (hlt : Fp.flt raw (Fp.fOfInt s.cfg.minOut) = false) :
      clampWriteBack error sum1 raw s = { s with output := raw, errorSum := sum1 } :=
    clampWriteBack_of_not_clamps (by simp [clamps, hgt, hlt])
  refine ⟨fun hgt => ?_, fun hgt hlt => ?_, hinside, not_flt_minOut_of_fgt_maxOut, fun h => ?_⟩
  · rw [clampWriteBack_of_clamps hsum (by simp [clamps, hgt]), clampedOutput, if_pos hgt,
      setErrorSum_setOutput]
  · rw [clampWriteBack_of_clamps hsum (by simp [clamps, hlt]), clampedOutput, if_neg (by simp [hgt]),
      if_pos hlt, setErrorSum_setOutput]
  · obtain ⟨hgt, hlt⟩ := not_beyond_of_eq_bound h
    exact hinside hgt hlt

/-- The raw output, by the operations that give it (R141). -/
theorem rawOutput_eq (cfg : Config) (error sum1 ta : Word) : rawOutput cfg error sum1 ta =
    Fp.fadd (Fp.fmul cfg.kp (Fp.i2f error)) (Fp.fmul (Fp.fmul cfg.ki (Fp.i2f sum1)) ta) := rfl

/-- The output that `pi_update` leaves lies within the bounds (R144). -/
theorem output_within_of_piUpdate {ta : Word} {s t : State} (h : piUpdate ta s = .next t) :
    OutputWithin s.cfg.minOut s.cfg.maxOut t.output := by
  obtain ⟨error, sum1, -, -, hnan, rfl⟩ := piUpdate_eq_next.1 h
  exact clampedOutput_within hnan

/-- Settles O28: the error and the sum are those of the completed call. -/
theorem controllerGuarantees : Obligations.ControllerGuarantees := by
  intro ta s t h
  refine ⟨output_within_of_piUpdate h, ?_⟩
  obtain ⟨error, sum1, herror, hsum, -, rfl⟩ := piUpdate_eq_next.1 h
  refine ⟨error, sum1, herror, hsum, ?_⟩
  rw [← rawOutput_eq s.cfg error sum1 ta]
  refine ⟨fun hc => ?_, fun hc => ?_⟩
  · rw [clampWriteBack_of_clamps hsum hc, State.setErrorSum_errorSum]
  · rw [clampWriteBack_of_not_clamps hc]
    exact ⟨hsum, State.setOutput_output s _⟩

/-! ## Truncation -/

/-- Settles O34: the integer part is the quotient of the magnitude, and the bounds of the output lie far
below `2^32`. -/
theorem truncationIsTheIntegerPart : Obligations.TruncationIsTheIntegerPart := by
  refine ⟨fun a hfin h0 hlt => ?_, fun ta s t h => ?_, by decide +kernel⟩
  · have hm := Fp.mag_of_value_nonneg h0
    have hdom : Fp.mag a < 2 ^ 32 * 2 ^ 149 := by
      rw [← hm] at hlt
      exact_mod_cast hlt
    have hv : Fp.f2uTrunc a = some (BitVec.ofNat 32 (Fp.mag a / 2 ^ 149)) := if_pos ⟨hfin, h0, hdom⟩
    refine ⟨_, hv, ?_⟩
    rw [Fp.toNat_of_f2uTrunc hv, ← hm]
    omega
  · obtain ⟨-, -, -, hmax, -, -⟩ := s.cfg.bounds
    obtain ⟨hfin, hlow, hhigh⟩ := output_within_of_piUpdate h
    refine ⟨hfin, (scaled_nonneg _).trans hlow, hhigh.trans_lt ?_⟩
    omega

/-- Settles O53: outside its domain each primitive takes its last branch. -/
theorem undefinedOperandsStop : Obligations.UndefinedOperandsStop := by
  refine ⟨fun a ha => if_neg ?_, fun n m i v hi => ⟨if_neg hi.not_gt, if_neg hi.not_gt⟩⟩
  rintro ⟨hfin, h0, hdom⟩
  refine ha ⟨hfin, h0, ?_⟩
  rw [← Fp.mag_of_value_nonneg h0]
  exact_mod_cast hdom

end Machine
end Sys2Proof
end

section
/-! PROOFS. Gains written in decimal and in hexadecimal (spec/41_pi_controller.md rule R138; spec/30_encoding.md rule R96; log 5). -/

namespace Sys2Proof.Machine

open Sys2Proof.Safety

/-- A text that spells a number holds only digits. -/
theorem not_mem_of_digits {base : Nat} {t : List Char} {acc k : Nat} (h : digits base t acc = some k)
    {c : Char} (hc : digit base c = none) : c ∉ t := by
  induction t generalizing acc with
  | nil => simp
  | cons d t ih =>
    obtain ⟨v, hv, ht⟩ := Option.bind_eq_some_iff.1 h
    refine List.not_mem_cons_of_ne_of_not_mem ?_ (ih ht)
    rintro rfl
    simp [hc] at hv

/-- What holds neither a sign nor an `x` is read as a decimal number; a sign before it is its sign. -/
theorem gain_signed (neg : Bool) {t : List Char} (hx : 'x' ∉ t) (hminus : '-' ∉ t) :
    gain ((if neg then ['-'] else []) ++ t) = unsignedDecimal neg t := by
  cases neg with
  | true => rfl
  | false =>
    simp only [Bool.false_eq_true, if_false, List.nil_append]
    unfold gain
    split
    · simp at hx
    · simp at hminus
    · rfl

/-- A decimal number with a point: the digits behind the point count. -/
theorem unsignedDecimal_point (neg : Bool) {whole frac : List Char} {k : Nat} (hpoint : '.' ∉ whole)
    (hwhole : whole ≠ []) (hfrac : frac ≠ []) (h : digits 10 (whole ++ frac) 0 = some k) :
    unsignedDecimal neg (whole ++ '.' :: frac) = some (Fp.ofDecimal neg k frac.length) := by
  have hall : ∀ c ∈ whole, (c != '.') = true := fun c hc => by
    rw [bne_iff_ne]
    exact fun e => hpoint (e ▸ hc)
  have htake : (whole ++ '.' :: frac).takeWhile (· != '.') = whole := by
    rw [List.takeWhile_append_of_pos hall]
    simp
  have hdrop : (whole ++ '.' :: frac).dropWhile (· != '.') = '.' :: frac := by
    rw [List.dropWhile_append_of_pos hall]
    simp
  obtain ⟨w, ws, rfl⟩ := List.exists_cons_of_ne_nil hwhole
  obtain ⟨f, fs, rfl⟩ := List.exists_cons_of_ne_nil hfrac
  unfold unsignedDecimal
  rw [htake, hdrop]
  simp only [h, Option.map_some]

/-- A decimal number without a point. -/
theorem unsignedDecimal_whole (neg : Bool) {whole : List Char} {k : Nat} (hwhole : whole ≠ [])
    (h : digits 10 whole 0 = some k) : unsignedDecimal neg whole = some (Fp.ofDecimal neg k 0) := by
  have hall : ∀ c ∈ whole, (c != '.') = true := fun c hc => by
    rw [bne_iff_ne]
    exact fun e => not_mem_of_digits h (by decide) (e ▸ hc)
  obtain ⟨w, ws, rfl⟩ := List.exists_cons_of_ne_nil hwhole
  unfold unsignedDecimal
  rw [List.takeWhile_eq_self_iff.2 hall, List.dropWhile_eq_nil_iff.2 hall]
  simp only [h, Option.map_some]

/-- A gain in hexadecimal is the pattern it spells. -/
theorem gain_hexadecimal {t : List Char} {k : Nat} (ht : t ≠ []) (h : digits 16 t 0 = some k)
    (hk : k < 2 ^ 32) :
    gain ('0' :: 'x' :: t) = some (BitVec.ofNat 32 k) := by
  obtain ⟨c, cs, rfl⟩ := List.exists_cons_of_ne_nil ht
  have hnumber : number ('0' :: 'x' :: c :: cs) = some k := h
  exact congrArg (Option.map (BitVec.ofNat 32)) (numberWithin_of_lt hnumber hk)

/-- Settles O59, clause by clause: decimal gains are rounded once, patterns are taken as they are. -/
theorem decimalGainsAreRounded : Obligations.DecimalGainsAreRounded := by
  refine ⟨fun neg k places => ?rounded, fun neg whole frac k hpoint hwhole hfrac h => ?point,
    fun neg whole k hwhole h => ?whole, fun t k ht h hk => gain_hexadecimal ht h hk,
    fun n t v h => parseTokens_cfg_gain n h, fun _ _ => ⟨rfl, rfl⟩, by decide +kernel, by decide +kernel,
    by decide +kernel, by decide +kernel⟩
  case rounded =>
    have h := Fp.isNearest_round neg k (Nat.pow_pos (n := places) (Nat.succ_pos 9))
    rwa [Fp.signed_mul] at h
  case point =>
    have hmem {c : Char} (hc : digit 10 c = none) (hne : c ≠ '.') : c ∉ whole ++ '.' :: frac := by
      have hdigits := not_mem_of_digits h hc
      simp_all
    rw [List.append_assoc, gain_signed neg (hmem (by decide) (by decide)) (hmem (by decide) (by decide)),
      unsignedDecimal_point neg hpoint hwhole hfrac h]
  case whole =>
    rw [gain_signed neg (not_mem_of_digits h (by decide)) (not_mem_of_digits h (by decide)),
      unsignedDecimal_whole neg hwhole h]

end Sys2Proof.Machine
end

section
/-! PROOFS. The fan-control loop (spec/42_fan_control_loop.md): what a closing edge gives and when it completes (rule R161), the rate formula and the sampling period (rules R163 to R165), the two transitions of the sequencer (rule R160), the target (rule R171) and the stalled fan (rule R173). -/

namespace Sys2Proof.Machine

open Sys2Proof.Safety

/-! ## The closing edge (R161) -/

/-- The raw output of a closing edge is finite (R146). -/
theorem isNan_closingRaw (s : State) : Fp.isNan (closingRaw s) = false :=
  Fp.not_isNan_of_isFinite (bounded_rawOutput _ _ _ (bounded_period _ _)).1

/-- The output of a closing edge is the clamped raw output (R143). -/
theorem closingOutput_eq (s : State) : closingOutput s = clampedOutput s.cfg (closingRaw s) := rfl

/-- The output of a closing edge has an integer part, since the clamp bounds it (R167). -/
theorem f2uTrunc_closingOutput (s : State) : ∃ d, Fp.f2uTrunc (closingOutput s) = some d := by
  obtain ⟨-, -, -, hmax, -, -⟩ := s.cfg.bounds
  rw [closingOutput_eq]
  exact f2uTrunc_defined (clampedOutput_within (isNan_closingRaw s)) hmax

/-- On the conditions of R161 a closing edge completes: its integers fit their types, and a clamp takes
the error back out of the accumulator. -/
theorem completes_closing {s : State} {d : Word} (timing : s.running = true) (h : ClosingFits s)
    (hduty : Fp.f2uTrunc (closingOutput s) = some d) :
    Completes s .edge (closedState s (BitVec.ofNat 32 (closingRate s.cfg s.cnt.toNat)) (closingOutput s)
      (closingErrorSum s) d) := by
  obtain ⟨fresh, hcnt, htwice, hrate, herror, hsum⟩ := h
  have hm := Nat.mod_eq_of_lt hrate
  rw [← BitVec.toNat_ofNat] at hm
  have he := toInt_ofInt_of_fits herror
  have hs : (BitVec.ofInt 32 (closingSum s (closingRate s.cfg s.cnt.toNat))).toInt =
      s.errorSum.toInt + (BitVec.ofInt 32 (closingError s (closingRate s.cfg s.cnt.toNat))).toInt := by
    rw [toInt_ofInt_of_fits hsum, he, closingSum]
  have hback : closingErrorSum s = rolledBackSum s.cfg
      (BitVec.ofInt 32 (closingError s (closingRate s.cfg s.cnt.toNat)))
      (BitVec.ofInt 32 (closingSum s (closingRate s.cfg s.cnt.toNat))) (closingRaw s) := by
    rw [rolledBackSum, rollback_eq hs, closingErrorSum]
  rw [closingOutput_eq] at hduty ⊢
  rw [hback]
  exact .closing timing fresh (rate_eq_next.2 ⟨hcnt, htwice, hm⟩) (by rw [he, hm, closingError]) hs rfl
    (isNan_closingRaw s) hduty

/-- A closing edge that completes meets the conditions of R161. -/
theorem Completes.closingFits {s t : State} (h : Completes s .edge t) (timing : s.running = true) :
    ClosingFits s := by
  cases h with
  | opening idle => simp [timing] at idle
  | @closing m error sum1 raw d _ fresh hrate herror hsum =>
    obtain ⟨hcnt, htwice, hm⟩ := rate_eq_next.1 hrate
    rw [← closingRate] at hm
    rw [← closingError] at herror
    rw [herror, ← closingSum] at hsum
    rw [ClosingFits, ← hm, ← herror, ← hsum]
    exact ⟨fresh, hcnt, htwice, m.isLt, fits_toInt error, fits_toInt sum1⟩

/-- Settles O18: the conditions of R161 are those on which the command completes, and its state is the
closed one. -/
theorem closingEdgeResult : Obligations.ClosingEdgeResult := by
  intro s timing
  refine ⟨fun hfits => ?_, fun t ht => (exec_eq_next.1 ht).closingFits timing⟩
  obtain ⟨d, hd⟩ := f2uTrunc_closingOutput s
  exact ⟨d, hd, exec_eq_next.2 (completes_closing timing hfits hd)⟩

/-! ## The rate (R163) -/

/-- What a fault of the rate formula comes from. -/
theorem rate_eq_fault {cfg : Config} {t : Word} {f : Fault} :
    rate cfg t = .fault f ↔ (t = 0 ∧ f = .divideByZero) ∨
      (t ≠ 0 ∧ ¬ t.toNat * 2 < 2 ^ 32 ∧ f = .arithOverflow .ticksTwice) ∨
      (t ≠ 0 ∧ t.toNat * 2 < 2 ^ 32 ∧ ¬ cfg.fRef / (t.toNat * 2) * 60 < 2 ^ 32 ∧
        f = .arithOverflow .rate) := by
  by_cases h0 : t = 0
  · simp [rate, raise, h0, @eq_comm _ f]
  by_cases h2 : t.toNat * 2 < 2 ^ 32
  · have hd : (BitVec.ofNat 32 (t.toNat * 2)).toNat = t.toNat * 2 :=
      (BitVec.toNat_ofNat _ _).trans (Nat.mod_eq_of_lt h2)
    rw [rate, if_neg h0, checkU32_of_lt h2, andThen_next, hd, checkU32_eq_fault]
    simp only [h0, h2, ne_eq, not_false_eq_true, not_true_eq_false, true_and, false_and, false_or]
  · rw [rate, if_neg h0, checkU32_of_not_lt h2, andThen_fault]
    simp only [h0, h2, ne_eq, not_false_eq_true, true_and, false_and, and_false, false_or, or_false,
      Host.Outcome.fault.injEq, @eq_comm _ f]

/-- Dividing before the multiplication loses less than one multiple (R163). -/
theorem div_mul_bounds (n k : Nat) {d : Nat} (hd : 0 < d) (hk : 0 < k) :
    n / d * k ≤ k * n / d ∧ k * n / d ≤ n / d * k + (k - 1) := by
  constructor
  · rw [Nat.mul_comm]
    exact Nat.mul_div_le_mul_div_assoc k n d
  · have hn : n < d * (n / d + 1) := Nat.lt_mul_div_succ n hd
    have hlt : k * n / d < (n / d + 1) * k := by
      rw [Nat.div_lt_iff_lt_mul hd]
      calc k * n < k * (d * (n / d + 1)) := Nat.mul_lt_mul_of_pos_left hn hk
        _ = (n / d + 1) * k * d := by ring
    rw [Nat.succ_mul] at hlt
    omega

/-- The rate is a multiple of 60 that is 0 for long intervals, and at most 59 below the rate with the
multiplication first (R163). -/
theorem rate_bounds {cfg : Config} {t m : Word} (h : rate cfg t = .next m) :
    m.toNat % 60 = 0 ∧ (cfg.fRef < t.toNat * 2 → m = 0) ∧
      m.toNat ≤ 60 * cfg.fRef / (t.toNat * 2) ∧ 60 * cfg.fRef / (t.toNat * 2) ≤ m.toNat + 59 := by
  obtain ⟨h0, -, hm⟩ := rate_eq_next.1 h
  have hpos : 0 < t.toNat * 2 := Nat.mul_pos (BitVec.toNat_pos_of_ne_zero h0) Nat.two_pos
  rw [hm]
  refine ⟨Nat.mul_mod_left _ _, fun hlong => ?_, div_mul_bounds cfg.fRef 60 hpos (by omega)⟩
  rw [Nat.div_eq_of_lt hlong, Nat.zero_mul] at hm
  exact BitVec.eq_of_toNat_eq hm

/-- The rate overflows only for a quotient, and so a reference frequency, that is large (R163). -/
theorem fRef_large_of_rate_overflow {cfg : Config} {t : Word}
    (h : rate cfg t = .fault (.arithOverflow .rate)) :
    71582789 ≤ cfg.fRef / (t.toNat * 2) ∧ 143165578 ≤ cfg.fRef := by
  obtain ⟨-, hf⟩ | ⟨-, -, hf⟩ | ⟨h0, -, hrate, -⟩ := rate_eq_fault.1 h
  · cases hf
  · cases hf
  · have hquot : 71582789 ≤ cfg.fRef / (t.toNat * 2) := by omega
    have hpos := BitVec.toNat_pos_of_ne_zero h0
    refine ⟨hquot, ?_⟩
    calc 143165578 = 71582789 * 2 := rfl
      _ ≤ cfg.fRef / (t.toNat * 2) * (t.toNat * 2) := Nat.mul_le_mul hquot (by omega)
      _ ≤ cfg.fRef := Nat.div_mul_le_self _ _

/-- Settles O20, clause by clause, from what the formula answers. -/
theorem rateFormula : Obligations.RateFormula := by
  intro cfg t
  refine ⟨fun h0 => rate_eq_fault.2 (.inl ⟨h0, rfl⟩),
    fun h0 h2 => rate_eq_fault.2 (.inr (.inl ⟨h0, h2.not_gt, rfl⟩)),
    fun h0 h2 hr => rate_eq_fault.2 (.inr (.inr ⟨h0, h2, hr.not_gt, rfl⟩)),
    fun h0 h2 hr => rate_eq_next.2 ⟨h0, h2, ?_⟩, fun m hm => rate_bounds hm,
    fun hf => rate_eq_next.2 ⟨by decide, by decide, ?_⟩, ?_, fun h => fRef_large_of_rate_overflow h⟩
  · rw [BitVec.toNat_ofNat, Nat.mod_eq_of_lt hr]
  · rw [hf]
    rfl
  · have hlarge : t ≠ 0 ∧ ¬ t.toNat * 2 < 2 ^ 32 ↔ 2 ^ 31 ≤ t.toNat := by
      constructor
      · omega
      · intro h
        refine ⟨?_, by omega⟩
        rintro rfl
        exact absurd h (by decide)
    rw [← hlarge, rate_eq_fault]
    simp

/-- Settles O21: 10000 / 200 is 50. -/
theorem rateWorkedValue : Obligations.RateWorkedValue := by
  intro cfg hf
  refine rate_eq_next.2 ⟨by decide, by decide, ?_⟩
  rw [hf]
  rfl

/-! ## The sampling period (R165) -/

/-- The conversion of an integer other than 0 is at least 1. -/
theorem le_mag_u2f {v : Word} (h : v ≠ 0) : 2 ^ 149 ≤ Fp.mag (Fp.u2f v) :=
  Fp.le_mag_round false Nat.one_pos (by omega) (Nat.mul_le_mul_right _ (BitVec.toNat_pos_of_ne_zero h))

/-- The reference frequency is a word other than 0 (R5). -/
theorem fRef_ne_zero (cfg : Config) : BitVec.ofNat 32 cfg.fRef ≠ 0 := by
  obtain ⟨-, -, hlo, hhi⟩ := cfg.gains
  have hval : (BitVec.ofNat 32 cfg.fRef).toNat = cfg.fRef :=
    (BitVec.toNat_ofNat _ _).trans (Nat.mod_eq_of_lt (by omega))
  intro h
  rw [h, BitVec.ofNat_eq_ofNat, BitVec.toNat_zero] at hval
  omega

/-- The divisor of the sampling period is not 0. -/
theorem mag_u2f_fRef_pos (cfg : Config) : 0 < Fp.mag (Fp.u2f (BitVec.ofNat 32 cfg.fRef)) :=
  (Nat.two_pow_pos 149).trans_le (le_mag_u2f (fRef_ne_zero cfg))

/-- The sampling period is the rounded quotient of the two conversions. -/
theorem period_eq_round (cfg : Config) (t : Word) :
    period cfg t =
      Fp.round false (Fp.mag (Fp.u2f t)) (Fp.mag (Fp.u2f (BitVec.ofNat 32 cfg.fRef))) := by
  rw [period, Fp.fdiv_finite (Fp.u2f_finite _).1 (Fp.u2f_finite _).1 (mag_u2f_fRef_pos cfg).ne']
  simp only [Fp.u2f, Fp.sign_round, bne_self_eq_false]

/-- A sampling period is a magnitude. -/
theorem value_period (cfg : Config) (t : Word) : Fp.value (period cfg t) = Fp.mag (period cfg t) := by
  rw [Fp.value, period_eq_round, Fp.sign_round]
  rfl

/-- The sampling period of an interval other than 0 is at least `2^-32`: the interval is at least 1, and
the reference frequency at most `2^32`. -/
theorem le_mag_period (cfg : Config) {t : Word} (h : t ≠ 0) : 2 ^ 117 ≤ Fp.mag (period cfg t) := by
  rw [period_eq_round]
  refine Fp.le_mag_round false (mag_u2f_fRef_pos cfg) (by omega) ?_
  calc Fp.mag (Fp.u2f (BitVec.ofNat 32 cfg.fRef)) * 2 ^ 117
      ≤ 2 ^ 181 * 2 ^ 117 := Nat.mul_le_mul_right _ (Fp.u2f_finite _).2
    _ = 2 ^ 149 * 2 ^ 149 := by rw [← pow_add, ← pow_add]
    _ ≤ Fp.mag (Fp.u2f t) * 2 ^ 149 := Nat.mul_le_mul_right _ (le_mag_u2f h)

/-- Settles O22: rounding keeps the bounds, which are powers of 2. -/
theorem samplingPeriodBounds : Obligations.SamplingPeriodBounds := by
  intro cfg t ht
  obtain ⟨hfin, hle⟩ := bounded_period cfg t
  rw [value_period]
  exact ⟨rfl, hfin, by exact_mod_cast le_mag_period cfg ht, by exact_mod_cast hle⟩

/-! ## The sequencer (R160) -/

/-- An `EDGE` that completes opens a window or closes it. -/
theorem Completes.running_of_edge {s t : State} (h : Completes s .edge t) : t.running = !s.running := by
  cases h with
  | opening idle => simp [idle, etOpen]
  | closing timing => simp [timing, closedState]

/-- Settles O25: `EDGE` turns `running` over, and no other command writes it. -/
theorem onlyEdgeMovesTheSequencer : Obligations.OnlyEdgeMovesTheSequencer := by
  intro i s t h
  have hc := exec_eq_next.1 h
  constructor
  · rintro rfl
    cases hr : s.running <;> simp [State.seqState, hc.running_of_edge, hr]
  · intro hi
    obtain ⟨hrun, -⟩ := hc.keeps_measurement hi
    rw [State.seqState, State.seqState, hrun]

/-! ## The target (R171) -/

/-- Settles O16: the word decodes to the command, which completes in every state; with a target of
`2^31` or more above the rate the error reaches `2^31`. -/
theorem settgtSetsTheTarget : Obligations.SettgtSetsTheTarget := by
  refine fun s val => ⟨decode_encode (i := .settgt val) rfl, rfl, fun m hm hfits => ?_⟩
  have hlt : (val.toNat : Int) - (m : Int) < 2 ^ 31 := hfits.2
  omega

/-! ## The stalled fan (R173) -/

/-- What holds of the record of every command of a run holds of every record of the run. -/
theorem runCommands_records {Q : OutRecord → Prop} {is : List Instr} {s t : State}
    {outs : List OutRecord} (hQ : ∀ i ∈ is, ∀ u v, Completes u i v → Q v.out)
    (h : runCommands is s = .next (t, outs)) : ∀ o ∈ outs, Q o := by
  induction is generalizing s outs with
  | nil =>
    obtain ⟨-, rfl⟩ := Prod.mk.inj (Host.Outcome.next.inj h)
    simp
  | cons i is ih =>
    obtain ⟨s1, outs', hi, hrest, rfl⟩ := runCommands_cons_eq_next.1 h
    obtain ⟨hQi, hQis⟩ := List.forall_mem_cons.1 hQ
    exact List.forall_mem_cons.2 ⟨hQi s s1 hi, ih hQis hrest⟩

/-- A command other than `EDGE` emits no `meas_ready` and does not write the sink (R45). -/
theorem Completes.silent {i : Instr} {s t : State} (h : Completes s i t) (hi : i ≠ .edge) :
    t.out.measReady = false ∧ t.out.pwm = none := by
  cases h <;> simp [filteredState, OutRecord.none] at hi ⊢

/-- A run without `EDGE` keeps the sequencer's state and what a closing edge computes. -/
theorem runCommands_keeps_measurement {is : List Instr} {s t : State} {outs : List OutRecord}
    (he : Instr.edge ∉ is) (h : runCommands is s = .next (t, outs)) :
    t.running = s.running ∧ t.elapsedTicks = s.elapsedTicks ∧ t.measuredRate = s.measuredRate ∧
      t.errorSum = s.errorSum ∧ t.output = s.output ∧ t.duty = s.duty := by
  induction is generalizing s outs with
  | nil =>
    obtain ⟨rfl, -⟩ := Prod.mk.inj (Host.Outcome.next.inj h)
    simp
  | cons i is ih =>
    obtain ⟨s1, outs', hi, hrest, -⟩ := runCommands_cons_eq_next.1 h
    obtain ⟨hne, he⟩ := List.ne_and_not_mem_of_not_mem_cons he
    have hfirst := hi.keeps_measurement hne.symm
    simpa only [hfirst] using ih he hrest

/-- A register of the ring or of the named ones shows a value (R41). -/
theorem exists_regView {reg : RegSel} {s : State} (h : reg.wellFormed s.cfg.n = true) :
    ∃ v, regView reg s = .next v := by
  cases reg with
  | rb i =>
    have hi : i.toNat < s.cfg.n := by simpa [RegSel.wellFormed] using h
    exact ⟨s.rb.read i.toNat, by simp only [regView, memRead, if_pos hi]⟩
  | _ => exact ⟨_, rfl⟩

/-- Ticks, targets, legal reads and `NOP` complete in every state. -/
theorem exists_completes {i : Instr} {s : State} (hwf : i.wellFormed s.cfg.n = true)
    (he : i ≠ .edge) (hf : isFilt i = false) : ∃ t, Completes s i t := by
  cases i with
  | nop => exact ⟨_, .nop⟩
  | edge => exact absurd rfl he
  | tick => exact ⟨_, .tick⟩
  | settgt val => exact ⟨_, .settgt⟩
  | filt val => cases hf
  | rd reg =>
    obtain ⟨v, hv⟩ := exists_regView hwf
    exact ⟨_, .rd hv⟩

/-- So do they one after another, since none writes the configuration. -/
theorem exists_runCommands {is : List Instr} {s : State}
    (h : ∀ i ∈ is, i.wellFormed s.cfg.n = true ∧ i ≠ .edge ∧ isFilt i = false) :
    ∃ t outs, runCommands is s = .next (t, outs) := by
  induction is generalizing s with
  | nil => exact ⟨s, [], rfl⟩
  | cons i is ih =>
    obtain ⟨⟨hwf, he, hf⟩, his⟩ := List.forall_mem_cons.1 h
    obtain ⟨s1, hs1⟩ := exists_completes hwf he hf
    obtain ⟨t, outs, hrun⟩ := ih (hs1.keeps_cfg.symm ▸ his)
    exact ⟨t, _, runCommands_cons_eq_next.2 ⟨s1, outs, hs1, hrun, rfl⟩⟩

/-- Settles O26: a run without `EDGE` keeps the registers and is silent, and nothing in it faults. -/
theorem stalledFanHoldsItsState : Obligations.StalledFanHoldsItsState := by
  refine ⟨fun is s t outs he h => ?_, fun is s h => ?_⟩
  · obtain ⟨hrun, helapsed, hmeasured, hsum, hout, hduty⟩ := runCommands_keeps_measurement he h
    refine ⟨hrun, hmeasured, helapsed, hsum, hout, hduty, runCommands_records ?_ h⟩
    exact fun i hi u v hc => hc.silent fun hedge => he (hedge ▸ hi)
  · obtain ⟨t, outs, hrun⟩ := exists_runCommands h
    exact ⟨(t, outs), hrun⟩

end Sys2Proof.Machine
end

section
/-! PROOFS. Unit MF (spec/43_median_filter.md): the raw median of a ring (rules R182, R187), one smoothing step (rules R184, R186), and what `FILT` gives, when it overflows and what bounds it keeps (rules R180, R184). -/

namespace Sys2Proof.Machine

open Sys2Proof.Safety

/-! ## The raw median (R182) -/

/-- `sort_asc` gives the only rearrangement in non-decreasing order (R182). -/
theorem eq_sortAsc_of_perm {l ring : List Word} (hp : l.Perm ring)
    (hs : l.Pairwise (fun a b => a.toNat ≤ b.toNat)) : l = sortAsc ring := by
  have hsorted : (sortAsc ring).Pairwise (fun a b : Word => a.toNat ≤ b.toNat) :=
    List.pairwise_insertionSort _ ring
  refine (hp.trans (List.perm_insertionSort _ ring).symm).eq_of_pairwise ?_ hs hsorted
  exact fun a b _ _ hab hba => BitVec.eq_of_toNat_eq (Nat.le_antisymm hab hba)

/-- The raw median is an element of the sorted copy (R182). -/
theorem getElem?_sortAsc {n : Nat} {m : Memory} (hn : 0 < n) :
    (sortAsc (m.slots n))[n / 2]? = some (rawMedian n m) := by
  have hlen : n / 2 < (sortAsc (m.slots n)).length := by
    rw [sortAsc, List.length_insertionSort, Memory.length_slots]
    omega
  rw [rawMedian, List.getD_eq_getElem _ _ hlen, List.getElem?_eq_getElem hlen]

/-- The slots fall into those sorted below the raw median, the raw median and those sorted above it
(R182). -/
theorem exists_split_at_rawMedian {n : Nat} (m : Memory) (hn : 0 < n) :
    ∃ below above : List Word, (m.slots n).Perm (below ++ rawMedian n m :: above) ∧
      below.length = n / 2 ∧ above.length ≤ n / 2 ∧
      (∀ x ∈ below, x.toNat ≤ (rawMedian n m).toNat) ∧
      ∀ x ∈ above, (rawMedian n m).toNat ≤ x.toNat := by
  obtain ⟨hk, hmid⟩ := List.getElem?_eq_some_iff.1 (getElem?_sortAsc (m := m) hn)
  have hlen : (sortAsc (m.slots n)).length = n := by
    rw [sortAsc, List.length_insertionSort, Memory.length_slots]
  have hsplit : (sortAsc (m.slots n)).take (n / 2) ++ rawMedian n m ::
      (sortAsc (m.slots n)).drop (n / 2 + 1) = sortAsc (m.slots n) := by
    rw [← hmid, List.getElem_cons_drop, List.take_append_drop]
  have hsorted : (sortAsc (m.slots n)).Pairwise (fun a b : Word => a.toNat ≤ b.toNat) :=
    List.pairwise_insertionSort _ _
  rw [← hsplit, List.pairwise_append, List.pairwise_cons] at hsorted
  obtain ⟨-, ⟨habove, -⟩, hbelow⟩ := hsorted
  refine ⟨_, _, ?_, ?_, ?_, fun x hx => hbelow x hx _ List.mem_cons_self, habove⟩
  · rw [hsplit]
    exact (List.perm_insertionSort _ _).symm
  · rw [List.length_take, hlen]
    omega
  · rw [List.length_drop, hlen]
    omega

/-- The raw median is a value of the ring (R182). -/
theorem rawMedian_mem_slots {n : Nat} (m : Memory) (hn : 0 < n) : rawMedian n m ∈ m.slots n := by
  obtain ⟨below, above, hperm, -⟩ := exists_split_at_rawMedian m hn
  exact hperm.mem_iff.2 (by simp)

/-- At most `udiv(N, 2)` slots hold less than the raw median (R182). -/
theorem countP_lt_rawMedian_le {n : Nat} (m : Memory) (hn : 0 < n) :
    (m.slots n).countP (fun x => decide (x.toNat < (rawMedian n m).toNat)) ≤ n / 2 := by
  obtain ⟨below, above, hperm, hlen, -, -, habove⟩ := exists_split_at_rawMedian m hn
  have hzero : above.countP (fun x => decide (x.toNat < (rawMedian n m).toNat)) = 0 :=
    List.countP_eq_zero.2 fun x hx => by simpa using habove x hx
  rw [hperm.countP_eq, List.countP_append, List.countP_cons_of_neg (by simp), hzero, ← hlen]
  exact List.countP_le_length

/-- At most `udiv(N, 2)` slots hold more than the raw median (R182). -/
theorem countP_rawMedian_lt_le {n : Nat} (m : Memory) (hn : 0 < n) :
    (m.slots n).countP (fun x => decide ((rawMedian n m).toNat < x.toNat)) ≤ n / 2 := by
  obtain ⟨below, above, hperm, -, hlen, hbelow, -⟩ := exists_split_at_rawMedian m hn
  have hzero : below.countP (fun x => decide ((rawMedian n m).toNat < x.toNat)) = 0 :=
    List.countP_eq_zero.2 fun x hx => by simpa using hbelow x hx
  rw [hperm.countP_eq, List.countP_append, List.countP_cons_of_neg (by simp), hzero, Nat.zero_add]
  exact List.countP_le_length.trans hlen

/-- If more than half of the slots meet a property, some word that meets it is at most the raw
median (R187). -/
theorem exists_le_rawMedian {n : Nat} {m : Memory} {p : Word → Bool}
    (h : n / 2 < (m.slots n).countP p) : ∃ x, p x = true ∧ x.toNat ≤ (rawMedian n m).toNat := by
  have hn : 0 < n := Nat.pos_of_ne_zero (by rintro rfl; simp [Memory.slots] at h)
  by_contra! hlt
  have hle := List.countP_mono_left (l := m.slots n) (p := p)
    (q := fun x => decide ((rawMedian n m).toNat < x.toNat)) fun x _ hx => by simpa using hlt x hx
  have := countP_rawMedian_lt_le m hn
  omega

/-- If more than half of the slots meet a property, some word that meets it is at least the raw
median (R187). -/
theorem exists_rawMedian_le {n : Nat} {m : Memory} {p : Word → Bool}
    (h : n / 2 < (m.slots n).countP p) : ∃ x, p x = true ∧ (rawMedian n m).toNat ≤ x.toNat := by
  have hn : 0 < n := Nat.pos_of_ne_zero (by rintro rfl; simp [Memory.slots] at h)
  by_contra! hlt
  have hle := List.countP_mono_left (l := m.slots n) (p := p)
    (q := fun x => decide (x.toNat < (rawMedian n m).toNat)) fun x _ hx => by simpa using hlt x hx
  have := countP_lt_rawMedian_le m hn
  omega

/-- Settles O39: a word of the range is at most the raw median, and one is at least it. -/
theorem outlierRejection : Obligations.OutlierRejection := by
  intro n m lo hi h
  obtain ⟨x, hx, hxm⟩ := exists_le_rawMedian h
  obtain ⟨y, hy, hmy⟩ := exists_rawMedian_le h
  obtain ⟨hlo, -⟩ := of_decide_eq_true hx
  obtain ⟨-, hhi⟩ := of_decide_eq_true hy
  exact ⟨hlo.trans hxm, hmy.trans hhi⟩

/-- In a ring of an odd number of slots a value with at most half of them less and at most half of them
greater is the raw median (R182). -/
theorem eq_rawMedian_of_countP_le {n : Nat} {m : Memory} {v : Word} (hodd : n % 2 = 1)
    (hless : (m.slots n).countP (fun x => decide (x.toNat < v.toNat)) ≤ n / 2)
    (hgreater : (m.slots n).countP (fun x => decide (v.toNat < x.toNat)) ≤ n / 2) :
    v = rawMedian n m := by
  have hmost : ∀ p : Word → Bool, (m.slots n).countP p ≤ n / 2 →
      n / 2 < (m.slots n).countP fun x => !p x := by
    intro p hp
    have hsum := List.length_eq_countP_add_countP p (l := m.slots n)
    simp only [Memory.length_slots, Bool.not_eq_true, Bool.decide_eq_false] at hsum
    omega
  obtain ⟨x, hx, hxm⟩ := exists_le_rawMedian (hmost _ hless)
  obtain ⟨y, hy, hmy⟩ := exists_rawMedian_le (hmost _ hgreater)
  simp only [Bool.not_eq_true', decide_eq_false_iff_not] at hx hy
  exact BitVec.eq_of_toNat_eq (by omega)

/-! ## One smoothing step (R184, R186) -/

/-- A smoothing sum that fits gives its truncated quotient by 5 (R184). -/
theorem smooth_of_lt {last median : Word} (h : 4 * last.toNat + median.toNat < 2 ^ 32) :
    smooth last median = .next (BitVec.ofNat 32 ((4 * last.toNat + median.toNat) / 5)) :=
  smooth_eq_next.2 ⟨h, (BitVec.toNat_ofNat _ _).trans (Nat.mod_eq_of_lt (by omega))⟩

/-- The one fault of the smoothing (R184). -/
theorem smooth_eq_fault {last median : Word} {f : Fault} :
    smooth last median = .fault f ↔
      ¬ 4 * last.toNat + median.toNat < 2 ^ 32 ∧ f = .arithOverflow .smooth := by
  simp [smooth, andThen_eq_fault, checkU32_eq_fault]

/-- Values of at most `udiv(2^32 - 1, 5)` can be smoothed (R184). -/
theorem smooth_fits {last median : Word} (hl : last.toNat ≤ 858993459) (hm : median.toNat ≤ 858993459) :
    4 * last.toNat + median.toNat < 2 ^ 32 := by
  omega

/-- Settles O40: on a constant median a step moves by the truncated fifth of the distance. -/
theorem smoothingFixedPoints : Obligations.SmoothingFixedPoints := by
  intro last v hl hv
  have hstep := smooth_of_lt (smooth_fits hl hv)
  obtain ⟨-, hafter⟩ := smooth_eq_next.1 hstep
  refine ⟨_, hstep, ?_, ?_, ?_⟩
  · omega
  · rw [← BitVec.toNat_inj]
    omega
  · omega

/-! ## `FILT` (R180, R184) -/

/-- Settles O35: the sum fits, so the command completes in the filtered state. -/
theorem filtResult : Obligations.FiltResult :=
  fun _ _ hp hsum => exec_eq_next.2 (.filt hp (smooth_of_lt hsum))

/-- The new smoothed value is that of the raw median of the ring after the write (R184). -/
theorem Completes.lastMedian_of_filt {val : Word} {s t : State} (h : Completes s (.filt val) t) :
    t.lastMedian.toNat = (4 * s.lastMedian.toNat + (rawMedian s.cfg.n t.rb).toNat) / 5 := by
  cases h with
  | filt position hsmooth => exact (smooth_eq_next.1 hsmooth).2

/-- `FILT` returns the new smoothed value (R184). -/
theorem Completes.res_of_filt {val : Word} {s t : State} (h : Completes s (.filt val) t) :
    t.out.res = some t.lastMedian := by
  cases h with
  | filt => rfl

/-- Settles O37: the sorted rearrangement is unique, the counts single out the raw median, and a completed
`FILT` writes one slot. -/
theorem rawMedianIsTheMiddle : Obligations.RawMedianIsTheMiddle := by
  refine ⟨fun n m hodd => ?_, fun s t val hc h => ?_⟩
  · have hn : 0 < n := by omega
    refine ⟨fun l hp hs => eq_sortAsc_of_perm hp hs ▸ getElem?_sortAsc hn, fun v => ⟨?_, ?_⟩⟩
    · rintro rfl
      exact ⟨rawMedian_mem_slots m hn, countP_lt_rawMedian_le m hn, countP_rawMedian_lt_le m hn⟩
    · rintro ⟨-, hless, hgreater⟩
      exact eq_rawMedian_of_countP_le hodd hless hgreater
  · have hcompletes := exec_eq_next.1 h
    exact ⟨hcompletes.res_of_filt, hcompletes.lastMedian_of_filt, hcompletes.read_of_filt hc⟩

/-- The smoothed value and every slot of the ring are at most `b` (R184). -/
structure FilterWithin (b : Nat) (s : State) : Prop where
  last : s.lastMedian.toNat ≤ b
  slots : ∀ j < s.cfg.n, (s.rb.read j).toNat ≤ b

theorem filterWithin_launch (b : Nat) (cfg : Config) : FilterWithin b (launch cfg []) :=
  ⟨Nat.zero_le b, fun _ _ => Nat.zero_le b⟩

/-- A bound of the slots bounds the raw median (R182). -/
theorem rawMedian_le {n b : Nat} {m : Memory} (hn : 0 < n) (h : ∀ j < n, (m.read j).toNat ≤ b) :
    (rawMedian n m).toNat ≤ b := by
  obtain ⟨j, hj, hread⟩ := Memory.mem_slots.1 (rawMedian_mem_slots m hn)
  exact hread ▸ h j hj

/-- A sample within the bound leaves the slots within it. -/
theorem FilterWithin.slots_write {b : Nat} {s : State} {val : Word} (hs : FilterWithin b s)
    (hc : s.rb.wf = true) (hval : val.toNat ≤ b) :
    ∀ j < s.cfg.n, ((s.rb.write s.writePos.toNat val).read j).toNat ≤ b := by
  intro j hj
  rw [Memory.read_write hc]
  split
  · exact hval
  · exact hs.slots j hj

/-- A sample within the bound leaves the raw median within it (R182). -/
theorem FilterWithin.rawMedian_write {b : Nat} {s : State} {val : Word} (hs : FilterWithin b s)
    (hc : s.rb.wf = true) (hval : val.toNat ≤ b) :
    (rawMedian s.cfg.n (s.rb.write s.writePos.toNat val)).toNat ≤ b :=
  rawMedian_le s.cfg.bounds.1 (hs.slots_write hc hval)

/-- A sample of at most `udiv(2^32 - 1, 5)` is taken while the bound is no larger (R184). -/
theorem FilterWithin.exists_completes {b : Nat} {s : State} {val : Word} (hs : FilterWithin b s)
    (hinv : Inv s) (hval : val.toNat ≤ b) (hb : b ≤ 858993459) : ∃ t, Completes s (.filt val) t :=
  ⟨_, .filt hinv.position (smooth_of_lt (smooth_fits (hs.last.trans hb)
    ((hs.rawMedian_write hinv.canonical hval).trans hb)))⟩

/-- Commands keep the bound while the samples are within it: smoothing is at most the larger of its
operands (R184). -/
theorem Completes.keeps_filterWithin {b : Nat} {i : Instr} {s t : State} (h : Completes s i t)
    (hc : s.rb.wf = true) (hi : ∀ val, i = .filt val → val.toNat ≤ b) (hs : FilterWithin b s) :
    FilterWithin b t := by
  cases h with
  | @filt val v _ hsmooth =>
    have hval := hi val rfl
    obtain ⟨-, hv⟩ := smooth_eq_next.1 hsmooth
    have hm := hs.rawMedian_write hc hval
    have hl := hs.last
    exact ⟨show v.toNat ≤ b by omega, hs.slots_write hc hval⟩
  | _ => exact ⟨hs.last, hs.slots⟩

/-- With all samples within the bound a run from reset stays within it. -/
theorem filterWithin_of_runCommands {b : Nat} {cfg : Config} {is : List Instr} {t : State}
    {outs : List OutRecord} (his : ∀ val, .filt val ∈ is → val.toNat ≤ b)
    (h : runCommands is (launch cfg []) = .next (t, outs)) : Reached cfg is t ∧ FilterWithin b t := by
  have hstep : ∀ past i s t, (Reached cfg past s ∧
      ((∀ val, .filt val ∈ past → val.toNat ≤ b) → FilterWithin b s)) → Completes s i t →
      Reached cfg (past ++ [i]) t ∧
        ((∀ val, .filt val ∈ past ++ [i] → val.toNat ≤ b) → FilterWithin b t) := by
    rintro past i s t ⟨hreached, hs⟩ hi
    refine ⟨hi.keeps_reached hreached, fun hpast => hi.keeps_filterWithin hreached.inv.canonical ?_ ?_⟩
    · exact fun val hval => hpast val (by simp [hval])
    · exact hs fun val hval => hpast val (List.mem_append_left _ hval)
  obtain ⟨hreached, ht⟩ := runCommands_keeps (past := []) hstep
    ⟨reached_launch cfg, fun _ => filterWithin_launch b cfg⟩ h
  exact ⟨hreached, ht his⟩

/-- A run faults where one of its commands does, after the ones before it have completed. -/
theorem exists_fault_of_runCommands {is : List Instr} {s : State} {f : Fault}
    (h : runCommands is s = .fault f) : ∃ past i rest t outs, is = past ++ i :: rest ∧
      runCommands past s = .next (t, outs) ∧ exec i t = .fault f := by
  induction is generalizing s with
  | nil => cases h
  | cons i is ih =>
    rcases andThen_eq_fault.1 h with hi | ⟨s1, hi, h⟩
    · exact ⟨[], i, is, s, [], rfl, rfl, hi⟩
    · obtain hrest | ⟨_, -, h⟩ := andThen_eq_fault.1 h
      · obtain ⟨past, j, rest, t, outs, rfl, hpast, hj⟩ := ih hrest
        exact ⟨i :: past, j, rest, t, _, rfl,
          runCommands_cons_eq_next.2 ⟨s1, outs, exec_eq_next.1 hi, hpast, rfl⟩, hj⟩
      · cases h

/-- What `pi_update` can raise (R141, R142). -/
theorem mem_of_piUpdate_eq_fault {ta : Word} {s : State} {f : Fault} (h : piUpdate ta s = .fault f) :
    f ∈ [Fault.arithOverflow .error, .arithOverflow .errorSum, .fpInvalid] := by
  rcases andThen_eq_fault.1 h with h | ⟨error, -, h⟩
  · simp [(checkS32_eq_fault.1 h).2]
  rcases andThen_eq_fault.1 h with h | ⟨sum1, -, h⟩
  · simp [(checkS32_eq_fault.1 h).2]
  · split at h <;> cases h
    simp

/-- What a closing edge can raise (R161, R213). -/
theorem mem_of_closeWindow_eq_fault {s : State} {f : Fault} (h : closeWindow s = .fault f) :
    f ∈ [Fault.counterWrap, .divideByZero, .arithOverflow .ticksTwice, .arithOverflow .rate,
      .arithOverflow .error, .arithOverflow .errorSum, .fpInvalid] := by
  rcases andThen_eq_fault.1 h with h | ⟨s1, -, h⟩
  · unfold etClose raise at h
    split at h <;> cases h
    simp
  rcases andThen_eq_fault.1 h with h | ⟨m, -, h⟩
  · rcases rate_eq_fault.1 h with ⟨-, rfl⟩ | ⟨-, -, rfl⟩ | ⟨-, -, -, rfl⟩ <;> simp
  rcases andThen_eq_fault.1 h with h | ⟨s2, -, h⟩
  · have := mem_of_piUpdate_eq_fault h
    simp only [List.mem_cons] at this ⊢
    tauto
  · unfold forwardDuty at h
    split at h <;> cases h

/-- Only `FILT` raises `ArithOverflow("smooth")`, when the smoothing sum is no `u32` (R184, R209). -/
theorem exists_filt_of_smooth_fault {i : Instr} {s : State}
    (h : exec i s = .fault (.arithOverflow .smooth)) : ∃ val, i = .filt val ∧
      ¬ 4 * s.lastMedian.toNat + (rawMedian s.cfg.n (s.rb.write s.writePos.toNat val)).toNat < 2 ^ 32 := by
  cases i with
  | nop => cases h
  | edge =>
    cases hr : s.running with
    | false => cases (execEdge_of_idle hr).symm.trans h
    | true =>
      rw [exec, execEdge, if_pos hr] at h
      simpa using mem_of_closeWindow_eq_fault h
  | tick => cases (execTick_eq s).symm.trans h
  | settgt val => cases h
  | filt val => exact ⟨val, rfl, (smooth_eq_fault.1 (execFilt_eq_fault.1 h).2).1⟩
  | rd reg =>
    have hview := execRd_eq_fault.1 h
    cases reg with
    | rb j => by_cases hj : j.toNat < s.cfg.n <;> simp [regView, memRead, raise, hj] at hview
    | _ => cases hview

/-- No run from reset overflows the smoothing sum while its samples are at most `udiv(2^32 - 1, 5)`
(R184). -/
theorem runCommands_ne_smooth_fault {cfg : Config} {is : List Instr}
    (his : ∀ val, .filt val ∈ is → val.toNat ≤ 858993459) :
    runCommands is (launch cfg []) ≠ .fault (.arithOverflow .smooth) := by
  intro h
  obtain ⟨past, i, rest, t, outs, rfl, hpast, hi⟩ := exists_fault_of_runCommands h
  obtain ⟨val, rfl, hsum⟩ := exists_filt_of_smooth_fault hi
  obtain ⟨hreached, ht⟩ := filterWithin_of_runCommands
    (fun w hw => his w (List.mem_append_left _ hw)) hpast
  have hm := ht.rawMedian_write hreached.inv.canonical (his val (by simp))
  exact hsum (smooth_fits ht.last hm)

/-- Settles O36: the sum decides whether `FILT` completes, and a run from reset keeps the bound of its
samples. -/
theorem smoothingFormula : Obligations.SmoothingFormula := by
  refine ⟨fun s val hp => ⟨fun hsum => ?_, fun hsum => ?_, fun hl hm => ?_⟩, fun cfg is his =>
    ⟨runCommands_ne_smooth_fault his, fun ⟨t, outs⟩ hrun => ?_⟩⟩
  · exact execFilt_eq_fault.2 ⟨hp, smooth_eq_fault.2 ⟨hsum.not_gt, rfl⟩⟩
  · have hsmooth := smooth_of_lt hsum
    obtain ⟨-, hv⟩ := smooth_eq_next.1 hsmooth
    exact ⟨_, exec_eq_next.2 (.filt hp hsmooth), hv, rfl, hv.trans_le (by omega)⟩
  · exact ⟨_, exec_eq_next.2 (.filt hp (smooth_of_lt (smooth_fits hl hm)))⟩
  · obtain ⟨⟨rfl, -, -⟩, ht⟩ := filterWithin_of_runCommands his hrun
    exact ⟨ht.last, rawMedian_le t.cfg.bounds.1 ht.slots⟩

end Sys2Proof.Machine
end

section
/-! PROOFS. Unit MF over runs (spec/43_median_filter.md): the ring as the history of the last samples (rule R181), and constant input from reset (rule R186). -/

namespace Sys2Proof.Machine

open Sys2Proof.Safety

/-! ## The history of the samples (R181) -/

/-- The sample given `j` calls before the last one: the slot `j` places behind the one last written. -/
def State.recent (s : State) (j : Nat) : Word :=
  s.rb.read ((s.writePos.toNat + s.cfg.n - 1 - j) % s.cfg.n)

/-- The slots behind `writePos` go down to 0 and on from `N - 1`. -/
theorem State.recent_eq {s : State} {j : Nat} (hp : s.writePos.toNat < s.cfg.n) (hj : j < s.cfg.n) :
    s.recent j = s.rb.read (if j < s.writePos.toNat then s.writePos.toNat - 1 - j
      else s.writePos.toNat + s.cfg.n - 1 - j) := by
  unfold State.recent
  split
  · rw [show s.writePos.toNat + s.cfg.n - 1 - j = s.writePos.toNat - 1 - j + s.cfg.n by omega,
      Nat.add_mod_right, Nat.mod_eq_of_lt (by omega)]
  · rw [Nat.mod_eq_of_lt (by omega)]

/-- Every slot holds one of the last `N` samples. -/
theorem State.exists_recent {s : State} {i : Nat} (hp : s.writePos.toNat < s.cfg.n) (hi : i < s.cfg.n) :
    ∃ j < s.cfg.n, s.recent j = s.rb.read i := by
  by_cases h : i < s.writePos.toNat
  · refine ⟨s.writePos.toNat - 1 - i, by omega, ?_⟩
    rw [State.recent_eq hp (by omega), if_pos (by omega)]
    congr 1
    omega
  · refine ⟨s.writePos.toNat + s.cfg.n - 1 - i, by omega, ?_⟩
    rw [State.recent_eq hp (by omega), if_neg (by omega)]
    congr 1
    omega

/-- `FILT` uses a slot of the ring and goes on to the next, from the last to the first (R181). -/
theorem Completes.position_of_filt {val : Word} {s t : State} (h : Completes s (.filt val) t) :
    s.writePos.toNat < s.cfg.n ∧ t.writePos.toNat = (s.writePos.toNat + 1) % s.cfg.n := by
  obtain ⟨hpos, hle, -⟩ := s.cfg.bounds
  cases h with
  | filt position =>
    have hlt := Nat.mod_lt (s.writePos.toNat + 1) hpos
    exact ⟨position, (BitVec.toNat_ofNat _ _).trans (Nat.mod_eq_of_lt (by omega))⟩

/-- One more slot, from the last to the first. -/
theorem succ_mod_eq {w n : Nat} (h : w < n) : (w + 1) % n = if w = n - 1 then 0 else w + 1 := by
  split
  · rw [show w + 1 = n by omega, Nat.mod_self]
  · exact Nat.mod_eq_of_lt (by omega)

/-- `FILT` makes its sample the last one and each sample one call older (R181). -/
theorem Completes.recent_of_filt {val : Word} {s t : State} (h : Completes s (.filt val) t)
    (hc : s.rb.wf = true) {j : Nat} (hj : j < s.cfg.n) :
    t.recent j = if j = 0 then val else s.recent (j - 1) := by
  obtain ⟨hp, hpos⟩ := h.position_of_filt
  have hpt := h.keeps_position hp
  rw [succ_mod_eq hp] at hpos
  rw [h.keeps_cfg] at hpt
  rw [State.recent_eq (h.keeps_cfg ▸ hpt) (h.keeps_cfg ▸ hj), h.read_of_filt hc, h.keeps_cfg]
  by_cases h0 : j = 0
  · rw [if_pos h0, if_pos]
    split_ifs at hpos ⊢ <;> omega
  · rw [if_neg h0, if_neg (by split_ifs at hpos ⊢ <;> omega), State.recent_eq hp (by omega)]
    congr 1
    split_ifs at hpos ⊢ <;> omega

/-- After a run of samples these are the last ones, and the older ones come before them (R181). -/
theorem recent_of_runCommands {vals : List Word} {s t : State} {outs : List OutRecord}
    (hc : s.rb.wf = true) (h : runCommands (vals.map .filt) s = .next (t, outs)) {j : Nat}
    (hj : j < s.cfg.n) : t.recent j = vals.reverse[j]?.getD (s.recent (j - vals.length)) := by
  induction vals generalizing s outs with
  | nil =>
    obtain ⟨rfl, -⟩ := Prod.mk.inj (Host.Outcome.next.inj h)
    rfl
  | cons val vals ih =>
    obtain ⟨s1, outs', hi, hrest, -⟩ := runCommands_cons_eq_next.1 h
    have hc1 : s1.rb.wf = true := by
      cases hi with
      | filt => exact Memory.write_wf hc _ _
    rw [ih hc1 hrest (hi.keeps_cfg ▸ hj), hi.recent_of_filt hc (by omega), List.reverse_cons]
    rcases lt_trichotomy j vals.length with hlt | rfl | hgt
    · simp [List.getElem?_append_left, hlt]
    · simp
    · rw [List.getElem?_eq_none (by simpa using hgt.le), List.getElem?_eq_none (by simpa using hgt),
        Option.getD_none, Option.getD_none, if_neg (by omega), Nat.sub_sub, List.length_cons]

/-- After a run of samples `writePos` has advanced by their number (R181). -/
theorem position_of_runCommands {vals : List Word} {s t : State} {outs : List OutRecord}
    (hp : s.writePos.toNat < s.cfg.n) (h : runCommands (vals.map .filt) s = .next (t, outs)) :
    t.writePos.toNat = (s.writePos.toNat + vals.length) % s.cfg.n := by
  induction vals generalizing s outs with
  | nil =>
    obtain ⟨rfl, -⟩ := Prod.mk.inj (Host.Outcome.next.inj h)
    exact (Nat.mod_eq_of_lt hp).symm
  | cons val vals ih =>
    obtain ⟨s1, outs', hi, hrest, -⟩ := runCommands_cons_eq_next.1 h
    rw [ih (hi.keeps_position hp) hrest, hi.position_of_filt.2, hi.keeps_cfg, Nat.mod_add_mod,
      List.length_cons, Nat.add_assoc, Nat.add_comm 1]

/-- Settles O38: one insertion, `N` of them, and the history of a run from reset. -/
theorem insertionIntoTheRing : Obligations.InsertionIntoTheRing := by
  refine ⟨fun s t val hc h => ?_, fun s t vals outs hc hlen h => ?_, fun cfg t vals outs h j hj => ?_⟩
  · have hcompletes := exec_eq_next.1 h
    obtain ⟨hp, hpos⟩ := hcompletes.position_of_filt
    exact ⟨(hcompletes.read_of_filt hc _).trans (if_pos rfl),
      fun j hj => (hcompletes.read_of_filt hc j).trans (if_neg hj), hpos.trans (succ_mod_eq hp)⟩
  · have hp : s.writePos.toNat < s.cfg.n := by
      cases vals with
      | nil => exact absurd hlen s.cfg.bounds.1.ne
      | cons val vals =>
        obtain ⟨_, _, hi, -⟩ := runCommands_cons_eq_next.1 h
        exact hi.position_of_filt.1
    have hpos : t.writePos.toNat = s.writePos.toNat := by
      rw [position_of_runCommands hp h, hlen, Nat.add_mod_right, Nat.mod_eq_of_lt hp]
    refine ⟨BitVec.eq_of_toNat_eq hpos, fun k hk => ?_⟩
    have hrecent := recent_of_runCommands hc h (j := s.cfg.n - 1 - k) (by omega)
    rwa [State.recent, hpos, runCommands_keeps_cfg h, List.getElem?_reverse (by omega),
      show s.writePos.toNat + s.cfg.n - 1 - (s.cfg.n - 1 - k) = s.writePos.toNat + k by omega,
      show vals.length - 1 - (s.cfg.n - 1 - k) = k by omega, List.getElem?_eq_getElem hk,
      Option.getD_some] at hrecent
  · have hcfg : t.cfg = cfg := runCommands_keeps_cfg h
    have hpos : t.writePos.toNat = (0 + vals.length) % cfg.n :=
      position_of_runCommands (inv_launch cfg []).position h
    have hrecent := recent_of_runCommands (inv_launch cfg []).canonical h hj
    rw [State.recent, hcfg, hpos, Nat.zero_add, Nat.add_sub_assoc (by omega),
      Nat.add_sub_assoc (by omega), Nat.mod_add_mod] at hrecent
    rw [Nat.add_sub_assoc (by omega), Nat.add_sub_assoc (by omega), List.getD_eq_getElem?_getD]
    exact hrecent

/-! ## Constant input (R186) -/

/-- The state after `k` samples `v` from reset: nothing is above `v`, the last `k` samples are `v`, and once
the ring is full of `v` each call raises the smoothed value, up to `v - 4` (R186). -/
structure Settling (v : Word) (k : Nat) (s : State) : Prop where
  inv : Inv s
  within : FilterWithin v.toNat s
  recent : ∀ j < s.cfg.n, j < k → s.recent j = v
  below : s.lastMedian.toNat ≤ v.toNat - 4
  risen : k ≤ s.cfg.n + s.lastMedian.toNat ∨ v.toNat - 4 ≤ s.lastMedian.toNat

theorem settling_launch (v : Word) (cfg : Config) : Settling v 0 (launch cfg []) :=
  ⟨inv_launch cfg [], filterWithin_launch _ cfg, fun _ _ h => absurd h (Nat.not_lt_zero _),
    Nat.zero_le _, .inl (Nat.zero_le _)⟩

/-- Once the last `N` samples are `v`, so is the raw median (R186). -/
theorem rawMedian_of_recent {v : Word} {s : State} (hp : s.writePos.toNat < s.cfg.n)
    (h : ∀ j < s.cfg.n, s.recent j = v) : rawMedian s.cfg.n s.rb = v := by
  obtain ⟨i, hi, hread⟩ := Memory.mem_slots.1 (rawMedian_mem_slots s.rb s.cfg.bounds.1)
  obtain ⟨j, hj, hrecent⟩ := s.exists_recent hp hi
  rw [← hread, ← hrecent, h j hj]

/-- One more sample `v` settles further. -/
theorem Completes.keeps_settling {v : Word} {k : Nat} {s t : State} (h : Completes s (.filt v) t)
    (hs : Settling v k s) : Settling v (k + 1) t := by
  obtain ⟨hinv, hwithin, hrecent, hbelow, hrisen⟩ := hs
  have hinv' := h.keeps_inv hinv
  have hwithin' := h.keeps_filterWithin hinv.canonical
    (fun val hval => (Instr.filt.inj hval) ▸ le_rfl) hwithin
  have hrecent' : ∀ j < t.cfg.n, j < k + 1 → t.recent j = v := by
    intro j hj hjk
    rw [h.keeps_cfg] at hj
    rw [h.recent_of_filt hinv.canonical hj]
    split
    · rfl
    · exact hrecent _ (by omega) (by omega)
  have hlast := h.lastMedian_of_filt
  rw [← h.keeps_cfg] at hlast hrisen
  have hmedian := rawMedian_le t.cfg.bounds.1 hwithin'.slots
  refine ⟨hinv', hwithin', hrecent', by omega, ?_⟩
  by_cases hk : k + 1 ≤ t.cfg.n
  · exact .inl (by omega)
  · have hfull := rawMedian_of_recent hinv'.position fun j hj => hrecent' j hj (by omega)
    rw [hfull] at hlast
    omega

/-- Any number of samples `v` completes. -/
theorem Settling.run {v : Word} {j : Nat} {s : State} (hs : Settling v j s) (hv : v.toNat ≤ 858993459)
    (k : Nat) : ∃ t outs, runCommands (List.replicate k (.filt v)) s = .next (t, outs) ∧
      Settling v (j + k) t := by
  induction k generalizing j s with
  | zero => exact ⟨s, [], rfl, hs⟩
  | succ k ih =>
    obtain ⟨s1, h1⟩ := hs.within.exists_completes hs.inv le_rfl hv
    obtain ⟨t, outs, hrun, ht⟩ := ih (h1.keeps_settling hs)
    refine ⟨t, _, runCommands_cons_eq_next.2 ⟨s1, outs, h1, hrun, rfl⟩, ?_⟩
    rwa [Nat.add_comm k, ← Nat.add_assoc]

/-- Settles O41: the ring is full after `N` samples, and `v` more calls raise the smoothed value to
`v - 4`. -/
theorem constantInputSettles : Obligations.ConstantInputSettles := by
  refine fun cfg v hv => ⟨cfg.n + v.toNat, fun k hk => ?_⟩
  obtain ⟨t, outs, hrun, ht⟩ := (settling_launch v cfg).run hv k
  have hcfg : t.cfg = cfg := runCommands_keeps_cfg hrun
  have hlast : t.lastMedian.toNat = v.toNat - 4 := by
    have hbelow := ht.below
    have hrisen := ht.risen
    rw [hcfg] at hrisen
    omega
  exact ⟨(t, outs), hrun, hlast⟩

end Sys2Proof.Machine
end

section
/-! PROOFS. Host access (spec/44_host_access.md): when `RD` completes and when it faults (rule R197, with spec/10_state.md rule R43), and `NOP` and the reserved words of its row (rule R196). -/

namespace Sys2Proof.Machine

/-! ## RD (R197) -/

/-- Only a slot outside the ring is ill-formed, and the view of it raises `IllegalCommand` (R43; log 6). -/
theorem regView_of_not_wellFormed {reg : RegSel} {s : State} (h : reg.wellFormed s.cfg.n = false) :
    regView reg s = .fault (.illegalCommand (encode (.rd reg))) := by
  cases reg with
  | rb i =>
    have hi : ¬ i.toNat < s.cfg.n := of_decide_eq_false h
    exact if_neg hi
  | _ => cases h

/-- Settles O43: the view shows every well-formed register, and faults on every other. -/
theorem rdCompletesOnLegalIndices : Obligations.RdCompletesOnLegalIndices := by
  refine fun s reg => ⟨fun hwf => ?_, fun hwf => ?_⟩
  · obtain ⟨v, hv⟩ := exists_regView hwf
    exact ⟨v, exec_eq_next.2 (.rd hv)⟩
  · exact execRd_eq_fault.2 (regView_of_not_wellFormed hwf)

/-! ## NOP (R196) -/

/-- A row of format Z reserves every argument but 0 (R82, R92). -/
theorem decodeZ_of_ne_zero {i : Instr} {arg : Word} (h : arg ≠ 0) :
    decodeZ i arg = .error .argument := if_neg h

/-- A word of opcode 0x00 is one of the format Z row of `NOP` (R86). -/
theorem decode_opcode_zero (n : Nat) (arg : Word) : decode n (0x00#8 ++ arg) = decodeZ .nop arg := by
  simp only [decode, opField_append, argField_append, BitVec.toNat_ofNat, Nat.zero_mod]

/-- Settles O13: `NOP` completes with the empty record, its word is the encoding of `NOP`, and a
non-zero argument breaks the rule of its row. -/
theorem nopChangesNothing : Obligations.NopChangesNothing :=
  fun s => ⟨exec_eq_next.2 .nop, decode_encode (i := .nop) rfl,
    fun arg harg => (decode_opcode_zero s.cfg.n arg).trans (decodeZ_of_ne_zero harg)⟩

end Sys2Proof.Machine
end

section
/-! PROOFS. Exceptions (spec/60_exceptions.md): which fault a closing edge raises first (rule R213), which command can raise what (rule R211), and the state held between commands (rule R229). -/

namespace Sys2Proof.Machine

open Sys2Proof.Safety

/-! ## The order of evaluation (R213) -/

/-- A rate that fits is the integer of R163. -/
theorem exists_rate {cfg : Config} {t : Word} (h0 : t ≠ 0) (h2 : t.toNat * 2 < 2 ^ 32)
    (hr : closingRate cfg t.toNat < 2 ^ 32) : ∃ m, rate cfg t = .next m ∧ m.toNat = closingRate cfg t.toNat :=
  have hm := (BitVec.toNat_ofNat _ 32).trans (Nat.mod_eq_of_lt hr)
  ⟨_, rate_eq_next.2 ⟨h0, h2, hm⟩, hm⟩

/-- The error is the first thing that `pi_update` checks (R141). -/
theorem piUpdate_of_error_overflow {ta : Word} {s : State}
    (h : ¬ FitsS32 (closingError s s.measuredRate.toNat)) :
    piUpdate ta s = .fault (.arithOverflow .error) := by
  rw [closingError] at h
  rw [piUpdate, piError, checkS32_of_not_fits h, andThen_fault]

/-- The accumulator is the second (R141). -/
theorem piUpdate_of_errorSum_overflow {ta : Word} {s : State}
    (he : FitsS32 (closingError s s.measuredRate.toNat)) (h : ¬ FitsS32 (closingSum s s.measuredRate.toNat)) :
    piUpdate ta s = .fault (.arithOverflow .errorSum) := by
  rw [closingSum] at h
  rw [closingError] at he h
  rw [piUpdate, piError, checkS32_of_fits he, andThen_next, piSum, toInt_ofInt_of_fits he,
    checkS32_of_not_fits h, andThen_fault]

/-- A closing edge whose counter has not wrapped: the rate, then the controller, then the duty (R161). -/
theorem execEdge_of_fresh {s : State} (timing : s.running = true) (fresh : s.cntOvf = false) :
    execEdge s = andThen (rate s.cfg s.cnt) fun m =>
      andThen (piUpdate (period s.cfg s.cnt)
        (((((s.begin.setElapsedTicks s.cnt).setCnt 0).setRunning false).emitMeasReady).setMeasuredRate m))
      forwardDuty := by
  have hclose := etClose_eq_next.2 ⟨(State.begin_cntOvf s).trans fresh, rfl⟩
  rw [execEdge, if_pos timing, closeWindow, hclose, andThen_next]
  rfl

/-- With no fault of R213 the conditions of R161 hold. -/
theorem closingFits_of_firstFault {s : State} (h : firstFault s = none) : ClosingFits s := by
  unfold firstFault at h
  split_ifs at h with wrapped hcnt htwice hrate herror hsum
  exact ⟨eq_false_of_ne_true wrapped, hcnt, htwice, hrate, herror, hsum⟩

/-- A closing edge raises the first of its faults that applies: each check is reached when the ones before
it have passed. -/
theorem execEdge_of_firstFault {s : State} {f : Fault} (timing : s.running = true)
    (h : firstFault s = some f) : execEdge s = .fault f := by
  cases fresh : s.cntOvf with
  | true =>
    rw [firstFault, if_pos fresh] at h
    cases h
    exact execEdge_of_wrapped timing fresh
  | false =>
    rw [execEdge_of_fresh timing fresh]
    rw [firstFault, fresh, if_neg Bool.false_ne_true] at h
    split_ifs at h with hcnt htwice hrate herror hsum hnan <;> cases h
    · rw [rate_eq_fault.2 (.inl ⟨hcnt, rfl⟩), andThen_fault]
    · cases (isNan_closingRaw s).symm.trans hnan
    · obtain ⟨m, hrate, hm⟩ := exists_rate hcnt htwice hrate
      rw [← hm] at herror hsum
      rw [hrate, andThen_next, piUpdate_of_errorSum_overflow herror hsum, andThen_fault]
    · obtain ⟨m, hrate, hm⟩ := exists_rate hcnt htwice hrate
      rw [← hm] at herror
      rw [hrate, andThen_next, piUpdate_of_error_overflow herror, andThen_fault]
    · rw [rate_eq_fault.2 (.inr (.inr ⟨hcnt, htwice, hrate, rfl⟩)), andThen_fault]
    · rw [rate_eq_fault.2 (.inr (.inl ⟨hcnt, htwice, rfl⟩)), andThen_fault]

/-- Settles O19: a reserved word does not decode, and a closing edge with no fault of the list completes. -/
theorem faultPriority : Obligations.FaultPriority := by
  refine ⟨fun s w rest hin => (reservedWordsRaiseIllegalCommand s w rest hin).1,
    fun s timing => ⟨fun f hf => execEdge_of_firstFault timing hf, fun hnone => ?_⟩⟩
  obtain ⟨d, -, ht⟩ := (closingEdgeResult s timing).1 (closingFits_of_firstFault hnone)
  exact ⟨_, ht⟩

/-! ## The faults of each command (R211) -/

/-- What `EDGE` can raise, and that only a closing edge does. -/
theorem mem_of_execEdge_eq_fault {s : State} {f : Fault} (h : execEdge s = .fault f) :
    s.running = true ∧ f ∈ [Fault.counterWrap, .divideByZero, .arithOverflow .ticksTwice,
      .arithOverflow .rate, .arithOverflow .error, .arithOverflow .errorSum, .fpInvalid] := by
  cases timing : s.running with
  | false => cases (execEdge_of_idle timing).symm.trans h
  | true =>
    rw [execEdge, if_pos timing] at h
    exact ⟨rfl, mem_of_closeWindow_eq_fault h⟩

/-- What `FILT` can raise (R184). -/
theorem eq_of_execFilt_eq_fault {val : Word} {s : State} {f : Fault} (h : execFilt val s = .fault f) :
    f = .arithOverflow .smooth :=
  (smooth_eq_fault.1 (execFilt_eq_fault.1 h).2).2

/-- What `RD` can raise, and that only an ill-formed one does (R43). -/
theorem eq_of_execRd_eq_fault {reg : RegSel} {s : State} {f : Fault} (h : execRd reg s = .fault f) :
    reg.wellFormed s.cfg.n = false ∧ f = .illegalCommand (encode (.rd reg)) := by
  have hview := execRd_eq_fault.1 h
  cases hwf : reg.wellFormed s.cfg.n with
  | true =>
    obtain ⟨v, hv⟩ := exists_regView hwf
    cases hv.symm.trans hview
  | false => exact ⟨rfl, Host.Outcome.fault.inj (hview.symm.trans (regView_of_not_wellFormed hwf))⟩

/-- A well-formed command does not raise `IllegalCommand`. -/
theorem exec_ne_illegalCommand {i : Instr} {s : State} {w : CmdWord} (hwf : i.wellFormed s.cfg.n = true) :
    exec i s ≠ .fault (.illegalCommand w) := by
  intro h
  cases i with
  | nop => cases h
  | edge => simpa using (mem_of_execEdge_eq_fault h).2
  | tick => cases (execTick_eq s).symm.trans h
  | settgt val => cases h
  | filt val => cases eq_of_execFilt_eq_fault h
  | rd reg => exact absurd hwf (by simp [Instr.wellFormed, (eq_of_execRd_eq_fault h).1])

/-- A step raises `IllegalCommand` of the word it takes exactly if that word is reserved (R92, R206). -/
theorem step_eq_illegalCommand_iff {s : State} {w : CmdWord} {rest : List Input}
    (hin : s.inputs = .command w :: rest) :
    step s = .fault (.illegalCommand w) ↔ IsReserved s.cfg.n w := by
  obtain ⟨hreserved, hlegal⟩ := reservedWordsRaiseIllegalCommand s w rest hin
  refine ⟨fun h => ?_, hreserved⟩
  by_contra hnot
  obtain ⟨i, hd⟩ := hlegal hnot
  rw [step_of_decode_ok hin hd] at h
  exact exec_ne_illegalCommand (s := s.setInputs rest) (encode_of_decode hd).2 h

/-- Settles O50: command by command, and a word that decodes is a well-formed command. -/
theorem faultsByCommand : Obligations.FaultsByCommand := by
  refine ⟨fun i s f h => ?_, fun s w rest hin => step_eq_illegalCommand_iff hin⟩
  cases i with
  | nop => cases h
  | edge => exact mem_of_execEdge_eq_fault h
  | tick => cases (execTick_eq s).symm.trans h
  | settgt val => cases h
  | filt val => exact eq_of_execFilt_eq_fault h
  | rd reg => exact ⟨_, (eq_of_execRd_eq_fault h).2⟩

/-! ## Between commands (R229) -/

/-- Settles O9: a step that takes nothing is the idle one. -/
theorem nothingPresentedHoldsTheState : Obligations.NothingPresentedHoldsTheState :=
  fun _ h => step_of_idle h

end Sys2Proof.Machine
end

section
/-! PROOFS. Reset (spec/70_reset_and_hazards.md): what `rst` gives (rule R235), and what stays at its reset value along a run without `EDGE` or without `FILT` (rule R237). -/

namespace Sys2Proof.Machine

open Sys2Proof.Safety

/-! ## Reset as an input (R235) -/

/-- Settles O10: the step takes the reset, and `rst` is a launch with the configuration it finds and with
what is presented next. -/
theorem resetInputGivesTheResetState : Obligations.ResetInputGivesTheResetState :=
  fun s rest h => (step_of_reset h).trans (congrArg Host.Outcome.next (rst_eq_launch (s.setInputs rest)))

/-! ## The idle state (R237) -/

/-- A run without `FILT` keeps the state of unit MF. -/
theorem runCommands_keeps_filter {is : List Instr} {s t : State} {outs : List OutRecord}
    (hf : ∀ i ∈ is, isFilt i = false) (h : runCommands is s = .next (t, outs)) :
    t.rb = s.rb ∧ t.writePos = s.writePos ∧ t.lastMedian = s.lastMedian := by
  induction is generalizing s outs with
  | nil =>
    obtain ⟨rfl, -⟩ := Prod.mk.inj (Host.Outcome.next.inj h)
    exact ⟨rfl, rfl, rfl⟩
  | cons i is ih =>
    obtain ⟨s1, outs', hi, hrest, -⟩ := runCommands_cons_eq_next.1 h
    obtain ⟨hfi, hfis⟩ := List.forall_mem_cons.1 hf
    simpa only [hi.keeps_filter hfi] using ih hfis hrest

/-- With no window open `TICK` writes the record alone (R113). -/
theorem execTick_of_idle {s : State} (idle : s.running = false) : execTick s = .next s.begin :=
  congrArg Host.Outcome.next (if_neg (ne_true_of_eq_false idle))

/-- Settles O58: a run without `EDGE` opens no window, so the counter stays stopped by the invariant of
R40, and keeps what a closing edge computes; a run without `FILT` keeps the filter. -/
theorem idleStateStaysIdle : Obligations.IdleStateStaysIdle := by
  refine ⟨fun cfg is t outs h => ⟨fun he => ?_, fun hf => ?_⟩, fun _ _ => rfl,
    fun _ idle => execTick_of_idle idle⟩
  · obtain ⟨hrun, helapsed, hmeasured, hsum, hout, hduty⟩ := runCommands_keeps_measurement he h
    obtain ⟨hstopped, -⟩ := invariantsOfReachableStates cfg is t outs h
    obtain ⟨hcnt, hovf⟩ := hstopped hrun
    exact ⟨hsum, hout, hduty, hmeasured, helapsed, hrun, hcnt, hovf⟩
  · obtain ⟨hrb, hpos, hlast⟩ := runCommands_keeps_filter hf h
    refine ⟨hlast, hpos, fun i => ?_⟩
    rw [hrb]
    rfl

end Sys2Proof.Machine
end
